-- ==== Sys2Proof/Word.lean ====
section
/-! DEFINITION. The 64-bit word, the byte, and the plainest arithmetic on them (spec/00_scope.md R9). -/

namespace Sys2Proof

/-- A register value, an immediate or a stack word: a 64-bit pattern with no sign (R9). -/
abbrev Word := BitVec 64

/-- A byte of the instruction stream, of a stack word or of a stream. -/
abbrev Byte := BitVec 8

/-- `u(v)` of R9: the pattern read as an integer in `[0, 2^64)`. -/
abbrev Word.u (v : Word) : Int := (v.toNat : Int)

/-- `s(v)` of R9: the pattern read as a two's-complement integer in `[-2^63, 2^63)`. -/
abbrev Word.s (v : Word) : Int := v.toInt

/-- `w(n)` of R9: the integer `n` reduced modulo `2^64`, as a pattern. -/
abbrev wrap (n : Int) : Word := BitVec.ofInt 64 n

end Sys2Proof
end

