-- ==== Sys2Proof/Config.lean ====
section
/-! DEFINITION. What a configuration fixes: the parameters of spec/00_scope.md R7 and their defaults. -/

namespace Sys2Proof

/-- `UNINIT_REG_POLICY` of R7: what reading a register cell that nothing wrote does
(spec/10_state.md R41). -/
inductive UninitPolicy where
  /-- the read yields the cell's reset value 0 -/
  | zero
  /-- the read raises `UninitializedRead` -/
  | fault
  deriving DecidableEq, Repr

namespace Config

/-- `XLEN` of R7, the register width in bits. -/
def xlen : Nat := 64

/-- `WORD_BYTES` of R7, the stack word size. -/
def wordBytes : Nat := 8

/-- The default of the launch parameter `STACK_BASE` (R7). -/
def stackBase : Word := 0x0000000100000000#64

/-- The default of the launch parameter `STACK_CAPACITY_WORDS` (R7). -/
def stackCapacityWords : Nat := 1024

/-- The default of `UNINIT_REG_POLICY` (R7). -/
def uninitRegPolicy : UninitPolicy := .zero

end Config

end Sys2Proof
end

