-- ==== Sys2Proof/Syntax.lean ====
section
/-! DEFINITION. The syntax: registers, operands, mnemonics with their operand schemas, and the
instructions (spec/10_state.md R21, spec/00_scope.md R12, spec/30_encoding.md R84 and R85). -/

namespace Sys2Proof

/-- The 14 register specifiers, by their source names (10_state.md R20, R21). -/
inductive Reg where
  | g0 | g1 | g2 | g3 | g4 | g5 | g6 | g7
  /-- `$S_B`, the stack start, read-only -/
  | stackBase
  /-- `$S_E`, the stack end, read-only -/
  | stackEnd
  /-- `$R`, the return value -/
  | ret
  /-- `$I`, the program counter -/
  | instruction
  /-- `$Z`, always zero -/
  | zero
  /-- `$E`, the error code, advisory -/
  | error
  deriving DecidableEq, Repr

/-- A decoded operand: a register or a 64-bit immediate (30_encoding.md R79, R81). -/
inductive Operand where
  | reg (r : Reg)
  | imm (v : Word)
  deriving DecidableEq, Repr

/-- The kinds of operand slots (00_scope.md R12). -/
inductive SlotKind where
  /-- `D`, a destination: a register -/
  | dest
  /-- `A`, an address base: a register -/
  | addr
  /-- `T`, a control-flow target: an immediate -/
  | target
  /-- `S`, a source value: a register or an immediate -/
  | src
  deriving DecidableEq, Repr

/-- The seven dispatch groups, in the order of their numbers 0 to 6 (30_encoding.md R83). -/
inductive Group where
  | arithmetic | shift | bitLogic | multDiv | controlFlow | memory | misc
  deriving DecidableEq, Repr

/-- The 58 mnemonics of `OPCODE_MAP`, in the order of 30_encoding.md R84. -/
inductive Op where
  | addts | addtu | addis | addiu | subts | subtu | subis | subiu
  | lshlt | lshli | lshrt | lshri | ashrt | ashri
  | andt | andi | ort | ori | xort | xori | nott | noi
  | mults_e | mulis_e | multu_e | muliu_e | divts_e | divtu_e
  | jmp | jmpeq | jmpne | jmpgts | jmpges | jmplts | jmples | jmpgtu | jmpgeu | jmpltu | jmpleu | cal | ret
  | mov | load | loado | loadb | loadbo | stor | storo | storb | storbo | push | pop
  | halt | exit | print | read | dump | nop
  deriving DecidableEq, Repr

/-- Every mnemonic, in the order of R84. -/
def Op.all : List Op :=
  [.addts, .addtu, .addis, .addiu, .subts, .subtu, .subis, .subiu,
   .lshlt, .lshli, .lshrt, .lshri, .ashrt, .ashri,
   .andt, .andi, .ort, .ori, .xort, .xori, .nott, .noi,
   .mults_e, .mulis_e, .multu_e, .muliu_e, .divts_e, .divtu_e,
   .jmp, .jmpeq, .jmpne, .jmpgts, .jmpges, .jmplts, .jmples, .jmpgtu, .jmpgeu, .jmpltu, .jmpleu, .cal, .ret,
   .mov, .load, .loado, .loadb, .loadbo, .stor, .storo, .storb, .storbo, .push, .pop,
   .halt, .exit, .print, .read, .dump, .nop]

/-- The schema column of 30_encoding.md R84: the kind of each slot, in slot order. -/
def Op.schema : Op → List SlotKind
  | .addts | .addtu | .subts | .subtu | .lshlt | .lshrt | .ashrt | .andt | .ort | .xort
  | .mults_e | .multu_e => [.dest, .src, .src]
  | .addis | .addiu | .subis | .subiu | .lshli | .lshri | .ashri | .andi | .ori | .xori | .nott
  | .mulis_e | .muliu_e | .mov => [.dest, .src]
  | .noi | .pop | .read => [.dest]
  | .divts_e | .divtu_e => [.dest, .dest, .src, .src]
  | .jmp | .cal => [.target]
  | .jmpeq | .jmpne | .jmpgts | .jmpges | .jmplts | .jmples | .jmpgtu | .jmpgeu | .jmpltu
  | .jmpleu => [.target, .src, .src]
  | .ret | .push | .exit | .print => [.src]
  | .load | .loadb => [.dest, .addr]
  | .loado | .loadbo => [.dest, .addr, .src]
  | .stor | .storb => [.src, .addr]
  | .storo | .storbo => [.src, .addr, .src]
  | .halt | .dump | .nop => []

/-- One instruction: a mnemonic with operands that fit its slots. `D` and `A` slots hold a register,
`T` slots a 64-bit target, `S` slots either kind (R85). -/
inductive Instr where
  | addts (d : Reg) (a b : Operand)
  | addtu (d : Reg) (a b : Operand)
  | addis (d : Reg) (b : Operand)
  | addiu (d : Reg) (b : Operand)
  | subts (d : Reg) (a b : Operand)
  | subtu (d : Reg) (a b : Operand)
  | subis (d : Reg) (b : Operand)
  | subiu (d : Reg) (b : Operand)
  | lshlt (d : Reg) (a b : Operand)
  | lshli (d : Reg) (b : Operand)
  | lshrt (d : Reg) (a b : Operand)
  | lshri (d : Reg) (b : Operand)
  | ashrt (d : Reg) (a b : Operand)
  | ashri (d : Reg) (b : Operand)
  | andt (d : Reg) (a b : Operand)
  | andi (d : Reg) (b : Operand)
  | ort (d : Reg) (a b : Operand)
  | ori (d : Reg) (b : Operand)
  | xort (d : Reg) (a b : Operand)
  | xori (d : Reg) (b : Operand)
  | nott (d : Reg) (a : Operand)
  | noi (d : Reg)
  | mults_e (d : Reg) (a b : Operand)
  | mulis_e (d : Reg) (b : Operand)
  | multu_e (d : Reg) (a b : Operand)
  | muliu_e (d : Reg) (b : Operand)
  | divts_e (dq dr : Reg) (n m : Operand)
  | divtu_e (dq dr : Reg) (n m : Operand)
  | jmp (t : Word)
  | jmpeq (t : Word) (a b : Operand)
  | jmpne (t : Word) (a b : Operand)
  | jmpgts (t : Word) (a b : Operand)
  | jmpges (t : Word) (a b : Operand)
  | jmplts (t : Word) (a b : Operand)
  | jmples (t : Word) (a b : Operand)
  | jmpgtu (t : Word) (a b : Operand)
  | jmpgeu (t : Word) (a b : Operand)
  | jmpltu (t : Word) (a b : Operand)
  | jmpleu (t : Word) (a b : Operand)
  | cal (t : Word)
  | ret (v : Operand)
  | mov (d : Reg) (v : Operand)
  | load (d base : Reg)
  | loado (d base : Reg) (off : Operand)
  | loadb (d base : Reg)
  | loadbo (d base : Reg) (off : Operand)
  | stor (v : Operand) (base : Reg)
  | storo (v : Operand) (base : Reg) (off : Operand)
  | storb (v : Operand) (base : Reg)
  | storbo (v : Operand) (base : Reg) (off : Operand)
  | push (v : Operand)
  | pop (d : Reg)
  | halt
  | exit (v : Operand)
  | print (v : Operand)
  | read (d : Reg)
  | dump
  | nop
  deriving DecidableEq, Repr

/-- The mnemonic of an instruction. -/
def Instr.op : Instr → Op
  | .addts .. => .addts
  | .addtu .. => .addtu
  | .addis .. => .addis
  | .addiu .. => .addiu
  | .subts .. => .subts
  | .subtu .. => .subtu
  | .subis .. => .subis
  | .subiu .. => .subiu
  | .lshlt .. => .lshlt
  | .lshli .. => .lshli
  | .lshrt .. => .lshrt
  | .lshri .. => .lshri
  | .ashrt .. => .ashrt
  | .ashri .. => .ashri
  | .andt .. => .andt
  | .andi .. => .andi
  | .ort .. => .ort
  | .ori .. => .ori
  | .xort .. => .xort
  | .xori .. => .xori
  | .nott .. => .nott
  | .noi .. => .noi
  | .mults_e .. => .mults_e
  | .mulis_e .. => .mulis_e
  | .multu_e .. => .multu_e
  | .muliu_e .. => .muliu_e
  | .divts_e .. => .divts_e
  | .divtu_e .. => .divtu_e
  | .jmp .. => .jmp
  | .jmpeq .. => .jmpeq
  | .jmpne .. => .jmpne
  | .jmpgts .. => .jmpgts
  | .jmpges .. => .jmpges
  | .jmplts .. => .jmplts
  | .jmples .. => .jmples
  | .jmpgtu .. => .jmpgtu
  | .jmpgeu .. => .jmpgeu
  | .jmpltu .. => .jmpltu
  | .jmpleu .. => .jmpleu
  | .cal .. => .cal
  | .ret .. => .ret
  | .mov .. => .mov
  | .load .. => .load
  | .loado .. => .loado
  | .loadb .. => .loadb
  | .loadbo .. => .loadbo
  | .stor .. => .stor
  | .storo .. => .storo
  | .storb .. => .storb
  | .storbo .. => .storbo
  | .push .. => .push
  | .pop .. => .pop
  | .halt => .halt
  | .exit .. => .exit
  | .print .. => .print
  | .read .. => .read
  | .dump => .dump
  | .nop => .nop

/-- The operands of an instruction, in slot order. -/
def Instr.operands : Instr → List Operand
  | .addts d a b => [.reg d, a, b]
  | .addtu d a b => [.reg d, a, b]
  | .addis d b => [.reg d, b]
  | .addiu d b => [.reg d, b]
  | .subts d a b => [.reg d, a, b]
  | .subtu d a b => [.reg d, a, b]
  | .subis d b => [.reg d, b]
  | .subiu d b => [.reg d, b]
  | .lshlt d a b => [.reg d, a, b]
  | .lshli d b => [.reg d, b]
  | .lshrt d a b => [.reg d, a, b]
  | .lshri d b => [.reg d, b]
  | .ashrt d a b => [.reg d, a, b]
  | .ashri d b => [.reg d, b]
  | .andt d a b => [.reg d, a, b]
  | .andi d b => [.reg d, b]
  | .ort d a b => [.reg d, a, b]
  | .ori d b => [.reg d, b]
  | .xort d a b => [.reg d, a, b]
  | .xori d b => [.reg d, b]
  | .nott d a => [.reg d, a]
  | .noi d => [.reg d]
  | .mults_e d a b => [.reg d, a, b]
  | .mulis_e d b => [.reg d, b]
  | .multu_e d a b => [.reg d, a, b]
  | .muliu_e d b => [.reg d, b]
  | .divts_e dq dr n m => [.reg dq, .reg dr, n, m]
  | .divtu_e dq dr n m => [.reg dq, .reg dr, n, m]
  | .jmp t => [.imm t]
  | .jmpeq t a b => [.imm t, a, b]
  | .jmpne t a b => [.imm t, a, b]
  | .jmpgts t a b => [.imm t, a, b]
  | .jmpges t a b => [.imm t, a, b]
  | .jmplts t a b => [.imm t, a, b]
  | .jmples t a b => [.imm t, a, b]
  | .jmpgtu t a b => [.imm t, a, b]
  | .jmpgeu t a b => [.imm t, a, b]
  | .jmpltu t a b => [.imm t, a, b]
  | .jmpleu t a b => [.imm t, a, b]
  | .cal t => [.imm t]
  | .ret v => [v]
  | .mov d v => [.reg d, v]
  | .load d base => [.reg d, .reg base]
  | .loado d base off => [.reg d, .reg base, off]
  | .loadb d base => [.reg d, .reg base]
  | .loadbo d base off => [.reg d, .reg base, off]
  | .stor v base => [v, .reg base]
  | .storo v base off => [v, .reg base, off]
  | .storb v base => [v, .reg base]
  | .storbo v base off => [v, .reg base, off]
  | .push v => [v]
  | .pop d => [.reg d]
  | .halt => []
  | .exit v => [v]
  | .print v => [v]
  | .read d => [.reg d]
  | .dump => []
  | .nop => []

/-- A mnemonic with an operand list as the assembler meets it, before its arity and its operand kinds
are checked (30_encoding.md R91, R97). -/
structure RawInstr where
  op : Op
  operands : List Operand
  deriving DecidableEq, Repr

/-- The mnemonic and the operand list of an instruction. -/
def Instr.toRaw (i : Instr) : RawInstr := ⟨i.op, i.operands⟩

/-- The instruction a mnemonic and an operand list name; none when the list does not fit the schema. -/
def Instr.ofRaw (r : RawInstr) : Option Instr :=
  match r.op, r.operands with
  | .addts, [.reg d, a, b] => some (.addts d a b)
  | .addtu, [.reg d, a, b] => some (.addtu d a b)
  | .addis, [.reg d, b] => some (.addis d b)
  | .addiu, [.reg d, b] => some (.addiu d b)
  | .subts, [.reg d, a, b] => some (.subts d a b)
  | .subtu, [.reg d, a, b] => some (.subtu d a b)
  | .subis, [.reg d, b] => some (.subis d b)
  | .subiu, [.reg d, b] => some (.subiu d b)
  | .lshlt, [.reg d, a, b] => some (.lshlt d a b)
  | .lshli, [.reg d, b] => some (.lshli d b)
  | .lshrt, [.reg d, a, b] => some (.lshrt d a b)
  | .lshri, [.reg d, b] => some (.lshri d b)
  | .ashrt, [.reg d, a, b] => some (.ashrt d a b)
  | .ashri, [.reg d, b] => some (.ashri d b)
  | .andt, [.reg d, a, b] => some (.andt d a b)
  | .andi, [.reg d, b] => some (.andi d b)
  | .ort, [.reg d, a, b] => some (.ort d a b)
  | .ori, [.reg d, b] => some (.ori d b)
  | .xort, [.reg d, a, b] => some (.xort d a b)
  | .xori, [.reg d, b] => some (.xori d b)
  | .nott, [.reg d, a] => some (.nott d a)
  | .noi, [.reg d] => some (.noi d)
  | .mults_e, [.reg d, a, b] => some (.mults_e d a b)
  | .mulis_e, [.reg d, b] => some (.mulis_e d b)
  | .multu_e, [.reg d, a, b] => some (.multu_e d a b)
  | .muliu_e, [.reg d, b] => some (.muliu_e d b)
  | .divts_e, [.reg dq, .reg dr, n, m] => some (.divts_e dq dr n m)
  | .divtu_e, [.reg dq, .reg dr, n, m] => some (.divtu_e dq dr n m)
  | .jmp, [.imm t] => some (.jmp t)
  | .jmpeq, [.imm t, a, b] => some (.jmpeq t a b)
  | .jmpne, [.imm t, a, b] => some (.jmpne t a b)
  | .jmpgts, [.imm t, a, b] => some (.jmpgts t a b)
  | .jmpges, [.imm t, a, b] => some (.jmpges t a b)
  | .jmplts, [.imm t, a, b] => some (.jmplts t a b)
  | .jmples, [.imm t, a, b] => some (.jmples t a b)
  | .jmpgtu, [.imm t, a, b] => some (.jmpgtu t a b)
  | .jmpgeu, [.imm t, a, b] => some (.jmpgeu t a b)
  | .jmpltu, [.imm t, a, b] => some (.jmpltu t a b)
  | .jmpleu, [.imm t, a, b] => some (.jmpleu t a b)
  | .cal, [.imm t] => some (.cal t)
  | .ret, [v] => some (.ret v)
  | .mov, [.reg d, v] => some (.mov d v)
  | .load, [.reg d, .reg base] => some (.load d base)
  | .loado, [.reg d, .reg base, off] => some (.loado d base off)
  | .loadb, [.reg d, .reg base] => some (.loadb d base)
  | .loadbo, [.reg d, .reg base, off] => some (.loadbo d base off)
  | .stor, [v, .reg base] => some (.stor v base)
  | .storo, [v, .reg base, off] => some (.storo v base off)
  | .storb, [v, .reg base] => some (.storb v base)
  | .storbo, [v, .reg base, off] => some (.storbo v base off)
  | .push, [v] => some (.push v)
  | .pop, [.reg d] => some (.pop d)
  | .halt, [] => some .halt
  | .exit, [v] => some (.exit v)
  | .print, [v] => some (.print v)
  | .read, [.reg d] => some (.read d)
  | .dump, [] => some .dump
  | .nop, [] => some .nop
  | _, _ => none

end Sys2Proof
end

