-- ==== Sys2Proof/Machine/FaultKind.lean ====
section
/-! DEFINITION. The sixteen fault kinds of spec/60_exceptions.md R211, with their codes, their source
classes and the information each one records. -/

namespace Sys2Proof.Machine

/-- A fault kind of R211 with the information its last column records. The `pc` that every kind
records is the `pc` of the faulted state, which stays at the faulting instruction (R212; log 7). -/
inductive FaultKind where
  /-- a fetch with `pc >= PLEN` -/
  | pcOutOfRange
  /-- the instruction's bytes run past `PLEN - 1` -/
  | truncated
  /-- the identifier is not in `OPCODE_MAP`; records the three identifier bytes -/
  | unknownOpcode (b0 b1 b2 : Byte)
  /-- a mode bit contradicts the slot's kind; records the slot and the mode byte -/
  | operandKindMismatch (slot : Nat) (mode : Byte)
  /-- a register byte that is no register code; records the slot and the byte -/
  | invalidRegister (slot : Nat) (byte : Byte)
  /-- `pc + L > 2^64 - 1` -/
  | pcOverflow
  /-- a `D` slot names `$S_B` or `$S_E`; records the slot -/
  | readOnlyRegister (slot : Nat)
  /-- an unwritten cell is read under `UNINIT_REG_POLICY = fault`; records the register -/
  | uninitializedRead (r : Reg)
  /-- `Pop` on an empty stack -/
  | stackUnderflow
  /-- `Push` on a full stack -/
  | sizeLimitReached
  /-- a data address outside `[end, start)`; records the address -/
  | memoryOutOfBounds (a : Word)
  /-- a word access with `(a - end) mod 8 != 0`; records the address -/
  | misalignedWordAccess (a : Word)
  /-- a division whose divisor is 0 -/
  | divideByZero
  /-- the signed division of `-2^63` by `-1` -/
  | divideOverflow
  /-- `read` with no input left -/
  | inputExhausted
  /-- `dump` executed -/
  | unimplemented
  deriving DecidableEq, Repr

/-- The `code` column of R211. No fault writes it into `$E` (R222). -/
def FaultKind.code : FaultKind → Nat
  | .pcOutOfRange => 1
  | .truncated => 2
  | .unknownOpcode .. => 3
  | .operandKindMismatch .. => 4
  | .invalidRegister .. => 5
  | .pcOverflow => 6
  | .readOnlyRegister _ => 7
  | .uninitializedRead _ => 8
  | .stackUnderflow => 9
  | .sizeLimitReached => 10
  | .memoryOutOfBounds _ => 11
  | .misalignedWordAccess _ => 12
  | .divideByZero => 13
  | .divideOverflow => 14
  | .inputExhausted => 15
  | .unimplemented => 16

/-- The two classes of execution-time faults (R211). -/
inductive FaultClass where
  | decodeError
  | runtimeFault
  deriving DecidableEq, Repr

/-- The `source class` column of R211. -/
def FaultKind.sourceClass : FaultKind → FaultClass
  | .truncated => .decodeError
  | .unknownOpcode .. => .decodeError
  | .operandKindMismatch .. => .decodeError
  | .invalidRegister .. => .decodeError
  | .pcOutOfRange => .runtimeFault
  | .pcOverflow => .runtimeFault
  | .readOnlyRegister _ => .runtimeFault
  | .uninitializedRead _ => .runtimeFault
  | .stackUnderflow => .runtimeFault
  | .sizeLimitReached => .runtimeFault
  | .memoryOutOfBounds _ => .runtimeFault
  | .misalignedWordAccess _ => .runtimeFault
  | .divideByZero => .runtimeFault
  | .divideOverflow => .runtimeFault
  | .inputExhausted => .runtimeFault
  | .unimplemented => .runtimeFault

/-- The error-register vocabulary of spec/10_state.md R29. The codes are advisory: the core never
writes them, a program may write them to `$E` itself (R222). -/
inductive ErrorCode where
  | unknown | badInstruction | overflow | divZero
  deriving DecidableEq, Repr

/-- The numbers of R29. -/
def ErrorCode.number : ErrorCode → Word
  | .unknown => 1
  | .badInstruction => 2
  | .overflow => 3
  | .divZero => 4

end Sys2Proof.Machine
end

