-- ==== Sys2Proof/WellFormed.lean ====
section
/-! DEFINITION. When a mnemonic with an operand list is an instruction: the arity and the operand
kinds of spec/30_encoding.md R85, checked as R91 says. -/

namespace Sys2Proof

/-- Whether a slot of this kind may hold this operand: an immediate may not stand in a `D` or an `A`
slot, a register may not stand in a `T` slot (R91, 00_scope.md R12). -/
def SlotKind.accepts : SlotKind → Operand → Bool
  | .dest, .reg _ => true
  | .dest, .imm _ => false
  | .addr, .reg _ => true
  | .addr, .imm _ => false
  | .target, .reg _ => false
  | .target, .imm _ => true
  | .src, _ => true

/-- The operand list has the schema's length and every slot accepts its operand (R91). -/
def fitsSchema : List SlotKind → List Operand → Bool
  | [], [] => true
  | k :: ks, o :: os => k.accepts o && fitsSchema ks os
  | [], _ :: _ => false
  | _ :: _, [] => false

/-- A mnemonic with an operand list is well formed when the list fits the mnemonic's schema. -/
def RawInstr.wellFormed (r : RawInstr) : Bool := fitsSchema r.op.schema r.operands

/-- An instruction is well formed when its mnemonic and operand list are. The types of the
constructors of `Instr` already grant it (Laws/PerInstr.lean proves so, one lemma a constructor). -/
def Instr.wellFormed (i : Instr) : Bool := i.toRaw.wellFormed

end Sys2Proof
end

