-- ==== Sys2Proof/Decode.lean ====
section
/-! DEFINITION. The codecs of spec/30_encoding.md: identifiers, mode bytes, operands, the decoder of
R87 with its faults in the order of R88, and after it the encoder of R90. Both take `OPCODE_MAP` as an
argument (spec/00_scope.md R7); a run uses its own map, whose default is the table of R84. -/

namespace Sys2Proof

open Sys2Proof.Machine (FaultKind)

/-! ## The identifier codec (R71 to R74) -/

/-- An instruction identifier: a 16-bit code, a 4-bit type and a 4-bit group (R71). -/
structure Ident where
  code : BitVec 16
  type : BitVec 4
  group : BitVec 4
  deriving DecidableEq, Repr

/-- `IdentEncode` of R71: `code_lo`, `code_hi`, `type << 4 | group`. -/
def identEncode (id : Ident) : List Byte :=
  [id.code.setWidth 8, (id.code >>> 8).setWidth 8, id.type ++ id.group]

/-- `IdentDecode` of R73, total on every three bytes. -/
def identDecode (b0 b1 b2 : Byte) : Ident :=
  ⟨b1 ++ b0, b2.extractLsb' 4 4, b2.extractLsb' 0 4⟩

/-- The construction of an identifier from numbers: none when `type > 15` or `group > 15`, the
`EncodingError` of R72. -/
def identOfNats (code : BitVec 16) (type group : Nat) : Option Ident :=
  if type ≤ 15 ∧ group ≤ 15 then some ⟨code, BitVec.ofNat 4 type, BitVec.ofNat 4 group⟩ else none

/-! ## The operand-mode codec (R75, R76) -/

/-- Flag `i` of `ModeDecode` (R75): bit `7 - i`; true is an immediate, false a register. -/
def modeFlag (mode : Byte) (slot : Nat) : Bool := mode.getLsbD (7 - slot)

/-- `ModeDecode` of R75: the eight flags of a mode byte, slot 0 first. -/
def modeDecode (mode : Byte) : List Bool := (List.range 8).map (modeFlag mode)

/-- The flag of slot `slot` in its place, bit `7 - slot`. -/
def modeBit (slot : Nat) (flag : Bool) : Byte := if flag then 0x80#8 >>> slot else 0#8

/-- The flags of the slots from `slot` on, in their places. -/
def modeEncodeFrom : Nat → List Bool → Byte
  | _, [] => 0#8
  | slot, f :: fs => modeBit slot f ||| modeEncodeFrom (slot + 1) fs

/-- `ModeEncode` of R75; a list of fewer than eight flags leaves the absent slots 0 (R78). -/
def modeEncode (flags : List Bool) : Byte := modeEncodeFrom 0 flags

/-! ## Register codes (10_state.md R21) and little-endian bytes (R81) -/

/-- The register code of R21. -/
def Reg.code : Reg → Byte
  | .g0 => 0 | .g1 => 1 | .g2 => 2 | .g3 => 3 | .g4 => 4 | .g5 => 5 | .g6 => 6 | .g7 => 7
  | .stackBase => 8 | .stackEnd => 9
  | .ret => 16 | .instruction => 17 | .zero => 18 | .error => 19

/-- The 14 register specifiers, in the order of their codes. -/
def Reg.all : List Reg :=
  [.g0, .g1, .g2, .g3, .g4, .g5, .g6, .g7, .stackBase, .stackEnd, .ret, .instruction, .zero, .error]

/-- The register of a code byte: none for 10 to 15 and 20 to 255 (R80). -/
def Reg.ofCode (b : Byte) : Option Reg := Reg.all.find? fun r => r.code == b

/-- The low `k` bytes of a number, least significant first. -/
def leBytes : Nat → Nat → List Byte
  | 0, _ => []
  | k + 1, n => BitVec.ofNat 8 n :: leBytes k (n / 256)

/-- The number whose little-endian bytes are given: the sum of `b_k << 8k` (R81). -/
def leNat : List Byte → Nat
  | [] => 0
  | b :: bs => b.toNat + 256 * leNat bs

/-! ## `OPCODE_MAP` (R83, R84) -/

/-- An opcode assignment: the identifier of every mnemonic (00_scope.md R7). -/
abbrev OpcodeMap := Op → Ident

/-- The default `OPCODE_MAP` of R84. -/
def opcodeMap : OpcodeMap
  | .addts => ⟨1, 0, 0⟩
  | .addtu => ⟨1, 1, 0⟩
  | .addis => ⟨1, 2, 0⟩
  | .addiu => ⟨1, 3, 0⟩
  | .subts => ⟨2, 0, 0⟩
  | .subtu => ⟨2, 1, 0⟩
  | .subis => ⟨2, 2, 0⟩
  | .subiu => ⟨2, 3, 0⟩
  | .lshlt => ⟨3, 0, 1⟩
  | .lshli => ⟨3, 2, 1⟩
  | .lshrt => ⟨4, 0, 1⟩
  | .lshri => ⟨4, 2, 1⟩
  | .ashrt => ⟨5, 0, 1⟩
  | .ashri => ⟨5, 2, 1⟩
  | .andt => ⟨6, 0, 2⟩
  | .andi => ⟨6, 2, 2⟩
  | .ort => ⟨7, 0, 2⟩
  | .ori => ⟨7, 2, 2⟩
  | .xort => ⟨8, 0, 2⟩
  | .xori => ⟨8, 2, 2⟩
  | .nott => ⟨9, 0, 2⟩
  | .noi => ⟨9, 2, 2⟩
  | .mults_e => ⟨10, 0, 3⟩
  | .mulis_e => ⟨10, 2, 3⟩
  | .multu_e => ⟨10, 1, 3⟩
  | .muliu_e => ⟨10, 3, 3⟩
  | .divts_e => ⟨11, 0, 3⟩
  | .divtu_e => ⟨11, 1, 3⟩
  | .jmp => ⟨12, 0, 4⟩
  | .jmpeq => ⟨13, 0, 4⟩
  | .jmpne => ⟨14, 0, 4⟩
  | .jmpgts => ⟨15, 0, 4⟩
  | .jmpges => ⟨16, 0, 4⟩
  | .jmplts => ⟨17, 0, 4⟩
  | .jmples => ⟨18, 0, 4⟩
  | .jmpgtu => ⟨15, 1, 4⟩
  | .jmpgeu => ⟨16, 1, 4⟩
  | .jmpltu => ⟨17, 1, 4⟩
  | .jmpleu => ⟨18, 1, 4⟩
  | .cal => ⟨19, 0, 4⟩
  | .ret => ⟨20, 0, 4⟩
  | .mov => ⟨21, 0, 5⟩
  | .load => ⟨22, 0, 5⟩
  | .loado => ⟨22, 8, 5⟩
  | .loadb => ⟨22, 4, 5⟩
  | .loadbo => ⟨22, 12, 5⟩
  | .stor => ⟨23, 0, 5⟩
  | .storo => ⟨23, 8, 5⟩
  | .storb => ⟨23, 4, 5⟩
  | .storbo => ⟨23, 12, 5⟩
  | .push => ⟨24, 0, 5⟩
  | .pop => ⟨25, 0, 5⟩
  | .halt => ⟨26, 0, 6⟩
  | .exit => ⟨27, 0, 6⟩
  | .print => ⟨28, 0, 6⟩
  | .read => ⟨29, 0, 6⟩
  | .dump => ⟨30, 0, 6⟩
  | .nop => ⟨31, 0, 6⟩

/-- The row of a mnemonic in the table of R84, the first row 0. -/
def Op.row (o : Op) : Fin 58 := ⟨o.ctorIdx, by cases o <;> decide⟩

/-- An opcode assignment as plain data, for the state of a run: the identifier of each row of R84. -/
abbrev OpcodeTable := Vector Ident 58

/-- The table of an opcode map. -/
def OpcodeTable.ofMap (map : OpcodeMap) : OpcodeTable := ⟨(Op.all.map map).toArray, rfl⟩

/-- The opcode map of a table. -/
def OpcodeTable.toMap (table : OpcodeTable) : OpcodeMap := fun o => table[o.row]

/-- The lookup of R87: the mnemonic a full (code, type, group) triple names, none when the map does not
list the triple (R94). The rows of R84 are searched in order, which matters only under a map that gives
one triple to two mnemonics (log 6). -/
def OpcodeMap.lookup (map : OpcodeMap) (id : Ident) : Option Op :=
  Op.all.find? fun o => map o == id

/-- The dispatch group of a mnemonic (R83, R96). -/
def Op.group : Op → Group
  | .addts | .addtu | .addis | .addiu | .subts | .subtu | .subis | .subiu => .arithmetic
  | .lshlt | .lshli | .lshrt | .lshri | .ashrt | .ashri => .shift
  | .andt | .andi | .ort | .ori | .xort | .xori | .nott | .noi => .bitLogic
  | .mults_e | .mulis_e | .multu_e | .muliu_e | .divts_e | .divtu_e => .multDiv
  | .jmp | .jmpeq | .jmpne | .jmpgts | .jmpges | .jmplts | .jmples | .jmpgtu | .jmpgeu
  | .jmpltu | .jmpleu | .cal | .ret => .controlFlow
  | .mov | .load | .loado | .loadb | .loadbo | .stor | .storo | .storb | .storbo | .push
  | .pop => .memory
  | .halt | .exit | .print | .read | .dump | .nop => .misc

/-- The group numbers of R83. -/
def Group.number : Group → BitVec 4
  | .arithmetic => 0 | .shift => 1 | .bitLogic => 2 | .multDiv => 3
  | .controlFlow => 4 | .memory => 5 | .misc => 6

/-- The in-place forms, whose destination is also their first source (R86): the mnemonics whose type has
bit 1 set (R83). -/
def Op.inPlace : Op → Bool
  | .addis | .addiu | .subis | .subiu | .lshli | .lshri | .ashri | .andi | .ori | .xori
  | .noi | .mulis_e | .muliu_e => true
  | .addts | .addtu | .subts | .subtu | .lshlt | .lshrt | .ashrt | .andt | .ort | .xort
  | .nott | .mults_e | .multu_e | .divts_e | .divtu_e | .jmp | .jmpeq | .jmpne | .jmpgts
  | .jmpges | .jmplts | .jmples | .jmpgtu | .jmpgeu | .jmpltu | .jmpleu | .cal | .ret
  | .mov | .load | .loado | .loadb | .loadbo | .stor | .storo | .storb | .storbo | .push
  | .pop | .halt | .exit | .print | .read | .dump | .nop => false

/-! ## Lengths (R82, R84) -/

/-- The bytes an operand takes: 1 for a register, 8 for an immediate (R82). -/
def Operand.length : Operand → Nat
  | .reg _ => 1
  | .imm _ => 8

/-- The bytes a list of operands takes. -/
def operandsLength : List Operand → Nat
  | [] => 0
  | o :: os => o.length + operandsLength os

/-- The encoded length `L` of R82. -/
def Instr.length (i : Instr) : Nat := 4 + operandsLength i.operands

/-- The least and the greatest number of bytes a slot takes. -/
def SlotKind.lengths : SlotKind → Nat × Nat
  | .dest => (1, 1)
  | .addr => (1, 1)
  | .target => (8, 8)
  | .src => (1, 8)

/-- The min length column of R84. -/
def Op.minLength (o : Op) : Nat := 4 + (o.schema.map fun k => k.lengths.1).sum

/-- The max length column of R84. -/
def Op.maxLength (o : Op) : Nat := 4 + (o.schema.map fun k => k.lengths.2).sum

/-! ## The decoder (R87, R88) -/

/-- A decoding step: a value with the bytes that follow it, or the decode fault met. -/
abbrev Decoded (α : Type) := Except FaultKind (α × List Byte)

/-- One decoding step after another, on the bytes the first one leaves. -/
def Decoded.andThen {α β : Type} (x : Decoded α) (f : α → List Byte → Decoded β) : Decoded β :=
  match x with
  | .error k => .error k
  | .ok (a, bs) => f a bs

/-- A register byte: present, and one of the 14 codes (R80, R87). -/
def readRegByte (slot : Nat) : List Byte → Decoded Reg
  | [] => .error .truncated
  | b :: bs =>
    match Reg.ofCode b with
    | some r => .ok (r, bs)
    | none => .error (.invalidRegister slot b)

/-- An immediate: 8 bytes, least significant first (R81, R87). -/
def readImm : List Byte → Decoded Word
  | b0 :: b1 :: b2 :: b3 :: b4 :: b5 :: b6 :: b7 :: bs =>
    .ok (BitVec.ofNat 64 (leNat [b0, b1, b2, b3, b4, b5, b6, b7]), bs)
  | _ => .error .truncated

/-- A slot that must hold a register, `D` or `A`: its kind first, then its byte (R88). -/
def readRegSlot (mode : Byte) (slot : Nat) (bs : List Byte) : Decoded Reg :=
  if modeFlag mode slot then .error (.operandKindMismatch slot mode) else readRegByte slot bs

/-- A slot that must hold an immediate, `T`. -/
def readTargetSlot (mode : Byte) (slot : Nat) (bs : List Byte) : Decoded Word :=
  if modeFlag mode slot then readImm bs else .error (.operandKindMismatch slot mode)

/-- A slot that may hold either, `S`. -/
def readSrcSlot (mode : Byte) (slot : Nat) (bs : List Byte) : Decoded Operand :=
  if modeFlag mode slot then (readImm bs).andThen fun v bs => .ok (.imm v, bs)
  else (readRegByte slot bs).andThen fun r bs => .ok (.reg r, bs)

/-! One reader for each operand shape of R85; the slots are read in slot order. -/

def readNone (i : Instr) (bs : List Byte) : Decoded Instr := .ok (i, bs)

def readD (mk : Reg → Instr) (mode : Byte) (bs : List Byte) : Decoded Instr :=
  (readRegSlot mode 0 bs).andThen fun d bs =>
  .ok (mk d, bs)

def readS (mk : Operand → Instr) (mode : Byte) (bs : List Byte) : Decoded Instr :=
  (readSrcSlot mode 0 bs).andThen fun v bs =>
  .ok (mk v, bs)

def readT (mk : Word → Instr) (mode : Byte) (bs : List Byte) : Decoded Instr :=
  (readTargetSlot mode 0 bs).andThen fun t bs =>
  .ok (mk t, bs)

def readDS (mk : Reg → Operand → Instr) (mode : Byte) (bs : List Byte) : Decoded Instr :=
  (readRegSlot mode 0 bs).andThen fun d bs =>
  (readSrcSlot mode 1 bs).andThen fun v bs =>
  .ok (mk d v, bs)

def readDSS (mk : Reg → Operand → Operand → Instr) (mode : Byte) (bs : List Byte) :
    Decoded Instr :=
  (readRegSlot mode 0 bs).andThen fun d bs =>
  (readSrcSlot mode 1 bs).andThen fun a bs =>
  (readSrcSlot mode 2 bs).andThen fun b bs =>
  .ok (mk d a b, bs)

def readDDSS (mk : Reg → Reg → Operand → Operand → Instr) (mode : Byte) (bs : List Byte) :
    Decoded Instr :=
  (readRegSlot mode 0 bs).andThen fun dq bs =>
  (readRegSlot mode 1 bs).andThen fun dr bs =>
  (readSrcSlot mode 2 bs).andThen fun n bs =>
  (readSrcSlot mode 3 bs).andThen fun m bs =>
  .ok (mk dq dr n m, bs)

def readTSS (mk : Word → Operand → Operand → Instr) (mode : Byte) (bs : List Byte) :
    Decoded Instr :=
  (readTargetSlot mode 0 bs).andThen fun t bs =>
  (readSrcSlot mode 1 bs).andThen fun a bs =>
  (readSrcSlot mode 2 bs).andThen fun b bs =>
  .ok (mk t a b, bs)

def readDA (mk : Reg → Reg → Instr) (mode : Byte) (bs : List Byte) : Decoded Instr :=
  (readRegSlot mode 0 bs).andThen fun d bs =>
  (readRegSlot mode 1 bs).andThen fun base bs =>
  .ok (mk d base, bs)

def readDAS (mk : Reg → Reg → Operand → Instr) (mode : Byte) (bs : List Byte) : Decoded Instr :=
  (readRegSlot mode 0 bs).andThen fun d bs =>
  (readRegSlot mode 1 bs).andThen fun base bs =>
  (readSrcSlot mode 2 bs).andThen fun off bs =>
  .ok (mk d base off, bs)

def readSA (mk : Operand → Reg → Instr) (mode : Byte) (bs : List Byte) : Decoded Instr :=
  (readSrcSlot mode 0 bs).andThen fun v bs =>
  (readRegSlot mode 1 bs).andThen fun base bs =>
  .ok (mk v base, bs)

def readSAS (mk : Operand → Reg → Operand → Instr) (mode : Byte) (bs : List Byte) :
    Decoded Instr :=
  (readSrcSlot mode 0 bs).andThen fun v bs =>
  (readRegSlot mode 1 bs).andThen fun base bs =>
  (readSrcSlot mode 2 bs).andThen fun off bs =>
  .ok (mk v base off, bs)

/-- The operands of an instruction whose mnemonic is known, by the shape of its schema (R85, R87). The
mode bits of slots it does not have are never looked at (R78). -/
def readOperands (mode : Byte) (bs : List Byte) : Op → Decoded Instr
  | .addts => readDSS .addts mode bs
  | .addtu => readDSS .addtu mode bs
  | .addis => readDS .addis mode bs
  | .addiu => readDS .addiu mode bs
  | .subts => readDSS .subts mode bs
  | .subtu => readDSS .subtu mode bs
  | .subis => readDS .subis mode bs
  | .subiu => readDS .subiu mode bs
  | .lshlt => readDSS .lshlt mode bs
  | .lshli => readDS .lshli mode bs
  | .lshrt => readDSS .lshrt mode bs
  | .lshri => readDS .lshri mode bs
  | .ashrt => readDSS .ashrt mode bs
  | .ashri => readDS .ashri mode bs
  | .andt => readDSS .andt mode bs
  | .andi => readDS .andi mode bs
  | .ort => readDSS .ort mode bs
  | .ori => readDS .ori mode bs
  | .xort => readDSS .xort mode bs
  | .xori => readDS .xori mode bs
  | .nott => readDS .nott mode bs
  | .noi => readD .noi mode bs
  | .mults_e => readDSS .mults_e mode bs
  | .mulis_e => readDS .mulis_e mode bs
  | .multu_e => readDSS .multu_e mode bs
  | .muliu_e => readDS .muliu_e mode bs
  | .divts_e => readDDSS .divts_e mode bs
  | .divtu_e => readDDSS .divtu_e mode bs
  | .jmp => readT .jmp mode bs
  | .jmpeq => readTSS .jmpeq mode bs
  | .jmpne => readTSS .jmpne mode bs
  | .jmpgts => readTSS .jmpgts mode bs
  | .jmpges => readTSS .jmpges mode bs
  | .jmplts => readTSS .jmplts mode bs
  | .jmples => readTSS .jmples mode bs
  | .jmpgtu => readTSS .jmpgtu mode bs
  | .jmpgeu => readTSS .jmpgeu mode bs
  | .jmpltu => readTSS .jmpltu mode bs
  | .jmpleu => readTSS .jmpleu mode bs
  | .cal => readT .cal mode bs
  | .ret => readS .ret mode bs
  | .mov => readDS .mov mode bs
  | .load => readDA .load mode bs
  | .loado => readDAS .loado mode bs
  | .loadb => readDA .loadb mode bs
  | .loadbo => readDAS .loadbo mode bs
  | .stor => readSA .stor mode bs
  | .storo => readSAS .storo mode bs
  | .storb => readSA .storb mode bs
  | .storbo => readSAS .storbo mode bs
  | .push => readS .push mode bs
  | .pop => readD .pop mode bs
  | .halt => readNone .halt bs
  | .exit => readS .exit mode bs
  | .print => readS .print mode bs
  | .read => readD .read mode bs
  | .dump => readNone .dump bs
  | .nop => readNone .nop bs

/-- One instruction from the bytes that start with it: identifier, mode byte, operands (R87). -/
def decodeBytesWith (map : OpcodeMap) : List Byte → Decoded Instr
  | b0 :: b1 :: b2 :: mode :: bs =>
    match map.lookup (identDecode b0 b1 b2) with
    | none => .error (.unknownOpcode b0 b1 b2)
    | some o => readOperands mode bs o
  | _ => .error .truncated

/-- `Decode(PROGRAM, p)` of R87 under an opcode map: the instruction at offset `p` and its length, or a
decode fault. -/
def decodeAtWith (map : OpcodeMap) (program : List Byte) (p : Nat) :
    Except FaultKind (Instr × Nat) :=
  if program.length ≤ p then .error .pcOutOfRange
  else
    match decodeBytesWith map (program.drop p) with
    | .error k => .error k
    | .ok (i, rest) => .ok (i, program.length - p - rest.length)

/-- `Decode(PROGRAM, p)` of R87 under the default map of R84. Fetch decodes under the run's own map:
`State.fetch`. -/
def decodeAt (program : List Byte) (p : Nat) : Except FaultKind (Instr × Nat) :=
  decodeAtWith opcodeMap program p

/-! ## The encoder (R90) -/

/-- An operand's bytes: the register code (R79), or the immediate's eight bytes, least significant
first (R81). -/
def Operand.encode : Operand → List Byte
  | .reg r => [r.code]
  | .imm v => leBytes 8 v.toNat

/-- Whether an operand is an immediate: its flag in the mode byte (R90). -/
def Operand.isImm : Operand → Bool
  | .reg _ => false
  | .imm _ => true

/-- `Encode(m, operands)` of R90 under an opcode map: identifier, mode byte, operands. -/
def encodeWith (map : OpcodeMap) (r : RawInstr) : List Byte :=
  identEncode (map r.op) ++ modeEncode (r.operands.map Operand.isImm) ::
    r.operands.flatMap Operand.encode

/-- The bytes of an instruction under the default map of R84. -/
def encode (i : Instr) : List Byte := encodeWith opcodeMap i.toRaw

/-! ## The host's words -/

/-- The bytes of the longest instruction (R89): 28. -/
def maxInstrLength : Nat := 28

/-- An instruction whose low `nbits` bits are those of `w` and whose other bits are 0, as the bytes of
the instruction stream, bit 0 in the first byte. -/
def tableBytes (nbits w : Nat) : List Byte := leBytes maxInstrLength (w % 2 ^ nbits)

/-- The instruction the decoder reads from those bytes, none where it refuses them. -/
def decodeTableWord (nbits w : Nat) : Option Instr :=
  match decodeAt (tableBytes nbits w) 0 with
  | .ok (i, _) => some i
  | .error _ => none

end Sys2Proof
end

