-- ==== Sys2Proof/Machine/State.lean ====
section
/-! DEFINITION. The state of one run (spec/10_state.md), the outcomes that are no next state, and the
state right after reset (R40). -/

namespace Sys2Proof.Machine

/-- A storage cell: its 64-bit pattern (R23), and whether an instruction of the run has written it,
which only `UNINIT_REG_POLICY = fault` looks at (R41). -/
structure RegCell where
  value : Word
  written : Bool
  deriving DecidableEq, Repr

/-- The cells that are neither the program counter nor views of the stack: `$G_0`..`$G_7`, `$R` and
`$E` (R20, R22, R28). -/
structure RegFile where
  g0 : RegCell
  g1 : RegCell
  g2 : RegCell
  g3 : RegCell
  g4 : RegCell
  g5 : RegCell
  g6 : RegCell
  g7 : RegCell
  /-- `$R` -/
  ret : RegCell
  /-- `$E` -/
  err : RegCell
  deriving DecidableEq, Repr

/-- The stack memory, the only data memory (R36, spec/20_memory.md R50). `words` holds the stack words,
the most recently pushed first (log 4). -/
structure Memory where
  /-- `stack.start`, which `$S_B` reads -/
  start : Word
  /-- `stack.end`, which `$S_E` reads -/
  stackEnd : Word
  words : List Word
  /-- the run's `STACK_CAPACITY_WORDS` (spec/00_scope.md R7; log 2) -/
  capacity : Nat
  deriving DecidableEq, Repr

/-- The run status (R37). -/
inductive Status where
  | running
  /-- entered by `halt`, terminal -/
  | halted
  /-- entered by `exit`, terminal; the code is a signed 64-bit integer -/
  | exited (code : Int)
  /-- entered by a fault, terminal -/
  | faulted (kind : FaultKind)
  deriving DecidableEq, Repr

/-- The whole state of one run, with the launch parameters that stay constant while it runs (log 2). -/
structure State where
  regs : RegFile
  /-- the offset of the next instruction in `program`, which `$I` names (R25, R30) -/
  pc : Word
  mem : Memory
  status : Status
  /-- the bytes `read` has not consumed (R38) -/
  input : List Byte
  /-- the bytes `print` has written, the first one first (R38) -/
  output : List Byte
  /-- `PROGRAM`, the instruction space (R30, spec/20_memory.md R50) -/
  program : List Byte
  /-- `OPCODE_MAP` (spec/00_scope.md R7, spec/30_encoding.md R84), which fetch decodes under -/
  opcodes : OpcodeTable
  /-- `UNINIT_REG_POLICY` (R41) -/
  uninitPolicy : UninitPolicy
  deriving DecidableEq, Repr

/-- The outcome of asking a state for a step that it does not have. The faults of the spec are no
outcomes of this type: an instruction that raises one ends in a NEXT state whose status is
`faulted kind` (spec/60_exceptions.md R212; log 1). -/
inductive Fault where
  /-- Raised by `step` only, in a state whose status is not `running`: the run has ended and has no
  further step (spec/70_reset_and_hazards.md R233). Safe: the machine makes no step there either. -/
  | runEnded (status : Status)
  deriving DecidableEq, Repr

/-- Why an instruction has no meaning in the model. -/
inductive Refusal where
  /-- Raised by an arm of `exec` whose instruction has no meaning yet; no arm does. Safe: nothing is
  claimed of such an instruction. -/
  | notModelled (mnemonic : String)
  deriving DecidableEq, Repr

/-- A cell at reset: 0, not written (R40, R41). -/
def RegCell.reset : RegCell := ⟨0, false⟩

/-- The register file at reset (R40). -/
def RegFile.reset : RegFile :=
  ⟨.reset, .reset, .reset, .reset, .reset, .reset, .reset, .reset, .reset, .reset⟩

/-- The empty stack at a base address (R40). -/
def Memory.reset (stackBase : Word) (capacity : Nat) : Memory :=
  ⟨stackBase, stackBase, [], capacity⟩

/-- The state a run starts in, from what the host supplies at launch and the other parameters of
spec/00_scope.md R7 (R40, spec/60_exceptions.md R224). -/
def State.launch (program input : List Byte) (stackBase : Word) (capacity : Nat) (map : OpcodeMap)
    (policy : UninitPolicy) : State :=
  { regs := .reset
    pc := 0
    mem := .reset stackBase capacity
    status := .running
    input := input
    output := []
    program := program
    opcodes := .ofMap map
    uninitPolicy := policy }

/-- The state right after reset: the launch state under the default parameters of R7, with the default
INPUT, which is empty (92_eei_decisions.md D37), and with no program (log 3). -/
def State.reset : State :=
  .launch [] [] Config.stackBase Config.stackCapacityWords opcodeMap Config.uninitRegPolicy

end Sys2Proof.Machine
end

