-- ==== Sys2Proof/Machine/Ops.lean ====
section
/-! DEFINITION. The named operations every meaning is written over: registers (spec/10_state.md), stack
memory (spec/20_memory.md R51 to R59), taking a fault (spec/60_exceptions.md R212) and running one
instruction with the common faults in the order of R213. -/

namespace Sys2Proof.Machine

/-! ## Registers -/

/-- The storage cell behind a register: none for `$S_B`, `$S_E`, `$I` and `$Z` (R20, R24, R25, R27). -/
def RegFile.cell (f : RegFile) : Reg → Option RegCell
  | .g0 => some f.g0
  | .g1 => some f.g1
  | .g2 => some f.g2
  | .g3 => some f.g3
  | .g4 => some f.g4
  | .g5 => some f.g5
  | .g6 => some f.g6
  | .g7 => some f.g7
  | .ret => some f.ret
  | .error => some f.err
  | .stackBase => none
  | .stackEnd => none
  | .instruction => none
  | .zero => none

/-- Storing a pattern in the cell behind a register, which is then written (R23, R41); nothing where
there is no cell. -/
def RegFile.store (f : RegFile) (r : Reg) (v : Word) : RegFile :=
  match r with
  | .g0 => { f with g0 := ⟨v, true⟩ }
  | .g1 => { f with g1 := ⟨v, true⟩ }
  | .g2 => { f with g2 := ⟨v, true⟩ }
  | .g3 => { f with g3 := ⟨v, true⟩ }
  | .g4 => { f with g4 := ⟨v, true⟩ }
  | .g5 => { f with g5 := ⟨v, true⟩ }
  | .g6 => { f with g6 := ⟨v, true⟩ }
  | .g7 => { f with g7 := ⟨v, true⟩ }
  | .ret => { f with ret := ⟨v, true⟩ }
  | .error => { f with err := ⟨v, true⟩ }
  | .stackBase => f
  | .stackEnd => f
  | .instruction => f
  | .zero => f

/-- `x[r]` of R10: the cell's value; `$Z` reads 0 (R24), `$S_B` and `$S_E` are views of the stack
(R27), `$I` is the program counter, which fetch has advanced before an operand is read (R25). -/
def State.readReg (s : State) (r : Reg) : Word :=
  match s.regs.cell r, r with
  | some c, _ => c.value
  | none, .stackBase => s.mem.start
  | none, .stackEnd => s.mem.stackEnd
  | none, .instruction => s.pc
  | none, _ => 0

/-- `x[r] <- v` of R10: a write to `$Z` is discarded (R24), a write to `$I` is a jump (R26). No write to
`$S_B` or `$S_E` gets here: `commonFault` raises `ReadOnlyRegister` before (R27). -/
def State.writeReg (s : State) (r : Reg) (v : Word) : State :=
  match r with
  | .instruction => { s with pc := v }
  | _ => { s with regs := s.regs.store r v }

/-- Whether reading the register yields a value some instruction wrote, or a value that is always
defined: `$Z`, `$I`, `$S_B`, `$S_E` (R41). -/
def State.defined (s : State) (r : Reg) : Bool :=
  match s.regs.cell r with
  | some c => c.written
  | none => true

/-! ## Stack memory -/

/-- Byte `j` of a word, byte 0 the least significant (R52, R53). -/
def wordByte (w : Word) (j : Nat) : Byte := w.extractLsb' (8 * j) 8

/-- A word with byte `j` replaced and the other 56 bits unchanged (R56). -/
def setWordByte (w : Word) (j : Nat) (v : Byte) : Word :=
  (w &&& ~~~(0xFF#64 <<< (8 * j))) ||| (v.setWidth 64 <<< (8 * j))

/-- A data address in the occupied region `[end, start)`, unsigned (R51). -/
def Memory.contains (m : Memory) (a : Word) : Bool :=
  m.stackEnd.toNat ≤ a.toNat && a.toNat < m.start.toNat

/-- The word index of a contained address (R53). -/
def Memory.wordIndex (m : Memory) (a : Word) : Nat := (a.toNat - m.stackEnd.toNat) / 8

/-- The byte offset of a contained address (R53). -/
def Memory.byteOffset (m : Memory) (a : Word) : Nat := (a.toNat - m.stackEnd.toNat) % 8

/-- The word a contained address lies in. A contained address without a word exists only in states
that break the invariant of R36; the access is out of bounds there too (log 5). -/
def Memory.wordAt (m : Memory) (a : Word) : Except FaultKind Word :=
  if m.contains a then
    match m.words[m.wordIndex a]? with
    | some w => .ok w
    | none => .error (.memoryOutOfBounds a)
  else .error (.memoryOutOfBounds a)

/-- The stack with the word at an index replaced. -/
def Memory.setWord (m : Memory) (k : Nat) (w : Word) : Memory := { m with words := m.words.set k w }

/-- `MemReadByte(a)` of R54. -/
def Memory.readByte (m : Memory) (a : Word) : Except FaultKind Byte :=
  match m.wordAt a with
  | .error k => .error k
  | .ok w => .ok (wordByte w (m.byteOffset a))

/-- `MemReadWord(a)` of R55: contained first, then aligned. -/
def Memory.readWord (m : Memory) (a : Word) : Except FaultKind Word :=
  match m.wordAt a with
  | .error k => .error k
  | .ok w => if m.byteOffset a = 0 then .ok w else .error (.misalignedWordAccess a)

/-- `MemWriteByte(a, v)` of R56. -/
def Memory.writeByte (m : Memory) (a : Word) (v : Byte) : Except FaultKind Memory :=
  match m.wordAt a with
  | .error k => .error k
  | .ok w => .ok (m.setWord (m.wordIndex a) (setWordByte w (m.byteOffset a) v))

/-- `MemWriteWord(a, v)` of R57: contained first, then aligned. -/
def Memory.writeWord (m : Memory) (a : Word) (v : Word) : Except FaultKind Memory :=
  match m.wordAt a with
  | .error k => .error k
  | .ok _ =>
    if m.byteOffset a = 0 then .ok (m.setWord (m.wordIndex a) v)
    else .error (.misalignedWordAccess a)

/-- `Push(v)` of R58. -/
def Memory.push (m : Memory) (v : Word) : Except FaultKind Memory :=
  if m.words.length = m.capacity then .error .sizeLimitReached
  else .ok { m with words := v :: m.words, stackEnd := m.stackEnd - 8 }

/-- `Pop()` of R59: the popped word and the stack without it. -/
def Memory.pop (m : Memory) : Except FaultKind (Word × Memory) :=
  match m.words with
  | [] => .error .stackUnderflow
  | w :: ws => .ok (w, { m with words := ws, stackEnd := m.stackEnd + 8 })

/-- The occupied region as bytes with their addresses, addresses rising: the data memory in the form
of `Host.Cell` (R53). -/
def Memory.cells (m : Memory) : List Host.Cell :=
  (List.range (8 * m.words.length)).map fun n =>
    (m.stackEnd.toNat + n, wordByte (m.words.getD (n / 8) 0) (n % 8))

/-- The stack invariants of R36 with the constraint of spec/00_scope.md R7. -/
abbrev Memory.wf (m : Memory) : Prop :=
  m.stackEnd.toNat + 8 * m.words.length = m.start.toNat ∧
    m.words.length ≤ m.capacity ∧ 8 * m.capacity ≤ m.start.toNat

/-! ## Taking a fault

There is no return from a fault: the core has no trap-return instruction (spec/60_exceptions.md R215). -/

/-- Taking a fault (R212): nothing changes but the status; the `pc` stays at the faulting instruction
and `$E` is not written. -/
def State.takeFault (s : State) (k : FaultKind) : State := { s with status := .faulted k }

/-! ## The common faults of R213 -/

/-- The operands of an instruction with the kinds of their slots. -/
def operandSlots (i : Instr) : List (SlotKind × Operand) := i.op.schema.zip i.operands

/-- The lowest `D` slot, counted from `slot`, that names `$S_B` or `$S_E` (R27, R213 item 3). -/
def readOnlySlot (slot : Nat) : List (SlotKind × Operand) → Option Nat
  | [] => none
  | (.dest, .reg .stackBase) :: _ => some slot
  | (.dest, .reg .stackEnd) :: _ => some slot
  | _ :: rest => readOnlySlot (slot + 1) rest

/-- The register a slot reads: that of an `S` or `A` slot, and that of the `D` slot of an in-place form
(R86, R213 item 4). -/
def slotRead (inPlace : Bool) : SlotKind × Operand → Option Reg
  | (.src, .reg r) => some r
  | (.addr, .reg r) => some r
  | (.dest, .reg r) => if inPlace then some r else none
  | _ => none

/-- The registers an instruction reads through its slots, in slot order. -/
def readRegs (i : Instr) : List Reg := (operandSlots i).filterMap (slotRead i.op.inPlace)

/-- The first register an instruction reads that no instruction has written, under
`UNINIT_REG_POLICY = fault` (R41, R213 item 4). -/
def uninitRead (i : Instr) (s : State) : Option Reg :=
  match s.uninitPolicy with
  | .zero => none
  | .fault => (readRegs i).find? fun r => !s.defined r

/-- The fault an instruction raises before its own effect: `PcOverflow` (R32), then
`ReadOnlyRegister`, then `UninitializedRead` (R213 items 2 to 4). -/
def commonFault (i : Instr) (s : State) : Option FaultKind :=
  if 2 ^ 64 ≤ s.pc.toNat + i.length then some .pcOverflow
  else
    match readOnlySlot 0 (operandSlots i) with
    | some slot => some (.readOnlyRegister slot)
    | none =>
      match uninitRead i s with
      | some r => some (.uninitializedRead r)
      | none => none

/-! ## Fetching and running one instruction -/

/-- Fetch: `Decode` at the `pc` of the run's program under the run's `OPCODE_MAP` (spec/10_state.md R34,
spec/30_encoding.md R87, spec/00_scope.md R7). -/
def State.fetch (s : State) : Except FaultKind (Instr × Nat) :=
  decodeAtWith s.opcodes.toMap s.program s.pc.toNat

/-- The state whose `pc` is the address after the instruction, `npc` of R31. -/
def State.advance (s : State) (length : Nat) : State :=
  { s with pc := BitVec.ofNat 64 (s.pc.toNat + length) }

/-- One instruction (spec/70_reset_and_hazards.md R233): the common faults, then its effect on the state
whose `pc` fetch has advanced to `npc`. A fault of either leaves the state before the instruction with
its status changed (R212); otherwise every write of the effect is committed. -/
def execute (i : Instr) (s : State) (effect : State → Except FaultKind State) :
    Host.Outcome State Fault Refusal :=
  match commonFault i s with
  | some k => .next (s.takeFault k)
  | none =>
    match effect (s.advance i.length) with
    | .error k => .next (s.takeFault k)
    | .ok t => .next t

end Sys2Proof.Machine
end

