-- ==== Sys2Proof/Machine/Operands.lean ====
section
/-! DEFINITION. Operand values, effective addresses and the arithmetic of the instruction families
(spec/40_arithmetic.md, 41_shift.md, 42_bitlogic.md, 43_muldiv.md, 45_memory_ops.md). Integers are exact
and narrowed by `wrap` at the end. -/

namespace Sys2Proof.Machine

/-- `op[i]` of spec/00_scope.md R10: a register's value or an immediate's pattern. -/
def State.value (s : State) : Operand → Word
  | .reg r => s.readReg r
  | .imm v => v

/-- The address of an offset access: the base plus the offset, modulo `2^64` (R180). -/
def offsetAddress (base off : Word) : Word := wrap (base.u + off.u)

/-! ## Add and subtract (R120) -/

def addSigned (a b : Word) : Word := wrap (a.s + b.s)

def addUnsigned (a b : Word) : Word := wrap (a.u + b.u)

def subSigned (a b : Word) : Word := wrap (a.s - b.s)

def subUnsigned (a b : Word) : Word := wrap (a.u - b.u)

/-! ## Shifts (R130) -/

/-- The shift amount `u(b) mod 64` (R130). -/
def shiftAmount (b : Word) : Nat := b.toNat % 64

/-- `w(u(a) * 2^sh)` (R131). -/
def shiftLeft (a b : Word) : Word := wrap (a.u * 2 ^ shiftAmount b)

/-- `u(a) div 2^sh` (R133). -/
def shiftRightLogical (a b : Word) : Word := wrap (a.u / 2 ^ shiftAmount b)

/-- `w(floor(s(a) / 2^sh))` (R135). -/
def shiftRightArith (a b : Word) : Word := wrap (a.s.fdiv (2 ^ shiftAmount b))

/-! ## Multiply and divide (R150, R151) -/

/-- The low 64 bits of the signed product (R150). -/
def mulSigned (a b : Word) : Word := wrap (a.s * b.s)

/-- The low 64 bits of the unsigned product (R150). -/
def mulUnsigned (a b : Word) : Word := wrap (a.u * b.u)

/-- The signed quotient, rounded toward zero, and the remainder `x - q*y` (R151, R156). -/
def divSigned (n m : Word) : Except FaultKind (Word × Word) :=
  if m.s = 0 then .error .divideByZero
  else if n.s = -2 ^ 63 ∧ m.s = -1 then .error .divideOverflow
  else .ok (wrap (n.s.tdiv m.s), wrap (n.s - n.s.tdiv m.s * m.s))

/-- The unsigned quotient and remainder (R151, R157). -/
def divUnsigned (n m : Word) : Except FaultKind (Word × Word) :=
  if m.u = 0 then .error .divideByZero
  else .ok (wrap (n.u / m.u), wrap (n.u % m.u))

/-! ## Bytes -/

/-- The low byte of a word, bits 7 to 0 (R188, R202). -/
def lowByte (v : Word) : Byte := v.setWidth 8

/-- `zext_8` of R9: a byte extended to 64 bits by zeros (R184, R203). -/
def zeroExtend (b : Byte) : Word := b.setWidth 64

/-! ## Shared effects -/

/-- Writing a quotient and then a remainder, in this order (R156, R157). -/
def State.writeDivision (s : State) (dq dr : Reg) (qr : Word × Word) : State :=
  (s.writeReg dq qr.1).writeReg dr qr.2

/-- The state with another stack. -/
def State.withMem (s : State) (m : Memory) : State := { s with mem := m }

/-- The state whose next instruction is at an address: a taken control transfer (R160). -/
def State.jumpTo (s : State) (target : Word) : State := { s with pc := target }

end Sys2Proof.Machine
end

