-- ==== Sys2Proof/Machine/Arithmetic.lean ====
section
/-! DEFINITION. Group 0: add and subtract (spec/40_arithmetic.md). They wrap modulo `2^64` and never fault (R120). Operand values are read on
the state `t` that fetch has advanced to `npc`, before any write (spec/00_scope.md R11). -/

namespace Sys2Proof.Machine

/-- `addts` (R121): `x[d] <- w(s(a) + s(b))`. -/
def execAddts (d : Reg) (a b : Operand) (s : State) : Host.Outcome State Fault Refusal :=
  execute (.addts d a b) s fun t => .ok (t.writeReg d (addSigned (t.value a) (t.value b)))

/-- `addtu` (R122): `x[d] <- w(u(a) + u(b))`. -/
def execAddtu (d : Reg) (a b : Operand) (s : State) : Host.Outcome State Fault Refusal :=
  execute (.addtu d a b) s fun t => .ok (t.writeReg d (addUnsigned (t.value a) (t.value b)))

/-- `addis` (R123): `x[d] <- w(s(x[d]) + s(b))`. -/
def execAddis (d : Reg) (b : Operand) (s : State) : Host.Outcome State Fault Refusal :=
  execute (.addis d b) s fun t => .ok (t.writeReg d (addSigned (t.readReg d) (t.value b)))

/-- `addiu` (R124): `x[d] <- w(u(x[d]) + u(b))`. -/
def execAddiu (d : Reg) (b : Operand) (s : State) : Host.Outcome State Fault Refusal :=
  execute (.addiu d b) s fun t => .ok (t.writeReg d (addUnsigned (t.readReg d) (t.value b)))

/-- `subts` (R125): `x[d] <- w(s(a) - s(b))`. -/
def execSubts (d : Reg) (a b : Operand) (s : State) : Host.Outcome State Fault Refusal :=
  execute (.subts d a b) s fun t => .ok (t.writeReg d (subSigned (t.value a) (t.value b)))

/-- `subtu` (R126): `x[d] <- w(u(a) - u(b))`. -/
def execSubtu (d : Reg) (a b : Operand) (s : State) : Host.Outcome State Fault Refusal :=
  execute (.subtu d a b) s fun t => .ok (t.writeReg d (subUnsigned (t.value a) (t.value b)))

/-- `subis` (R127): `x[d] <- w(s(x[d]) - s(b))`. -/
def execSubis (d : Reg) (b : Operand) (s : State) : Host.Outcome State Fault Refusal :=
  execute (.subis d b) s fun t => .ok (t.writeReg d (subSigned (t.readReg d) (t.value b)))

/-- `subiu` (R128): `x[d] <- w(u(x[d]) - u(b))`. -/
def execSubiu (d : Reg) (b : Operand) (s : State) : Host.Outcome State Fault Refusal :=
  execute (.subiu d b) s fun t => .ok (t.writeReg d (subUnsigned (t.readReg d) (t.value b)))

end Sys2Proof.Machine
end

