-- ==== Sys2Proof/Machine/BitLogic.lean ====
section
/-! DEFINITION. Group 2: bit logic (spec/42_bitlogic.md R140). Operand values are read on
the state `t` that fetch has advanced to `npc`, before any write (spec/00_scope.md R11). -/

namespace Sys2Proof.Machine

/-- `andt` (R141): `x[d] <- a AND b`. -/
def execAndt (d : Reg) (a b : Operand) (s : State) : Host.Outcome State Fault Refusal :=
  execute (.andt d a b) s fun t => .ok (t.writeReg d (t.value a &&& t.value b))

/-- `andi` (R142): `x[d] <- x[d] AND b`. -/
def execAndi (d : Reg) (b : Operand) (s : State) : Host.Outcome State Fault Refusal :=
  execute (.andi d b) s fun t => .ok (t.writeReg d (t.readReg d &&& t.value b))

/-- `ort` (R143): `x[d] <- a OR b`. -/
def execOrt (d : Reg) (a b : Operand) (s : State) : Host.Outcome State Fault Refusal :=
  execute (.ort d a b) s fun t => .ok (t.writeReg d (t.value a ||| t.value b))

/-- `ori` (R144): `x[d] <- x[d] OR b`. -/
def execOri (d : Reg) (b : Operand) (s : State) : Host.Outcome State Fault Refusal :=
  execute (.ori d b) s fun t => .ok (t.writeReg d (t.readReg d ||| t.value b))

/-- `xort` (R145): `x[d] <- a XOR b`. -/
def execXort (d : Reg) (a b : Operand) (s : State) : Host.Outcome State Fault Refusal :=
  execute (.xort d a b) s fun t => .ok (t.writeReg d (t.value a ^^^ t.value b))

/-- `xori` (R146): `x[d] <- x[d] XOR b`. -/
def execXori (d : Reg) (b : Operand) (s : State) : Host.Outcome State Fault Refusal :=
  execute (.xori d b) s fun t => .ok (t.writeReg d (t.readReg d ^^^ t.value b))

/-- `nott` (R147): `x[d] <- NOT a`. -/
def execNott (d : Reg) (a : Operand) (s : State) : Host.Outcome State Fault Refusal :=
  execute (.nott d a) s fun t => .ok (t.writeReg d (~~~t.value a))

/-- `noi` (R148): `x[d] <- NOT x[d]`. -/
def execNoi (d : Reg) (s : State) : Host.Outcome State Fault Refusal :=
  execute (.noi d) s fun t => .ok (t.writeReg d (~~~t.readReg d))

end Sys2Proof.Machine
end

