-- ==== Sys2Proof/Machine/Flags.lean ====
section
/-! DEFINITION. The core has no flags (spec/10_state.md R35). In their place: the comparisons that
conditional jumps make on two operand values (spec/44_control.md R161). -/

namespace Sys2Proof.Machine

/-- The relations of the conditional jumps. -/
inductive Relation where
  | eq | ne
  | gts | ges | lts | les
  | gtu | geu | ltu | leu
  deriving DecidableEq, Repr

/-- Whether `a REL b` holds: patterns for `eq` and `ne`, `s(...)` for the signed relations, `u(...)` for
the unsigned ones (R161; spec/90_conflicts.md C4). -/
def Relation.holds (rel : Relation) (a b : Word) : Bool :=
  match rel with
  | .eq => a = b
  | .ne => a ≠ b
  | .gts => a.s > b.s
  | .ges => a.s ≥ b.s
  | .lts => a.s < b.s
  | .les => a.s ≤ b.s
  | .gtu => a.u > b.u
  | .geu => a.u ≥ b.u
  | .ltu => a.u < b.u
  | .leu => a.u ≤ b.u

/-- A conditional transfer: to the target if the relation holds, else on to `npc`, which the state's
`pc` already is (R161). -/
def State.jumpIf (s : State) (rel : Relation) (target a b : Word) : State :=
  if rel.holds a b then s.jumpTo target else s

end Sys2Proof.Machine
end

