-- ==== Sys2Proof/Machine/Control.lean ====
section
/-! DEFINITION. Group 4: control flow (spec/44_control.md R160, R161). Operand values are read on
the state `t` that fetch has advanced to `npc`, before any write (spec/00_scope.md R11). -/

namespace Sys2Proof.Machine

/-- `jmp` (R162): `pc <- target`. -/
def execJmp (target : Word) (s : State) : Host.Outcome State Fault Refusal :=
  execute (.jmp target) s fun t => .ok (t.jumpTo target)

/-- `jmpeq` (R163): `pc <- target` if `a = b`, else `pc <- npc`. -/
def execJmpeq (target : Word) (a b : Operand) (s : State) : Host.Outcome State Fault Refusal :=
  execute (.jmpeq target a b) s fun t => .ok (t.jumpIf .eq target (t.value a) (t.value b))

/-- `jmpne` (R164): `pc <- target` if `a != b`, else `pc <- npc`. -/
def execJmpne (target : Word) (a b : Operand) (s : State) : Host.Outcome State Fault Refusal :=
  execute (.jmpne target a b) s fun t => .ok (t.jumpIf .ne target (t.value a) (t.value b))

/-- `jmpgts` (R165): `pc <- target` if `s(a) > s(b)`, else `pc <- npc`. -/
def execJmpgts (target : Word) (a b : Operand) (s : State) : Host.Outcome State Fault Refusal :=
  execute (.jmpgts target a b) s fun t => .ok (t.jumpIf .gts target (t.value a) (t.value b))

/-- `jmpges` (R166): `pc <- target` if `s(a) >= s(b)`, else `pc <- npc`. -/
def execJmpges (target : Word) (a b : Operand) (s : State) : Host.Outcome State Fault Refusal :=
  execute (.jmpges target a b) s fun t => .ok (t.jumpIf .ges target (t.value a) (t.value b))

/-- `jmplts` (R167): `pc <- target` if `s(a) < s(b)`, else `pc <- npc`. -/
def execJmplts (target : Word) (a b : Operand) (s : State) : Host.Outcome State Fault Refusal :=
  execute (.jmplts target a b) s fun t => .ok (t.jumpIf .lts target (t.value a) (t.value b))

/-- `jmples` (R168): `pc <- target` if `s(a) <= s(b)`, else `pc <- npc`. -/
def execJmples (target : Word) (a b : Operand) (s : State) : Host.Outcome State Fault Refusal :=
  execute (.jmples target a b) s fun t => .ok (t.jumpIf .les target (t.value a) (t.value b))

/-- `jmpgtu` (R169): `pc <- target` if `u(a) > u(b)`, else `pc <- npc`. -/
def execJmpgtu (target : Word) (a b : Operand) (s : State) : Host.Outcome State Fault Refusal :=
  execute (.jmpgtu target a b) s fun t => .ok (t.jumpIf .gtu target (t.value a) (t.value b))

/-- `jmpgeu` (R170): `pc <- target` if `u(a) >= u(b)`, else `pc <- npc`. -/
def execJmpgeu (target : Word) (a b : Operand) (s : State) : Host.Outcome State Fault Refusal :=
  execute (.jmpgeu target a b) s fun t => .ok (t.jumpIf .geu target (t.value a) (t.value b))

/-- `jmpltu` (R171): `pc <- target` if `u(a) < u(b)`, else `pc <- npc`. -/
def execJmpltu (target : Word) (a b : Operand) (s : State) : Host.Outcome State Fault Refusal :=
  execute (.jmpltu target a b) s fun t => .ok (t.jumpIf .ltu target (t.value a) (t.value b))

/-- `jmpleu` (R172): `pc <- target` if `u(a) <= u(b)`, else `pc <- npc`. -/
def execJmpleu (target : Word) (a b : Operand) (s : State) : Host.Outcome State Fault Refusal :=
  execute (.jmpleu target a b) s fun t => .ok (t.jumpIf .leu target (t.value a) (t.value b))

/-- `cal` (R173): `Push(npc)`, then `pc <- target`. -/
def execCal (target : Word) (s : State) : Host.Outcome State Fault Refusal :=
  execute (.cal target) s fun t => (t.mem.push t.pc).map fun mem => (t.withMem mem).jumpTo target

/-- `ret` (R174): the operand to `$R`, then on to the popped address; the operand is read before the pop. -/
def execRet (v : Operand) (s : State) : Host.Outcome State Fault Refusal :=
  execute (.ret v) s fun t =>
    t.mem.pop.map fun (ra, mem) => ((t.withMem mem).writeReg .ret (t.value v)).jumpTo ra

end Sys2Proof.Machine
end

