-- ==== Sys2Proof/Machine/MemoryOps.lean ====
section
/-! DEFINITION. Group 5: move, load, store, push and pop (spec/45_memory_ops.md R180). Operand values are read on
the state `t` that fetch has advanced to `npc`, before any write (spec/00_scope.md R11). -/

namespace Sys2Proof.Machine

/-- `mov` (R181): `x[d] <- v`. -/
def execMov (d : Reg) (v : Operand) (s : State) : Host.Outcome State Fault Refusal :=
  execute (.mov d v) s fun t => .ok (t.writeReg d (t.value v))

/-- `load` (R182): `x[d] <- MemReadWord(x[base])`. -/
def execLoad (d base : Reg) (s : State) : Host.Outcome State Fault Refusal :=
  execute (.load d base) s fun t => (t.mem.readWord (t.readReg base)).map fun w => t.writeReg d w

/-- `loado` (R183): `x[d] <- MemReadWord(w(u(x[base]) + u(off)))`. -/
def execLoado (d base : Reg) (off : Operand) (s : State) : Host.Outcome State Fault Refusal :=
  execute (.loado d base off) s fun t =>
    (t.mem.readWord (offsetAddress (t.readReg base) (t.value off))).map fun w =>
      t.writeReg d w

/-- `loadb` (R184): `x[d] <- zext_8(MemReadByte(x[base]))`. -/
def execLoadb (d base : Reg) (s : State) : Host.Outcome State Fault Refusal :=
  execute (.loadb d base) s fun t =>
    (t.mem.readByte (t.readReg base)).map fun b => t.writeReg d (zeroExtend b)

/-- `loadbo` (R185): `x[d] <- zext_8(MemReadByte(w(u(x[base]) + u(off))))`. -/
def execLoadbo (d base : Reg) (off : Operand) (s : State) : Host.Outcome State Fault Refusal :=
  execute (.loadbo d base off) s fun t =>
    (t.mem.readByte (offsetAddress (t.readReg base) (t.value off))).map fun b =>
      t.writeReg d (zeroExtend b)

/-- `stor` (R186): `MemWriteWord(x[base], v)`. -/
def execStor (v : Operand) (base : Reg) (s : State) : Host.Outcome State Fault Refusal :=
  execute (.stor v base) s fun t =>
    (t.mem.writeWord (t.readReg base) (t.value v)).map fun mem => t.withMem mem

/-- `storo` (R187): `MemWriteWord(w(u(x[base]) + u(off)), v)`. -/
def execStoro (v : Operand) (base : Reg) (off : Operand) (s : State) :
    Host.Outcome State Fault Refusal :=
  execute (.storo v base off) s fun t =>
    (t.mem.writeWord (offsetAddress (t.readReg base) (t.value off)) (t.value v)).map fun mem =>
      t.withMem mem

/-- `storb` (R188): `MemWriteByte(x[base], v[7:0])`. -/
def execStorb (v : Operand) (base : Reg) (s : State) : Host.Outcome State Fault Refusal :=
  execute (.storb v base) s fun t =>
    (t.mem.writeByte (t.readReg base) (lowByte (t.value v))).map fun mem => t.withMem mem

/-- `storbo` (R189): `MemWriteByte(w(u(x[base]) + u(off)), v[7:0])`. -/
def execStorbo (v : Operand) (base : Reg) (off : Operand) (s : State) :
    Host.Outcome State Fault Refusal :=
  execute (.storbo v base off) s fun t =>
    (t.mem.writeByte (offsetAddress (t.readReg base) (t.value off)) (lowByte (t.value v))).map
      fun mem => t.withMem mem

/-- `push` (R190): `Push(v)`. -/
def execPush (v : Operand) (s : State) : Host.Outcome State Fault Refusal :=
  execute (.push v) s fun t => (t.mem.push (t.value v)).map fun mem => t.withMem mem

/-- `pop` (R191): `x[d] <- Pop()`. -/
def execPop (d : Reg) (s : State) : Host.Outcome State Fault Refusal :=
  execute (.pop d) s fun t => t.mem.pop.map fun (w, mem) => (t.withMem mem).writeReg d w

end Sys2Proof.Machine
end

