-- ==== Sys2Proof/Machine/Misc.lean ====
section
/-! DEFINITION. Group 6: halt, exit, print, read, dump and nop (spec/46_misc.md). Operand values are read on
the state `t` that fetch has advanced to `npc`, before any write (spec/00_scope.md R11). -/

namespace Sys2Proof.Machine

/-- The run ends in a terminal status; the `pc` stays at the instruction that ends it (R200, R201). -/
def State.terminate (s : State) (st : Status) : State := { s with status := st }

/-- A byte appended to the output stream (R202). -/
def State.emit (s : State) (b : Byte) : State := { s with output := s.output ++ [b] }

/-- The next input byte and the state without it; `InputExhausted` at the end of input (R203). -/
def State.takeInput (s : State) : Except FaultKind (Byte × State) :=
  match s.input with
  | [] => .error .inputExhausted
  | b :: bs => .ok (b, { s with input := bs })

/-- `halt` (R200): `status <- Halted`; `pc` stays at the `halt`. -/
def execHalt (s : State) : Host.Outcome State Fault Refusal :=
  execute .halt s fun _ => .ok (s.terminate .halted)

/-- `exit` (R201): `status <- Exited(s(v))`; `pc` stays at the `exit`. -/
def execExit (v : Operand) (s : State) : Host.Outcome State Fault Refusal :=
  execute (.exit v) s fun t => .ok (s.terminate (.exited (t.value v).s))

/-- `print` (R202): `output <- output ++ [v[7:0]]`. -/
def execPrint (v : Operand) (s : State) : Host.Outcome State Fault Refusal :=
  execute (.print v) s fun t => .ok (t.emit (lowByte (t.value v)))

/-- `read` (R203): the next input byte, zero-extended, to `d`; `InputExhausted` when none is left. -/
def execRead (d : Reg) (s : State) : Host.Outcome State Fault Refusal :=
  execute (.read d) s fun t => t.takeInput.map fun (b, u) => u.writeReg d (zeroExtend b)

/-- `dump` (R204): `raise Unimplemented`, always. -/
def execDump (s : State) : Host.Outcome State Fault Refusal :=
  execute .dump s fun _ => .error .unimplemented

/-- `nop` (R205): `pc <- npc`, nothing else. -/
def execNop (s : State) : Host.Outcome State Fault Refusal :=
  execute .nop s fun t => .ok t

end Sys2Proof.Machine
end

