-- ==== Sys2Proof/Machine/MulDiv.lean ====
section
/-! DEFINITION. Group 3: multiply and divide (spec/43_muldiv.md R150, R151). Operand values are read on
the state `t` that fetch has advanced to `npc`, before any write (spec/00_scope.md R11). -/

namespace Sys2Proof.Machine

/-- `mults_e` (R152): `x[d] <- w(s(a) * s(b))`. -/
def execMults_e (d : Reg) (a b : Operand) (s : State) : Host.Outcome State Fault Refusal :=
  execute (.mults_e d a b) s fun t => .ok (t.writeReg d (mulSigned (t.value a) (t.value b)))

/-- `mulis_e` (R154): `x[d] <- w(s(x[d]) * s(b))`. -/
def execMulis_e (d : Reg) (b : Operand) (s : State) : Host.Outcome State Fault Refusal :=
  execute (.mulis_e d b) s fun t => .ok (t.writeReg d (mulSigned (t.readReg d) (t.value b)))

/-- `multu_e` (R153): `x[d] <- w(u(a) * u(b))`. -/
def execMultu_e (d : Reg) (a b : Operand) (s : State) : Host.Outcome State Fault Refusal :=
  execute (.multu_e d a b) s fun t => .ok (t.writeReg d (mulUnsigned (t.value a) (t.value b)))

/-- `muliu_e` (R155): `x[d] <- w(u(x[d]) * u(b))`. -/
def execMuliu_e (d : Reg) (b : Operand) (s : State) : Host.Outcome State Fault Refusal :=
  execute (.muliu_e d b) s fun t => .ok (t.writeReg d (mulUnsigned (t.readReg d) (t.value b)))

/-- `divts_e` (R156): signed quotient to `dq`, then remainder to `dr`. -/
def execDivts_e (dq dr : Reg) (n m : Operand) (s : State) : Host.Outcome State Fault Refusal :=
  execute (.divts_e dq dr n m) s fun t =>
    (divSigned (t.value n) (t.value m)).map fun qr => t.writeDivision dq dr qr

/-- `divtu_e` (R157): unsigned quotient to `dq`, then remainder to `dr`. -/
def execDivtu_e (dq dr : Reg) (n m : Operand) (s : State) : Host.Outcome State Fault Refusal :=
  execute (.divtu_e dq dr n m) s fun t =>
    (divUnsigned (t.value n) (t.value m)).map fun qr => t.writeDivision dq dr qr

end Sys2Proof.Machine
end

