-- ==== Sys2Proof/Machine/Shift.lean ====
section
/-! DEFINITION. Group 1: shifts (spec/41_shift.md). The amount is masked modulo 64 (R130). Operand values are read on
the state `t` that fetch has advanced to `npc`, before any write (spec/00_scope.md R11). -/

namespace Sys2Proof.Machine

/-- `lshlt` (R131): logical shift left. -/
def execLshlt (d : Reg) (a b : Operand) (s : State) : Host.Outcome State Fault Refusal :=
  execute (.lshlt d a b) s fun t => .ok (t.writeReg d (shiftLeft (t.value a) (t.value b)))

/-- `lshli` (R132): logical shift left in place. -/
def execLshli (d : Reg) (b : Operand) (s : State) : Host.Outcome State Fault Refusal :=
  execute (.lshli d b) s fun t => .ok (t.writeReg d (shiftLeft (t.readReg d) (t.value b)))

/-- `lshrt` (R133): logical shift right. -/
def execLshrt (d : Reg) (a b : Operand) (s : State) : Host.Outcome State Fault Refusal :=
  execute (.lshrt d a b) s fun t => .ok (t.writeReg d (shiftRightLogical (t.value a) (t.value b)))

/-- `lshri` (R134): logical shift right in place. -/
def execLshri (d : Reg) (b : Operand) (s : State) : Host.Outcome State Fault Refusal :=
  execute (.lshri d b) s fun t => .ok (t.writeReg d (shiftRightLogical (t.readReg d) (t.value b)))

/-- `ashrt` (R135): arithmetic shift right. -/
def execAshrt (d : Reg) (a b : Operand) (s : State) : Host.Outcome State Fault Refusal :=
  execute (.ashrt d a b) s fun t => .ok (t.writeReg d (shiftRightArith (t.value a) (t.value b)))

/-- `ashri` (R136): arithmetic shift right in place. -/
def execAshri (d : Reg) (b : Operand) (s : State) : Host.Outcome State Fault Refusal :=
  execute (.ashri d b) s fun t => .ok (t.writeReg d (shiftRightArith (t.readReg d) (t.value b)))

end Sys2Proof.Machine
end

