-- ==== Sys2Proof/Machine/Dispatch.lean ====
section
/-! DEFINITION. The dispatch of a decoded instruction to its meaning, one arm a constructor
(spec/30_encoding.md R96). -/

namespace Sys2Proof.Machine

def exec (i : Instr) (s : State) : Host.Outcome State Fault Refusal :=
  match i with
  | .addts d a b => Sys2Proof.Machine.execAddts d a b s
  | .addtu d a b => Sys2Proof.Machine.execAddtu d a b s
  | .addis d b => Sys2Proof.Machine.execAddis d b s
  | .addiu d b => Sys2Proof.Machine.execAddiu d b s
  | .subts d a b => Sys2Proof.Machine.execSubts d a b s
  | .subtu d a b => Sys2Proof.Machine.execSubtu d a b s
  | .subis d b => Sys2Proof.Machine.execSubis d b s
  | .subiu d b => Sys2Proof.Machine.execSubiu d b s
  | .lshlt d a b => Sys2Proof.Machine.execLshlt d a b s
  | .lshli d b => Sys2Proof.Machine.execLshli d b s
  | .lshrt d a b => Sys2Proof.Machine.execLshrt d a b s
  | .lshri d b => Sys2Proof.Machine.execLshri d b s
  | .ashrt d a b => Sys2Proof.Machine.execAshrt d a b s
  | .ashri d b => Sys2Proof.Machine.execAshri d b s
  | .andt d a b => Sys2Proof.Machine.execAndt d a b s
  | .andi d b => Sys2Proof.Machine.execAndi d b s
  | .ort d a b => Sys2Proof.Machine.execOrt d a b s
  | .ori d b => Sys2Proof.Machine.execOri d b s
  | .xort d a b => Sys2Proof.Machine.execXort d a b s
  | .xori d b => Sys2Proof.Machine.execXori d b s
  | .nott d a => Sys2Proof.Machine.execNott d a s
  | .noi d => Sys2Proof.Machine.execNoi d s
  | .mults_e d a b => Sys2Proof.Machine.execMults_e d a b s
  | .mulis_e d b => Sys2Proof.Machine.execMulis_e d b s
  | .multu_e d a b => Sys2Proof.Machine.execMultu_e d a b s
  | .muliu_e d b => Sys2Proof.Machine.execMuliu_e d b s
  | .divts_e dq dr n m => Sys2Proof.Machine.execDivts_e dq dr n m s
  | .divtu_e dq dr n m => Sys2Proof.Machine.execDivtu_e dq dr n m s
  | .jmp t => Sys2Proof.Machine.execJmp t s
  | .jmpeq t a b => Sys2Proof.Machine.execJmpeq t a b s
  | .jmpne t a b => Sys2Proof.Machine.execJmpne t a b s
  | .jmpgts t a b => Sys2Proof.Machine.execJmpgts t a b s
  | .jmpges t a b => Sys2Proof.Machine.execJmpges t a b s
  | .jmplts t a b => Sys2Proof.Machine.execJmplts t a b s
  | .jmples t a b => Sys2Proof.Machine.execJmples t a b s
  | .jmpgtu t a b => Sys2Proof.Machine.execJmpgtu t a b s
  | .jmpgeu t a b => Sys2Proof.Machine.execJmpgeu t a b s
  | .jmpltu t a b => Sys2Proof.Machine.execJmpltu t a b s
  | .jmpleu t a b => Sys2Proof.Machine.execJmpleu t a b s
  | .cal t => Sys2Proof.Machine.execCal t s
  | .ret v => Sys2Proof.Machine.execRet v s
  | .mov d v => Sys2Proof.Machine.execMov d v s
  | .load d base => Sys2Proof.Machine.execLoad d base s
  | .loado d base off => Sys2Proof.Machine.execLoado d base off s
  | .loadb d base => Sys2Proof.Machine.execLoadb d base s
  | .loadbo d base off => Sys2Proof.Machine.execLoadbo d base off s
  | .stor v base => Sys2Proof.Machine.execStor v base s
  | .storo v base off => Sys2Proof.Machine.execStoro v base off s
  | .storb v base => Sys2Proof.Machine.execStorb v base s
  | .storbo v base off => Sys2Proof.Machine.execStorbo v base off s
  | .push v => Sys2Proof.Machine.execPush v s
  | .pop d => Sys2Proof.Machine.execPop d s
  | .halt => Sys2Proof.Machine.execHalt s
  | .exit v => Sys2Proof.Machine.execExit v s
  | .print v => Sys2Proof.Machine.execPrint v s
  | .read d => Sys2Proof.Machine.execRead d s
  | .dump => Sys2Proof.Machine.execDump s
  | .nop => Sys2Proof.Machine.execNop s

end Sys2Proof.Machine
end

