-- ==== Sys2Proof/Machine/Step.lean ====
section
/-! DEFINITION. One step of the machine (spec/70_reset_and_hazards.md R233), and an instruction placed
where the next step fetches. -/

namespace Sys2Proof.Machine

/-- One step (R233): a state whose status is not `running` has none; otherwise the instruction at `pc`
is decoded, a decode fault is taken, and the instruction runs. -/
def step (s : State) : Host.Outcome State Fault Refusal :=
  match s.status with
  | .running =>
    match s.fetch with
    | .error k => .next (s.takeFault k)
    | .ok (i, _) => exec i s
  | st => .fault (.runEnded st)

/-- `s` with an instruction's bytes at the `pc` of a program that is padded with zeros up to there, and
running: what loading a program means for the very next step (log 3). -/
def State.withFetchWord (s : State) (nbits w : Nat) : State :=
  { s with
    program :=
      s.program.take s.pc.toNat ++ List.replicate (s.pc.toNat - s.program.length) 0#8 ++
        tableBytes nbits w ++ s.program.drop (s.pc.toNat + maxInstrLength)
    status := .running }

end Sys2Proof.Machine
end

