-- ==== Sys2Proof/Machine/Assembler.lean ====
section
/-! DEFINITION. The assembler's two passes over program elements, the disassembler, and the names and
literals of the assembly surface (spec/30_encoding.md R91, R97 to R105, R108; spec/60_exceptions.md
R223). The text lexer and parser are out of the spec's scope (spec/00_scope.md R5). -/

namespace Sys2Proof.Machine

/-! ## What the parser hands over (R97) -/

/-- An operand as the assembler meets it (R97). -/
inductive AsmOperand where
  | reg (r : Reg)
  | imm (v : Word)
  /-- a label reference -/
  | label (name : String)
  deriving DecidableEq, Repr

/-- A program element: an instruction or a label definition (R97). -/
inductive ProgramElement where
  | instr (op : Op) (operands : List AsmOperand)
  | label (name : String)
  deriving DecidableEq, Repr

/-- The assembly-time errors (spec/60_exceptions.md R223). They stop assembly before any run; none is a
machine fault. -/
inductive AsmErrorKind where
  /-- a malformed token: here a literal outside its range -/
  | parseError
  /-- a label reference that no definition resolves -/
  | undefinedLabel (name : String)
  /-- a label name defined twice -/
  | duplicateLabel (name : String)
  /-- an arity or operand-kind violation -/
  | encodingError
  deriving DecidableEq, Repr

/-- An assembly-time error with its source context: the index of the element it was met at (R108). -/
structure AsmError where
  element : Nat
  kind : AsmErrorKind
  deriving DecidableEq, Repr

/-! ## Literals (R104) -/

/-- The suffix of a literal. -/
inductive LiteralSuffix where
  | none | signed | unsigned
  deriving DecidableEq, Repr

/-- A literal: an optional `-`, the value of its decimal digits, an optional suffix (R104). -/
structure Literal where
  negative : Bool
  magnitude : Nat
  suffix : LiteralSuffix
  deriving DecidableEq, Repr

/-- The integer a literal writes. -/
def Literal.int (l : Literal) : Int := if l.negative then -(l.magnitude : Int) else l.magnitude

/-- Whether the value lies in the literal's range: signed without a suffix; no `-` on an unsigned one
(R104). -/
def Literal.inRange (l : Literal) : Bool :=
  match l.suffix with
  | .unsigned => !l.negative && l.magnitude < 2 ^ 64
  | .signed => -2 ^ 63 ≤ l.int && l.int < 2 ^ 63
  | .none => -2 ^ 63 ≤ l.int && l.int < 2 ^ 63

/-- The pattern `w(n)` a literal encodes as, or a `ParseError` (R104). -/
def Literal.pattern (l : Literal) : Except AsmErrorKind Word :=
  if l.inRange then .ok (wrap l.int) else .error .parseError

/-! ## Pass 1: offsets (R98) -/

/-- The bytes an operand takes; a label reference is an immediate (R82, R98). -/
def AsmOperand.length : AsmOperand → Nat
  | .reg _ => 1
  | .imm _ => 8
  | .label _ => 8

/-- The bytes an element takes; a label takes none (R98). -/
def ProgramElement.length : ProgramElement → Nat
  | .instr _ operands => 4 + (operands.map AsmOperand.length).sum
  | .label _ => 0

/-- The label definitions with their offsets, when the first element stands at offset `p` (R98). -/
def labelOffsets (p : Nat) : List ProgramElement → List (String × Nat)
  | [] => []
  | .label name :: es => (name, p) :: labelOffsets p es
  | .instr op operands :: es =>
    labelOffsets (p + (ProgramElement.instr op operands).length) es

/-! ## Pass 2: resolution and encoding (R99) -/

/-- An operand with a label reference replaced by the label's offset, an unsigned absolute byte offset
(R99), or a `LabelError` when nothing defines it (R100). -/
def AsmOperand.resolve (defs : List (String × Nat)) : AsmOperand → Except AsmErrorKind Operand
  | .reg r => .ok (.reg r)
  | .imm v => .ok (.imm v)
  | .label name =>
    match defs.find? fun d => d.1 == name with
    | some d => .ok (.imm (BitVec.ofNat 64 d.2))
    | none => .error (.undefinedLabel name)

/-- The operands resolved in slot order, or the first `LabelError` (R99, R100). -/
def resolveAll (defs : List (String × Nat)) : List AsmOperand → Except AsmErrorKind (List Operand)
  | [] => .ok []
  | o :: os =>
    match o.resolve defs with
    | .error e => .error e
    | .ok v => (resolveAll defs os).map fun vs => v :: vs

/-- Whether a slot of this kind may hold this operand; a label reference stands in a `T` slot only
(R91, R97; log 9). -/
def acceptsAsm : SlotKind → AsmOperand → Bool
  | .target, .label _ => true
  | _, .label _ => false
  | k, .reg r => k.accepts (.reg r)
  | k, .imm v => k.accepts (.imm v)

/-- The operand list has the schema's length and every slot accepts its operand (R91). -/
def fitsAsm : List SlotKind → List AsmOperand → Bool
  | [], [] => true
  | k :: ks, o :: os => acceptsAsm k o && fitsAsm ks os
  | [], _ :: _ => false
  | _ :: _, [] => false

/-- `Encode` with its error cases: the bytes of a mnemonic with an operand list, or an `EncodingError`
(R90, R91). -/
def encodeChecked (map : OpcodeMap) (r : RawInstr) : Except AsmErrorKind (List Byte) :=
  if r.wellFormed then .ok (encodeWith map r) else .error .encodingError

/-- The bytes of one element under the labels of the program, or its error: arity and kinds first, then
labels (R91, R99, R100; log 9). -/
def encodeElement (map : OpcodeMap) (defs : List (String × Nat)) :
    ProgramElement → Except AsmErrorKind (List Byte)
  | .label name =>
    if (defs.filter fun d => d.1 == name).length ≤ 1 then .ok []
    else .error (.duplicateLabel name)
  | .instr op operands =>
    if fitsAsm op.schema operands then
      match resolveAll defs operands with
      | .error e => .error e
      | .ok vs => encodeChecked map ⟨op, vs⟩
    else .error .encodingError

/-- The bytes of the elements that encode and the errors of those that do not, in element order (R99,
R108). -/
def encodeElements (map : OpcodeMap) (defs : List (String × Nat)) (index : Nat) :
    List ProgramElement → List AsmError × List Byte
  | [] => ([], [])
  | e :: es =>
    let rest := encodeElements map defs (index + 1) es
    match encodeElement map defs e with
    | .ok bytes => (rest.1, bytes ++ rest.2)
    | .error kind => (⟨index, kind⟩ :: rest.1, rest.2)

/-- The assembler: `PROGRAM`, or every error met; an error means no `PROGRAM` (R98, R99, R108). -/
def assembleWith (map : OpcodeMap) (es : List ProgramElement) :
    Except (List AsmError) (List Byte) :=
  match encodeElements map (labelOffsets 0 es) 0 es with
  | ([], bytes) => .ok bytes
  | (errors, _) => .error errors

/-- The assembler under the default map of R84. -/
def assemble (es : List ProgramElement) : Except (List AsmError) (List Byte) :=
  assembleWith opcodeMap es

/-- An operand as an assembler operand without a label. -/
def AsmOperand.ofOperand : Operand → AsmOperand
  | .reg r => .reg r
  | .imm v => .imm v

/-- An instruction as a program element without labels. -/
def ProgramElement.ofInstr (i : Instr) : ProgramElement :=
  .instr i.op (i.operands.map AsmOperand.ofOperand)

/-! ## The disassembler (R101) -/

/-- `Decode` at offset `p` and at each following offset until the end of the program, or the first
decode fault with its offset (R101). Every instruction has at least 4 bytes, so a fuel of the program's
length is never used up. -/
def disassembleFrom (map : OpcodeMap) (program : List Byte) :
    Nat → Nat → Except (FaultKind × Nat) (List Instr)
  | fuel, p =>
    if p = program.length then .ok []
    else
      match fuel with
      | 0 => .error (.pcOutOfRange, p)
      | fuel + 1 =>
        match decodeAtWith map program p with
        | .error k => .error (k, p)
        | .ok (i, length) =>
          (disassembleFrom map program fuel (p + length)).map fun is => i :: is

/-- The disassembler: the instruction list of a program (R101). -/
def disassembleWith (map : OpcodeMap) (program : List Byte) :
    Except (FaultKind × Nat) (List Instr) :=
  disassembleFrom map program program.length 0

/-- The disassembler under the default map of R84. -/
def disassemble (program : List Byte) : Except (FaultKind × Nat) (List Instr) :=
  disassembleWith opcodeMap program

/-! ## Names (R84, R103) -/

/-- The assembly name of a register (R103, spec/10_state.md R21). -/
def regName : Reg → String
  | .g0 => "$G_0" | .g1 => "$G_1" | .g2 => "$G_2" | .g3 => "$G_3"
  | .g4 => "$G_4" | .g5 => "$G_5" | .g6 => "$G_6" | .g7 => "$G_7"
  | .stackBase => "$S_B" | .stackEnd => "$S_E"
  | .ret => "$R" | .instruction => "$I" | .zero => "$Z" | .error => "$E"

/-- The mnemonic column of R84, in lower case (R102). -/
def opMnemonic : Op → String
  | .addts => "addts"
  | .addtu => "addtu"
  | .addis => "addis"
  | .addiu => "addiu"
  | .subts => "subts"
  | .subtu => "subtu"
  | .subis => "subis"
  | .subiu => "subiu"
  | .lshlt => "lshlt"
  | .lshli => "lshli"
  | .lshrt => "lshrt"
  | .lshri => "lshri"
  | .ashrt => "ashrt"
  | .ashri => "ashri"
  | .andt => "andt"
  | .andi => "andi"
  | .ort => "ort"
  | .ori => "ori"
  | .xort => "xort"
  | .xori => "xori"
  | .nott => "nott"
  | .noi => "noi"
  | .mults_e => "mults_e"
  | .mulis_e => "mulis_e"
  | .multu_e => "multu_e"
  | .muliu_e => "muliu_e"
  | .divts_e => "divts_e"
  | .divtu_e => "divtu_e"
  | .jmp => "jmp"
  | .jmpeq => "jmpeq"
  | .jmpne => "jmpne"
  | .jmpgts => "jmpgts"
  | .jmpges => "jmpges"
  | .jmplts => "jmplts"
  | .jmples => "jmples"
  | .jmpgtu => "jmpgtu"
  | .jmpgeu => "jmpgeu"
  | .jmpltu => "jmpltu"
  | .jmpleu => "jmpleu"
  | .cal => "cal"
  | .ret => "ret"
  | .mov => "mov"
  | .load => "load"
  | .loado => "loado"
  | .loadb => "loadb"
  | .loadbo => "loadbo"
  | .stor => "stor"
  | .storo => "storo"
  | .storb => "storb"
  | .storbo => "storbo"
  | .push => "push"
  | .pop => "pop"
  | .halt => "halt"
  | .exit => "exit"
  | .print => "print"
  | .read => "read"
  | .dump => "dump"
  | .nop => "nop"

/-! ## The text of an element (R102 to R105)

One line per element. The lexer and the parser that read such lines are out of scope (spec/00_scope.md
R5). -/

/-- The characters of a literal: `-`, the decimal digits, the suffix (R104). -/
def Literal.text (l : Literal) : String :=
  (if l.negative then "-" else "") ++ toString l.magnitude ++
    match l.suffix with
    | .none => ""
    | .signed => "s"
    | .unsigned => "u"

/-- A literal that encodes as a pattern: its unsigned value, with the suffix `u` (R104). -/
def Literal.ofWord (v : Word) : Literal := ⟨false, v.toNat, .unsigned⟩

/-- An operand as it is written: a register name (R103), a literal, or `:name` (R105). -/
def AsmOperand.text : AsmOperand → String
  | .reg r => regName r
  | .imm v => (Literal.ofWord v).text
  | .label name => ":" ++ name

/-- An element's source line: the mnemonic and the operands in slot order with spaces between (R102), or
`name:` (R105). -/
def ProgramElement.text : ProgramElement → String
  | .instr op operands => " ".intercalate (opMnemonic op :: operands.map AsmOperand.text)
  | .label name => name ++ ":"

end Sys2Proof.Machine
end

