-- ==== Sys2Proof/Machine/Runner.lean ====
section
/-! DEFINITION. A run from launch to its end, and a runner under a step bound (spec/60_exceptions.md
R224, spec/70_reset_and_hazards.md R233, R239). -/

namespace Sys2Proof.Machine

/-- The constraint on the launch parameters (spec/00_scope.md R7): the stack end never wraps below
address 0. -/
def launchOk (stackBase : Word) (capacity : Nat) : Bool := 8 * capacity ≤ stackBase.toNat

/-- What a runner reports (R239): running out of fuel is a result of the runner, not a state of the
machine. -/
inductive RunResult where
  /-- the first state whose status is terminal (R233) -/
  | ended (s : State)
  /-- the step bound was used up in a state that is still running -/
  | outOfFuel (s : State)
  deriving DecidableEq, Repr

/-- A run of at most `fuel` steps, up to the first state that has no step (R233, R239). No arm of `exec`
refuses, so the last case is never met. -/
def runFuel : Nat → State → RunResult
  | 0, s => if s.status = .running then .outOfFuel s else .ended s
  | fuel + 1, s =>
    match step s with
    | .next t => runFuel fuel t
    | .fault _ => .ended s
    | .refused _ => .ended s

end Sys2Proof.Machine
end

