-- ==== Sys2Proof/Safety.lean ====
section
/-! DEFINITION. The terms the statements are made in: when an instruction meets no common fault, what
its operands hold, what a state keeps, and the decoder of spec/30_encoding.md R87 as its pseudocode
reads. -/

namespace Sys2Proof.Machine

/-! ## Before an instruction -/

/-- The registers of an instruction's `D` slots, in slot order (spec/00_scope.md R12). -/
def destRegs (i : Instr) : List Reg :=
  (operandSlots i).filterMap fun
    | (.dest, .reg r) => some r
    | _ => none

/-- None of the common faults of spec/60_exceptions.md R213 items 2 to 4 applies: `npc` fits the `pc`,
no `D` slot names `$S_B` or `$S_E`, and under `UNINIT_REG_POLICY = fault` every register the instruction
reads is defined. -/
abbrev NoCommonFault (i : Instr) (s : State) : Prop :=
  s.pc.toNat + i.length < 2 ^ 64 ∧ .stackBase ∉ destRegs i ∧ .stackEnd ∉ destRegs i ∧
    (s.uninitPolicy = .fault → ∀ r ∈ readRegs i, s.defined r = true)

/-- `npc` of spec/10_state.md R31: the address of the following instruction. -/
def npc (i : Instr) (s : State) : Word := BitVec.ofNat 64 (s.pc.toNat + i.length)

/-- What a register reads while the instruction executes: `$I` yields `npc` (spec/10_state.md R25). -/
def regAt (i : Instr) (s : State) (r : Reg) : Word :=
  if r = .instruction then npc i s else s.readReg r

/-- What an operand holds while the instruction executes (spec/00_scope.md R10). -/
def opAt (i : Instr) (s : State) : Operand → Word
  | .reg r => regAt i s r
  | .imm v => v

/-- The address of an offset access while the instruction executes (spec/45_memory_ops.md R180). -/
def offsetAt (i : Instr) (s : State) (base : Reg) (off : Operand) : Word :=
  offsetAddress (regAt i s base) (opAt i s off)

/-! ## What a state keeps -/

/-- Every register but the listed ones reads as before and is as defined as before. -/
abbrev RegsKept (changed : List Reg) (s t : State) : Prop :=
  ∀ r, r ∉ changed → t.readReg r = s.readReg r ∧ t.defined r = s.defined r

/-- The parameters of the run are the same (spec/00_scope.md R7). -/
abbrev ParamsKept (s t : State) : Prop :=
  t.program = s.program ∧ t.opcodes = s.opcodes ∧ t.mem.start = s.mem.start ∧
    t.mem.capacity = s.mem.capacity ∧ t.uninitPolicy = s.uninitPolicy

/-- The status, both streams and the parameters of the run are the same. -/
abbrev RunKept (s t : State) : Prop :=
  t.status = s.status ∧ t.input = s.input ∧ t.output = s.output ∧ ParamsKept s t

/-- Byte `j` of a word, byte 0 the least significant, by its number (spec/20_memory.md R52). -/
def byteOf (v : Word) (j : Nat) : Byte := BitVec.ofNat 8 (v.toNat / 256 ^ j)

/-- A byte of data memory, none where the address is not contained (spec/20_memory.md R54). -/
def byteAt (s : State) (a : Word) : Option Byte := (s.mem.readByte a).toOption

/-- Every byte of memory reads as before. -/
abbrev MemKept (s t : State) : Prop :=
  t.mem = s.mem ∧ ∀ a, byteAt t a = byteAt s a

/-- `t` is `s` after the instruction wrote `v` to its destination `d` and went on: `d` reads `v` unless
it is `$Z`, every other register, all of memory, the status, the streams and the parameters are as
before, and the next `pc` is `npc` unless `d` is `$I` (spec/10_state.md R24, R26, R31). -/
def WritesReg (i : Instr) (s t : State) (d : Reg) (v : Word) : Prop :=
  (d ≠ .zero → t.readReg d = v ∧ t.defined d = true) ∧ t.readReg .zero = 0 ∧
    RegsKept [d, .instruction] s t ∧ (d ≠ .instruction → t.pc = npc i s) ∧
    MemKept s t ∧ RunKept s t

/-- `t` is `s` after a control transfer to `target` and nothing else. -/
def Transfers (s t : State) (target : Word) : Prop :=
  t.pc = target ∧ RegsKept [.instruction] s t ∧ MemKept s t ∧ RunKept s t

/-- The address `a` is one of the `n` bytes that start at `base`. -/
abbrev InBytes (base : Word) (n : Nat) (a : Word) : Prop :=
  base.toNat ≤ a.toNat ∧ a.toNat < base.toNat + n

/-- `s` with its status changed to a fault: what spec/60_exceptions.md R212 leaves. -/
abbrev faultedAs (s : State) (k : FaultKind) : State := { s with status := .faulted k }

/-- The instruction takes the common faults as spec/60_exceptions.md R212 and R213 say: the first that
applies, with nothing but the status changed. -/
def TakesCommonFaults (i : Instr) : Prop :=
  ∀ s k, commonFault i s = some k → exec i s = .next (faultedAs s k)

/-! ## Spec readings that the model is held against -/

/-- The slots of `Decode` as the loop of spec/30_encoding.md R87 reads them: `slot` is its `i`, `q` its
cursor, the result its operand list with the cursor after the last slot. -/
def decodeSlots (program : List Byte) (mode : Byte) :
    Nat → Nat → List SlotKind → Except FaultKind (List Operand × Nat)
  | _, q, [] => .ok ([], q)
  | slot, q, k :: ks =>
    if modeFlag mode slot = true ∧ (k = .dest ∨ k = .addr) then
      .error (.operandKindMismatch slot mode)
    else if modeFlag mode slot = false ∧ k = .target then
      .error (.operandKindMismatch slot mode)
    else if modeFlag mode slot then
      if program.length < q + 8 then .error .truncated
      else
        (decodeSlots program mode (slot + 1) (q + 8) ks).map fun (os, e) =>
          (.imm (BitVec.ofNat 64 (leNat ((program.drop q).take 8))) :: os, e)
    else if program.length < q + 1 then .error .truncated
    else
      match Reg.ofCode (program.getD q 0) with
      | none => .error (.invalidRegister slot (program.getD q 0))
      | some r =>
        (decodeSlots program mode (slot + 1) (q + 1) ks).map fun (os, e) => (.reg r :: os, e)

/-- `Decode(PROGRAM, p)` as the pseudocode of spec/30_encoding.md R87 reads, with the mnemonic and the
operand list it returns, and the length. -/
def decodeReading (map : OpcodeMap) (program : List Byte) (p : Nat) :
    Except FaultKind (RawInstr × Nat) :=
  if program.length ≤ p then .error .pcOutOfRange
  else if program.length < p + 4 then .error .truncated
  else
    let b0 := program.getD p 0
    let b1 := program.getD (p + 1) 0
    let b2 := program.getD (p + 2) 0
    match map.lookup (identDecode b0 b1 b2) with
    | none => .error (.unknownOpcode b0 b1 b2)
    | some m =>
      (decodeSlots program (program.getD (p + 3) 0) 0 (p + 4) m.schema).map fun (os, q) =>
        (⟨m, os⟩, q - p)

/-- A mode byte with the bits of the slots from `arity` on cleared (spec/30_encoding.md R93). -/
def clearUnused (arity : Nat) (mode : Byte) : Byte := mode &&& ~~~(0xFF#8 >>> arity)

/-- The steps of a run, one after another. -/
inductive Reaches : State → State → Prop where
  | here (s : State) : Reaches s s
  | after {s t u : State} (h : step s = .next t) (r : Reaches t u) : Reaches s u

end Sys2Proof.Machine
end

