-- ==== Sys2Proof/Certificates/Slice0/Obligations.lean ====
section
/-! DEFINITION. The statements for the provers. Each docstring names the rule of spec/ it formalises. -/

open Sys2Proof Sys2Proof.Machine

/-- The identifier roles and the table (30_encoding.md R83, R84, R86, R96). -/
def Obligations.OpcodeMapIsUnambiguous : Prop :=
  (∀ o o', opcodeMap o = opcodeMap o' → o = o') ∧ (∀ o, opcodeMap.lookup (opcodeMap o) = some o) ∧
    ∀ o, (opcodeMap o).group = o.group.number ∧ (opcodeMap o).type.getLsbD 1 = o.inPlace ∧
      1 ≤ (opcodeMap o).code.toNat ∧ (opcodeMap o).code.toNat ≤ 31

/-- The identifier codec (30_encoding.md R71 to R73) and its round trips (R74). The direction
`IdentEncode(IdentDecode(b)) = b` is the sentence of R74 that the spec marks as derived from R71 and R73. -/
def Obligations.IdentifierCodecRoundTrip : Prop :=
  (∀ id : Ident, ∃ b0 b1 b2, identEncode id = [b0, b1, b2] ∧ identDecode b0 b1 b2 = id ∧
      b0.toNat = id.code.toNat % 256 ∧ b1.toNat = id.code.toNat / 256 ∧
      b2.toNat = 16 * id.type.toNat + id.group.toNat) ∧
    (∀ b0 b1 b2, identEncode (identDecode b0 b1 b2) = [b0, b1, b2]) ∧
    ∀ code type group, (∃ id, identOfNats code type group = some id) ↔ type ≤ 15 ∧ group ≤ 15

/-- The operand-mode codec (30_encoding.md R75, R76). -/
def Obligations.ModeByteRoundTrip : Prop :=
  (∀ m, modeEncode (modeDecode m) = m) ∧
    ∀ f : List Bool, f.length = 8 → modeDecode (modeEncode f) = f ∧
      ∀ i < 8, (modeEncode f).getLsbD (7 - i) = f.getD i false

/-- Operand encodings (30_encoding.md R79 to R81) with the register codes of 10_state.md R21. -/
def Obligations.OperandBytesRoundTrip : Prop :=
  (Reg.code .g0 = 0 ∧ Reg.code .g1 = 1 ∧ Reg.code .g2 = 2 ∧ Reg.code .g3 = 3 ∧ Reg.code .g4 = 4 ∧
      Reg.code .g5 = 5 ∧ Reg.code .g6 = 6 ∧ Reg.code .g7 = 7 ∧ Reg.code .stackBase = 8 ∧
      Reg.code .stackEnd = 9 ∧ Reg.code .ret = 16 ∧ Reg.code .instruction = 17 ∧
      Reg.code .zero = 18 ∧ Reg.code .error = 19) ∧
    (∀ b, (∃ r, Reg.ofCode b = some r) ↔ b.toNat ≤ 9 ∨ (16 ≤ b.toNat ∧ b.toNat ≤ 19)) ∧
    (∀ b r, Reg.ofCode b = some r ↔ r.code = b) ∧
    (∀ r, (Operand.reg r).encode = [r.code]) ∧
    (∀ slot b bs, Reg.ofCode b = none →
      readRegByte slot (b :: bs) = .error (.invalidRegister slot b)) ∧
    ∀ v : Word, (Operand.imm v).encode = (List.range 8).map (byteOf v) ∧
      ∀ bs, readImm ((Operand.imm v).encode ++ bs) = .ok (v, bs)

/-- The schema column of 30_encoding.md R84 (R85), and encoding errors (R91). -/
def Obligations.WellFormedListsAreInstructions : Prop :=
  ((∀ o ∈ [Op.addts, .addtu, .subts, .subtu, .lshlt, .lshrt, .ashrt, .andt, .ort, .xort, .mults_e,
        .multu_e], o.schema = [.dest, .src, .src]) ∧
      (∀ o ∈ [Op.addis, .addiu, .subis, .subiu, .lshli, .lshri, .ashri, .andi, .ori, .xori, .nott,
        .mulis_e, .muliu_e, .mov], o.schema = [.dest, .src]) ∧
      (∀ o ∈ [Op.noi, .pop, .read], o.schema = [.dest]) ∧
      (∀ o ∈ [Op.divts_e, .divtu_e], o.schema = [.dest, .dest, .src, .src]) ∧
      (∀ o ∈ [Op.jmp, .cal], o.schema = [.target]) ∧
      (∀ o ∈ [Op.jmpeq, .jmpne, .jmpgts, .jmpges, .jmplts, .jmples, .jmpgtu, .jmpgeu, .jmpltu,
        .jmpleu], o.schema = [.target, .src, .src]) ∧
      (∀ o ∈ [Op.ret, .push, .exit, .print], o.schema = [.src]) ∧
      (∀ o ∈ [Op.load, .loadb], o.schema = [.dest, .addr]) ∧
      (∀ o ∈ [Op.loado, .loadbo], o.schema = [.dest, .addr, .src]) ∧
      (∀ o ∈ [Op.stor, .storb], o.schema = [.src, .addr]) ∧
      (∀ o ∈ [Op.storo, .storbo], o.schema = [.src, .addr, .src]) ∧
      ∀ o ∈ [Op.halt, .dump, .nop], o.schema = []) ∧
    (∀ r : RawInstr, r.wellFormed = true ↔ ∃ i : Instr, i.toRaw = r) ∧
    (∀ map r, encodeChecked map r = .error .encodingError ↔ r.wellFormed = false) ∧
    ∀ i : Instr, Instr.ofRaw i.toRaw = some i

/-- Lengths and the round trip (30_encoding.md R82, R92). -/
def Obligations.DecodeOfEncode : Prop :=
  ∀ map : OpcodeMap, (∀ o o', map o = map o' → o = o') → ∀ (i : Instr) (pre post : List Byte),
    encodeChecked map i.toRaw = .ok (encodeWith map i.toRaw) ∧
    decodeAtWith map (pre ++ encodeWith map i.toRaw ++ post) pre.length =
      .ok (i, (encodeWith map i.toRaw).length) ∧
    (encodeWith map i.toRaw).length = i.length ∧
    i.length = 4 + (i.operands.map fun o => if o.isImm then 8 else 1).sum

/-- The other direction (30_encoding.md R78, R93; R93 is marked as derived by the spec). -/
def Obligations.EncodeOfDecode : Prop :=
  ∀ (map : OpcodeMap) (b0 b1 b2 mode : Byte) (rest : List Byte) (i : Instr) (L : Nat),
    decodeAtWith map (b0 :: b1 :: b2 :: mode :: rest) 0 = .ok (i, L) →
    encodeWith map i.toRaw =
      b0 :: b1 :: b2 :: clearUnused i.operands.length mode :: rest.take (L - 4) ∧
    (encodeWith map i.toRaw = (b0 :: b1 :: b2 :: mode :: rest).take L ↔
      ∀ slot, i.operands.length ≤ slot → slot < 8 → modeFlag mode slot = false)

/-- `Decode` and the order of its faults (30_encoding.md R87, R88). -/
def Obligations.DecodeFollowsItsPseudocode : Prop :=
  ∀ (map : OpcodeMap) (program : List Byte) (p : Nat),
    (decodeAtWith map program p).map (fun (i, L) => (i.toRaw, L)) = decodeReading map program p

/-- Unassigned identifiers (30_encoding.md R94). -/
def Obligations.UnassignedIdentifiersFault : Prop :=
  (∀ (map : OpcodeMap) (b0 b1 b2 mode : Byte) (pre rest : List Byte),
      (∀ o, map o ≠ identDecode b0 b1 b2) →
      decodeAtWith map (pre ++ b0 :: b1 :: b2 :: mode :: rest) pre.length =
        .error (.unknownOpcode b0 b1 b2)) ∧
    (∀ id : Ident, id.code = 0 ∨ 32 ≤ id.code.toNat ∨ 7 ≤ id.group.toNat →
      ∀ o, opcodeMap o ≠ id) ∧
    (∀ id : Ident, (∀ o, (opcodeMap o).code = id.code →
      (opcodeMap o).type ≠ id.type ∨ (opcodeMap o).group ≠ id.group) → ∀ o, opcodeMap o ≠ id) ∧
    (∀ o, opcodeMap o ≠ identDecode 0x01 0x00 0x40) ∧
    ∀ o, opcodeMap o ≠ identDecode 0x01 0x00 0x01

/-- `Decode` never reads past the program (30_encoding.md R89; its bounds are marked as derived by the spec). -/
def Obligations.DecodeStaysInsideTheProgram : Prop :=
  ∀ (map : OpcodeMap) (program : List Byte) (p : Nat) (i : Instr) (L : Nat),
    decodeAtWith map program p = .ok (i, L) →
    L = i.length ∧ 4 ≤ L ∧ L ≤ 28 ∧ p + L ≤ program.length ∧
    ∀ other : List Byte, other.take (p + L) = program.take (p + L) →
      decodeAtWith map other p = .ok (i, L)

/-- Words from 30_encoding.md R84 and 95_test_vectors.md L2.2 and L2.3 (a sanity statement). -/
def Obligations.DecodedWordsAreRight : Prop :=
  decodeAt [0x01, 0x00, 0x00, 0x20, 0x00, 0x12, 0x05, 0, 0, 0, 0, 0, 0, 0] 0 =
      .ok (.addts .g0 (.reg .zero) (.imm 5), 14) ∧
    decodeAt [0x09, 0x00, 0x22, 0x00, 0x05] 0 = .ok (.noi .g5, 5) ∧
    decodeAt [0x0B, 0x00, 0x13, 0x10, 0x00, 0x01, 0x02, 0x0A, 0, 0, 0, 0, 0, 0, 0] 0 =
      .ok (.divtu_e .g0 .g1 (.reg .g2) (.imm 10), 15) ∧
    decodeAt [0x0E, 0x00, 0x04, 0xA0, 0x40, 0, 0, 0, 0, 0, 0, 0, 0x00, 0, 0, 0, 0, 0, 0, 0, 0] 0 =
      .ok (.jmpne 64 (.reg .g0) (.imm 0), 21) ∧
    decodeAt [0x16, 0x00, 0xC5, 0x20, 0x00, 0x09, 0x01, 0, 0, 0, 0, 0, 0, 0] 0 =
      .ok (.loadbo .g0 .stackEnd (.imm 1), 14) ∧
    decodeAt [0x17, 0x00, 0x85, 0xA0, 7, 0, 0, 0, 0, 0, 0, 0, 0x09, 8, 0, 0, 0, 0, 0, 0, 0] 0 =
      .ok (.storo (.imm 7) .stackEnd (.imm 8), 21) ∧
    decodeAt [0x14, 0x00, 0x04, 0x80, 0xFF, 0xFF, 0xFF, 0xFF, 0xFF, 0xFF, 0xFF, 0xFF] 0 =
      .ok (.ret (.imm 0xFFFFFFFFFFFFFFFF), 12) ∧
    decodeAt [0x15, 0x00, 0x05, 0x40, 0x10, 0x2A, 0, 0, 0, 0, 0, 0, 0] 0 =
      .ok (.mov .ret (.imm 42), 13) ∧
    decodeAt [0x16, 0x00, 0x05, 0x00, 0x07, 0x09] 0 = .ok (.load .g7 .stackEnd, 6) ∧
    decodeAt [0x17, 0x00, 0x05, 0x00, 0x13, 0x09] 0 = .ok (.stor (.reg .error) .stackEnd, 6) ∧
    decodeAt [0x0C, 0x00, 0x04, 0x80, 0x10, 0x20, 0, 0, 0, 0, 0, 0] 0 = .ok (.jmp 0x2010, 12) ∧
    decodeAt [0x1A, 0x00, 0x06, 0xFF] 0 = .ok (.halt, 4) ∧
    decodeAt [0x0C, 0x00, 0x04, 0x00, 0x00] 0 = .error (.operandKindMismatch 0 0x00) ∧
    decodeAt [0x01, 0x00, 0x00, 0x80, 0x00, 0x00, 0x00] 0 = .error (.operandKindMismatch 0 0x80)

/-- Pass 2 and the disassembler (30_encoding.md R99, R101). -/
def Obligations.DisassembleOfAssemble : Prop :=
  ∀ map : OpcodeMap, (∀ o o', map o = map o' → o = o') → ∀ is : List Instr,
    assembleWith map (is.map ProgramElement.ofInstr) =
      .ok (is.flatMap fun i => encodeWith map i.toRaw) ∧
    disassembleWith map (is.flatMap fun i => encodeWith map i.toRaw) = .ok is

/-- Label resolution, in every mnemonic with a `T` slot (30_encoding.md R97 to R100). The element an error
is recorded at is the model's choice (log 9). -/
def Obligations.LabelsResolveToOffsets : Prop :=
  ∀ map : OpcodeMap,
    (∀ (es : List ProgramElement) (bytes : List Byte), assembleWith map es = .ok bytes →
      bytes.length = (es.map ProgramElement.length).sum ∧
      ((∀ o o', map o = map o' → o = o') → ∀ op operands name before after,
        es = before ++ .instr op operands :: after → AsmOperand.label name ∈ operands →
        ∃ before' after' rest i, es = before' ++ .label name :: after' ∧
          operands = .label name :: rest.map AsmOperand.ofOperand ∧
          Instr.ofRaw ⟨op, .imm (BitVec.ofNat 64 (before'.map ProgramElement.length).sum) :: rest⟩ =
            some i ∧
          decodeAtWith map bytes (before.map ProgramElement.length).sum = .ok (i, i.length))) ∧
    (∀ a b c name, ∃ errors,
      assembleWith map (a ++ .label name :: b ++ .label name :: c) = .error errors ∧
      ⟨a.length, .duplicateLabel name⟩ ∈ errors) ∧
    ∀ a b op operands name, AsmOperand.label name ∈ operands →
      ProgramElement.label name ∉ a ++ b → ∃ errors,
      assembleWith map (a ++ .instr op operands :: b) = .error errors ∧
      (fitsAsm op.schema operands = true → ⟨a.length, .undefinedLabel name⟩ ∈ errors)

/-- The launch state (10_state.md R40) and the parameters it keeps (00_scope.md R7). That `State.reset` is
the launch state of the default parameters with an empty PROGRAM is the model's choice (log 3): R40 names no
program. Its empty INPUT is the default of 92_eei_decisions.md D37. -/
def Obligations.LaunchStateIsTheResetState : Prop :=
  (∀ program input base capacity map policy,
      let s := State.launch program input base capacity map policy
      (∀ r, r ≠ .stackBase → r ≠ .stackEnd → s.readReg r = 0) ∧ s.pc = 0 ∧
        s.readReg .stackBase = base ∧ s.readReg .stackEnd = base ∧ s.mem.words = [] ∧
        s.status = .running ∧ s.input = input ∧ s.output = [] ∧
        s.program = program ∧ s.mem.capacity = capacity ∧ s.opcodes.toMap = map ∧
        s.uninitPolicy = policy) ∧
    State.reset = State.launch [] [] 0x0000000100000000 1024 opcodeMap .zero

/-- The zero register (10_state.md R24). -/
def Obligations.ZeroRegisterReadsZero : Prop :=
  ∀ (s : State) (v : Word), s.readReg .zero = 0 ∧ s.writeReg .zero v = s

/-- The stack registers (10_state.md R27). -/
def Obligations.StackRegistersAreReadOnly : Prop :=
  (∀ s : State, s.readReg .stackBase = s.mem.start ∧ s.readReg .stackEnd = s.mem.stackEnd) ∧
    (∀ (i : Instr) (s : State) (n : Nat) (r : Reg), s.pc.toNat + i.length < 2 ^ 64 →
      (operandSlots i)[n]? = some (.dest, .reg r) → r = .stackBase ∨ r = .stackEnd →
      (∀ m < n, ∀ q, (operandSlots i)[m]? = some (.dest, .reg q) →
        q ≠ .stackBase ∧ q ≠ .stackEnd) →
      exec i s = .next (faultedAs s (.readOnlyRegister n))) ∧
    ∀ (i : Instr) (s t : State), exec i s = .next t → t.mem.start = s.mem.start ∧
      (i.op ∉ [.push, .pop, .cal, .ret] → t.mem.stackEnd = s.mem.stackEnd)

/-- The error register (10_state.md R29). -/
def Obligations.ErrorRegisterIsAdvisory : Prop :=
  (ErrorCode.number .unknown = 1 ∧ ErrorCode.number .badInstruction = 2 ∧
      ErrorCode.number .overflow = 3 ∧ ErrorCode.number .divZero = 4) ∧
    ∀ s t : State, step s = .next t →
      ((∀ i L, s.fetch = .ok (i, L) → .error ∉ destRegs i) →
        t.regs.err = s.regs.err) ∧
      (∀ k, t.status = .faulted k → t.regs.err = s.regs.err)

/-- The uninitialised-read policy (10_state.md R41). -/
def Obligations.UninitializedReadPolicy : Prop :=
  (∀ program input base capacity map policy r,
      (State.launch program input base capacity map policy).defined r = true ↔
        r = .zero ∨ r = .instruction ∨ r = .stackBase ∨ r = .stackEnd) ∧
    (∀ (s : State) (r : Reg), r = .zero ∨ r = .instruction ∨ r = .stackBase ∨ r = .stackEnd →
      s.defined r = true) ∧
    (∀ (i : Instr) (s : State) (before after : List Reg) (r : Reg), s.uninitPolicy = .fault →
      s.pc.toNat + i.length < 2 ^ 64 → .stackBase ∉ destRegs i → .stackEnd ∉ destRegs i →
      readRegs i = before ++ r :: after → (∀ q ∈ before, s.defined q = true) →
      s.defined r = false → exec i s = .next (faultedAs s (.uninitializedRead r))) ∧
    (∀ (i : Instr) (s t : State) (r : Reg), s.uninitPolicy = .zero → s.status = .running →
      exec i s = .next t → t.status ≠ .faulted (.uninitializedRead r)) ∧
    Config.uninitRegPolicy = .zero ∧
    ∀ (i : Instr) (s t : State), exec i s = .next t → (∃ k, t = faultedAs s k) ∨
      ∀ r, t.defined r = true ↔
        s.defined r = true ∨ r ∈ destRegs i ∨ (i.op = .ret ∧ r = .ret)

/-- The program counter's bound (10_state.md R32). -/
def Obligations.PcOverflowComesBeforeExecution : Prop :=
  (∀ (i : Instr) (s : State), 2 ^ 64 ≤ s.pc.toNat + i.length →
      exec i s = .next (faultedAs s .pcOverflow)) ∧
    ∀ (map : OpcodeMap) (program : List Byte) (p : Nat) (i : Instr) (L : Nat),
      program.length < 2 ^ 64 → decodeAtWith map program p = .ok (i, L) → p + L < 2 ^ 64

/-- Containment, translation and reads (20_memory.md R51, R53, R54, R55). That all eight bytes from an
aligned contained address are contained is the sentence of R55 that the spec marks as derived from R36 and
R53. -/
def Obligations.MemoryReads : Prop :=
  ∀ (m : Memory) (a : Word), m.wf →
    (∀ k j w, j < 8 → m.words[k]? = some w → a.toNat = m.stackEnd.toNat + 8 * k + j →
      m.contains a = true ∧ m.wordIndex a = k ∧ m.byteOffset a = j ∧
      m.readByte a = .ok (byteOf w j) ∧
      m.readWord a = if j = 0 then .ok w else .error (.misalignedWordAccess a)) ∧
    (m.contains a = true ↔ m.stackEnd.toNat ≤ a.toNat ∧ a.toNat < m.start.toNat) ∧
    (m.contains a = true → ∃ k j w, j < 8 ∧ m.words[k]? = some w ∧
      a.toNat = m.stackEnd.toNat + 8 * k + j) ∧
    (m.words = [] → m.contains a = false) ∧
    (m.contains a = true → m.byteOffset a = 0 → ∀ j < 8, ∀ c : Word, c.toNat = a.toNat + j →
      m.contains c = true) ∧
    (m.contains a = false → m.readByte a = .error (.memoryOutOfBounds a) ∧
      m.readWord a = .error (.memoryOutOfBounds a))

/-- Writes (20_memory.md R56, R57). -/
def Obligations.MemoryWrites : Prop :=
  ∀ (m : Memory) (a : Word), m.wf →
    (m.contains a = true → ∀ b : Byte, ∃ m', m.writeByte a b = .ok m' ∧
      m'.start = m.start ∧ m'.stackEnd = m.stackEnd ∧ m'.words.length = m.words.length ∧
      m'.capacity = m.capacity ∧ m'.readByte a = .ok b ∧
      ∀ c, c ≠ a → m'.readByte c = m.readByte c) ∧
    (m.contains a = true → m.byteOffset a = 0 → ∀ v : Word, ∃ m', m.writeWord a v = .ok m' ∧
      m' = { m with words := m.words.set (m.wordIndex a) v } ∧ m'.readWord a = .ok v ∧
      (∀ j < 8, ∀ c : Word, c.toNat = a.toNat + j → m'.readByte c = .ok (byteOf v j)) ∧
      ∀ c, ¬ InBytes a 8 c → m'.readByte c = m.readByte c) ∧
    (m.contains a = true → m.byteOffset a ≠ 0 → ∀ v : Word,
      m.writeWord a v = .error (.misalignedWordAccess a)) ∧
    (m.contains a = false → ∀ (b : Byte) (v : Word),
      m.writeByte a b = .error (.memoryOutOfBounds a) ∧
      m.writeWord a v = .error (.memoryOutOfBounds a))

/-- Push (20_memory.md R58). That the bytes of `v` are at the new `stack.end`, least significant first, is
the sentence of R58 that the spec marks as derived from R53. -/
def Obligations.PushGrowsTheStackDown : Prop :=
  ∀ (m : Memory) (v : Word),
    (m.words.length = m.capacity → m.push v = .error .sizeLimitReached) ∧
    (m.words.length ≠ m.capacity → ∃ m', m.push v = .ok m' ∧
      m'.words = v :: m.words ∧ m'.stackEnd = m.stackEnd - 8 ∧ m'.start = m.start ∧
      m'.capacity = m.capacity ∧
      (m.wf → (∀ j < 8, ∀ a : Word, a.toNat = m'.stackEnd.toNat + j →
          m'.readByte a = .ok (byteOf v j)) ∧
        ∀ a, ¬ InBytes m'.stackEnd 8 a → m'.readByte a = m.readByte a))

/-- Pop (20_memory.md R59). -/
def Obligations.PopUndoesPush : Prop :=
  ∀ m : Memory, (m.words = [] → m.pop = .error .stackUnderflow) ∧
    (∀ w ws, m.words = w :: ws → ∃ m', m.pop = .ok (w, m') ∧ m'.words = ws ∧
      m'.stackEnd = m.stackEnd + 8 ∧ m'.start = m.start ∧ m'.capacity = m.capacity ∧
      (m.wf → m'.stackEnd.toNat ≤ m'.start.toNat ∧
        (∀ a, InBytes m.stackEnd 8 a → m'.readByte a = .error (.memoryOutOfBounds a)) ∧
        ∀ a, ¬ InBytes m.stackEnd 8 a → m'.readByte a = m.readByte a)) ∧
    ∀ v m', m.push v = .ok m' → m'.pop = .ok (v, m)

/-- The stack invariants (10_state.md R36, with the constraint of 00_scope.md R7). -/
def Obligations.EveryStepKeepsTheStackInvariant : Prop :=
  (∀ s t : State, s.mem.wf → step s = .next t → t.mem.wf) ∧
    (∀ s t : State, Reaches s t → s.mem.wf → t.mem.wf) ∧
    ∀ program input base capacity map policy s, launchOk base capacity = true →
      Reaches (State.launch program input base capacity map policy) s → s.mem.wf

/-- The invariant of 10_state.md R36 at reset. -/
def Obligations.ResetMeetsTheStackInvariant : Prop :=
  State.reset.mem.wf ∧ launchOk Config.stackBase Config.stackCapacityWords = true

/-- `start` is constant for the run (10_state.md R36) and `PROGRAM` cannot be written (20_memory.md R65). -/
def Obligations.RunParametersNeverChange : Prop :=
  (∀ s t : State, step s = .next t → ParamsKept s t) ∧ ∀ s t : State, Reaches s t → ParamsKept s t

/-- The streams (10_state.md R38, 46_misc.md R202, R203, 60_exceptions.md R218). -/
def Obligations.StreamsOnlyMoveForward : Prop :=
  (∀ s t : State, step s = .next t →
      (∃ taken, s.input = taken ++ t.input ∧ taken.length ≤ 1) ∧
      ∃ added, t.output = s.output ++ added ∧ added.length ≤ 1) ∧
    ∀ (i : Instr) (s t : State), exec i s = .next t →
      (i.op ≠ .read → t.input = s.input) ∧ (i.op ≠ .print → t.output = s.output)

/-- The step (70_reset_and_hazards.md R233, 10_state.md R37). That an ended state answers the outcome `fault (runEnded status)` is the model's (log 1). -/
def Obligations.RunningStatesStepEndedOnesDoNot : Prop :=
  (∀ s : State, s.status = .running → ∃ t, step s = .next t) ∧
    (∀ s : State, s.status ≠ .running → step s = .fault (.runEnded s.status)) ∧
    ∀ (i : Instr) (s : State), ∃ t, exec i s = .next t

/-- The step (70_reset_and_hazards.md R233): it decodes at the pc under the run's own opcode map
(00_scope.md R7), so the bytes of an instruction under that map run as the instruction. That a mnemonic
runs its own meaning also under a map whose group field is not its family's number (30_encoding.md R83,
R96) is the model's choice (log 6). -/
def Obligations.StepRunsTheDecodedInstruction : Prop :=
  (∀ (s : State) (i : Instr) (L : Nat), s.status = .running →
      decodeAtWith s.opcodes.toMap s.program s.pc.toNat = .ok (i, L) → step s = exec i s) ∧
    ∀ (s : State) (i : Instr) (pre post : List Byte), s.status = .running →
      (∀ o o', s.opcodes.toMap o = s.opcodes.toMap o' → o = o') →
      s.program = pre ++ encodeWith s.opcodes.toMap i.toRaw ++ post → s.pc.toNat = pre.length →
      step s = exec i s

/-- Fetch faults (10_state.md R34, 60_exceptions.md R212). -/
def Obligations.StepTakesDecodeFaults : Prop :=
  (∀ (s : State) (k : FaultKind), s.status = .running →
      decodeAtWith s.opcodes.toMap s.program s.pc.toNat = .error k → step s = .next (faultedAs s k)) ∧
    (∀ s : State, s.status = .running → s.program.length ≤ s.pc.toNat →
      step s = .next (faultedAs s .pcOutOfRange)) ∧
    ∀ s : State, s.status = .running → s.pc.toNat < s.program.length →
      s.program.length < s.pc.toNat + 4 → step s = .next (faultedAs s .truncated)

/-- Precise faults (60_exceptions.md R212). -/
def Obligations.FaultsArePrecise : Prop :=
  ∀ (s t : State) (k : FaultKind), step s = .next t → t.status = .faulted k → t = faultedAs s k

/-- Addition (40_arithmetic.md R121 to R124). -/
def Obligations.AddForms : Prop :=
  (opcodeMap .addts = ⟨1, 0, 0⟩ ∧ opcodeMap .addtu = ⟨1, 1, 0⟩ ∧ opcodeMap .addis = ⟨1, 2, 0⟩ ∧ opcodeMap .addiu = ⟨1, 3, 0⟩) ∧
    (∀ d a b, TakesCommonFaults (.addts d a b)) ∧
    (∀ d a b, TakesCommonFaults (.addtu d a b)) ∧
    (∀ d b, TakesCommonFaults (.addis d b)) ∧
    (∀ d b, TakesCommonFaults (.addiu d b)) ∧
    (∀ d a b s, let i : Instr := .addts d a b
      NoCommonFault i s → ∃ t, exec i s = .next t ∧ WritesReg i s t d (wrap ((opAt i s a).s + (opAt i s b).s))) ∧
    (∀ d a b s, let i : Instr := .addtu d a b
      NoCommonFault i s → ∃ t, exec i s = .next t ∧ WritesReg i s t d (wrap ((opAt i s a).u + (opAt i s b).u))) ∧
    (∀ d b s, let i : Instr := .addis d b
      NoCommonFault i s → ∃ t, exec i s = .next t ∧ WritesReg i s t d (wrap ((regAt i s d).s + (opAt i s b).s))) ∧
    (∀ d b s, let i : Instr := .addiu d b
      NoCommonFault i s → ∃ t, exec i s = .next t ∧ WritesReg i s t d (wrap ((regAt i s d).u + (opAt i s b).u)))

/-- Subtraction (40_arithmetic.md R125 to R128). -/
def Obligations.SubtractForms : Prop :=
  (opcodeMap .subts = ⟨2, 0, 0⟩ ∧ opcodeMap .subtu = ⟨2, 1, 0⟩ ∧ opcodeMap .subis = ⟨2, 2, 0⟩ ∧ opcodeMap .subiu = ⟨2, 3, 0⟩) ∧
    (∀ d a b, TakesCommonFaults (.subts d a b)) ∧
    (∀ d a b, TakesCommonFaults (.subtu d a b)) ∧
    (∀ d b, TakesCommonFaults (.subis d b)) ∧
    (∀ d b, TakesCommonFaults (.subiu d b)) ∧
    (∀ d a b s, let i : Instr := .subts d a b
      NoCommonFault i s → ∃ t, exec i s = .next t ∧ WritesReg i s t d (wrap ((opAt i s a).s - (opAt i s b).s))) ∧
    (∀ d a b s, let i : Instr := .subtu d a b
      NoCommonFault i s → ∃ t, exec i s = .next t ∧ WritesReg i s t d (wrap ((opAt i s a).u - (opAt i s b).u))) ∧
    (∀ d b s, let i : Instr := .subis d b
      NoCommonFault i s → ∃ t, exec i s = .next t ∧ WritesReg i s t d (wrap ((regAt i s d).s - (opAt i s b).s))) ∧
    (∀ d b s, let i : Instr := .subiu d b
      NoCommonFault i s → ∃ t, exec i s = .next t ∧ WritesReg i s t d (wrap ((regAt i s d).u - (opAt i s b).u)))

/-- The suffix changes no result (40_arithmetic.md R120 and 43_muldiv.md R150, both marked as derived by the spec). -/
def Obligations.SignednessChangesNoWrappedResult : Prop :=
  (∀ a b : Word, addSigned a b = a + b ∧ addUnsigned a b = a + b ∧ subSigned a b = a - b ∧
      subUnsigned a b = a - b ∧ mulSigned a b = a * b ∧ mulUnsigned a b = a * b) ∧
    ∀ d a b s, exec (.addts d a b) s = exec (.addtu d a b) s ∧
      exec (.subts d a b) s = exec (.subtu d a b) s ∧
      exec (.mults_e d a b) s = exec (.multu_e d a b) s ∧
      exec (.addis d b) s = exec (.addiu d b) s ∧ exec (.subis d b) s = exec (.subiu d b) s ∧
      exec (.mulis_e d b) s = exec (.muliu_e d b) s

/-- Logical left shifts (41_shift.md R131, R132). -/
def Obligations.ShiftLeftForms : Prop :=
  (opcodeMap .lshlt = ⟨3, 0, 1⟩ ∧ opcodeMap .lshli = ⟨3, 2, 1⟩) ∧
    (∀ d a b, TakesCommonFaults (.lshlt d a b)) ∧
    (∀ d b, TakesCommonFaults (.lshli d b)) ∧
    (∀ d a b s, let i : Instr := .lshlt d a b
      NoCommonFault i s → ∃ t, exec i s = .next t ∧ WritesReg i s t d ((opAt i s a) <<< ((opAt i s b).toNat % 64))) ∧
    (∀ d b s, let i : Instr := .lshli d b
      NoCommonFault i s → ∃ t, exec i s = .next t ∧ WritesReg i s t d ((regAt i s d) <<< ((opAt i s b).toNat % 64)))

/-- Logical right shifts (41_shift.md R133, R134). -/
def Obligations.ShiftRightLogicalForms : Prop :=
  (opcodeMap .lshrt = ⟨4, 0, 1⟩ ∧ opcodeMap .lshri = ⟨4, 2, 1⟩) ∧
    (∀ d a b, TakesCommonFaults (.lshrt d a b)) ∧
    (∀ d b, TakesCommonFaults (.lshri d b)) ∧
    (∀ d a b s, let i : Instr := .lshrt d a b
      NoCommonFault i s → ∃ t, exec i s = .next t ∧ WritesReg i s t d ((opAt i s a) >>> ((opAt i s b).toNat % 64))) ∧
    (∀ d b s, let i : Instr := .lshri d b
      NoCommonFault i s → ∃ t, exec i s = .next t ∧ WritesReg i s t d ((regAt i s d) >>> ((opAt i s b).toNat % 64)))

/-- Arithmetic right shifts (41_shift.md R135, R136). -/
def Obligations.ShiftRightArithmeticForms : Prop :=
  (opcodeMap .ashrt = ⟨5, 0, 1⟩ ∧ opcodeMap .ashri = ⟨5, 2, 1⟩) ∧
    (∀ d a b, TakesCommonFaults (.ashrt d a b)) ∧
    (∀ d b, TakesCommonFaults (.ashri d b)) ∧
    (∀ d a b s, let i : Instr := .ashrt d a b
      NoCommonFault i s → ∃ t, exec i s = .next t ∧ WritesReg i s t d ((opAt i s a).sshiftRight ((opAt i s b).toNat % 64))) ∧
    (∀ d b s, let i : Instr := .ashri d b
      NoCommonFault i s → ∃ t, exec i s = .next t ∧ WritesReg i s t d ((regAt i s d).sshiftRight ((opAt i s b).toNat % 64)))

/-- Bit logic (42_bitlogic.md R141 to R146). -/
def Obligations.BitLogicForms : Prop :=
  (opcodeMap .andt = ⟨6, 0, 2⟩ ∧ opcodeMap .ort = ⟨7, 0, 2⟩ ∧ opcodeMap .xort = ⟨8, 0, 2⟩ ∧ opcodeMap .andi = ⟨6, 2, 2⟩ ∧ opcodeMap .ori = ⟨7, 2, 2⟩ ∧ opcodeMap .xori = ⟨8, 2, 2⟩) ∧
    (∀ d a b, TakesCommonFaults (.andt d a b)) ∧
    (∀ d a b, TakesCommonFaults (.ort d a b)) ∧
    (∀ d a b, TakesCommonFaults (.xort d a b)) ∧
    (∀ d b, TakesCommonFaults (.andi d b)) ∧
    (∀ d b, TakesCommonFaults (.ori d b)) ∧
    (∀ d b, TakesCommonFaults (.xori d b)) ∧
    (∀ d a b s, let i : Instr := .andt d a b
      NoCommonFault i s → ∃ t, exec i s = .next t ∧ WritesReg i s t d (opAt i s a &&& opAt i s b)) ∧
    (∀ d a b s, let i : Instr := .ort d a b
      NoCommonFault i s → ∃ t, exec i s = .next t ∧ WritesReg i s t d (opAt i s a ||| opAt i s b)) ∧
    (∀ d a b s, let i : Instr := .xort d a b
      NoCommonFault i s → ∃ t, exec i s = .next t ∧ WritesReg i s t d (opAt i s a ^^^ opAt i s b)) ∧
    (∀ d b s, let i : Instr := .andi d b
      NoCommonFault i s → ∃ t, exec i s = .next t ∧ WritesReg i s t d (regAt i s d &&& opAt i s b)) ∧
    (∀ d b s, let i : Instr := .ori d b
      NoCommonFault i s → ∃ t, exec i s = .next t ∧ WritesReg i s t d (regAt i s d ||| opAt i s b)) ∧
    (∀ d b s, let i : Instr := .xori d b
      NoCommonFault i s → ∃ t, exec i s = .next t ∧ WritesReg i s t d (regAt i s d ^^^ opAt i s b))

/-- Bitwise not (42_bitlogic.md R147, R148). -/
def Obligations.NotForms : Prop :=
  (opcodeMap .nott = ⟨9, 0, 2⟩ ∧ opcodeMap .noi = ⟨9, 2, 2⟩) ∧
    (∀ d a, TakesCommonFaults (.nott d a)) ∧
    (∀ d, TakesCommonFaults (.noi d)) ∧
    (∀ d a s, let i : Instr := .nott d a
      NoCommonFault i s → ∃ t, exec i s = .next t ∧ WritesReg i s t d (~~~(opAt i s a))) ∧
    (∀ d s, let i : Instr := .noi d
      NoCommonFault i s → ∃ t, exec i s = .next t ∧ WritesReg i s t d (~~~(regAt i s d)))

/-- Multiplication (43_muldiv.md R152 to R155). -/
def Obligations.MultiplyForms : Prop :=
  (opcodeMap .mults_e = ⟨10, 0, 3⟩ ∧ opcodeMap .multu_e = ⟨10, 1, 3⟩ ∧ opcodeMap .mulis_e = ⟨10, 2, 3⟩ ∧ opcodeMap .muliu_e = ⟨10, 3, 3⟩) ∧
    (∀ d a b, TakesCommonFaults (.mults_e d a b)) ∧
    (∀ d a b, TakesCommonFaults (.multu_e d a b)) ∧
    (∀ d b, TakesCommonFaults (.mulis_e d b)) ∧
    (∀ d b, TakesCommonFaults (.muliu_e d b)) ∧
    (∀ d a b s, let i : Instr := .mults_e d a b
      NoCommonFault i s → ∃ t, exec i s = .next t ∧ WritesReg i s t d (wrap ((opAt i s a).s * (opAt i s b).s))) ∧
    (∀ d a b s, let i : Instr := .multu_e d a b
      NoCommonFault i s → ∃ t, exec i s = .next t ∧ WritesReg i s t d (wrap ((opAt i s a).u * (opAt i s b).u))) ∧
    (∀ d b s, let i : Instr := .mulis_e d b
      NoCommonFault i s → ∃ t, exec i s = .next t ∧ WritesReg i s t d (wrap ((regAt i s d).s * (opAt i s b).s))) ∧
    (∀ d b s, let i : Instr := .muliu_e d b
      NoCommonFault i s → ∃ t, exec i s = .next t ∧ WritesReg i s t d (wrap ((regAt i s d).u * (opAt i s b).u)))

/-- Signed division (43_muldiv.md R156, with the quotient and remainder of R151). That the overflow case is a fault is marked in R151 as general knowledge (log 10). -/
def Obligations.SignedDivision : Prop :=
  (opcodeMap .divts_e = ⟨11, 0, 3⟩) ∧
    (∀ dq dr n m, TakesCommonFaults (.divts_e dq dr n m)) ∧
    (∀ dq dr n m s, let i : Instr := .divts_e dq dr n m
      NoCommonFault i s → (opAt i s m).s ≠ 0 →
      ¬((opAt i s n).s = -2 ^ 63 ∧ (opAt i s m).s = -1) → ∃ t q r, exec i s = .next t ∧
        (opAt i s n).s = q * (opAt i s m).s + r ∧ |r| < |(opAt i s m).s| ∧
        (r ≠ 0 → r.sign = (opAt i s n).s.sign) ∧
        (dr ≠ .zero → t.readReg dr = wrap r ∧ t.defined dr = true) ∧
        (dq ≠ .zero → t.defined dq = true ∧ (dq ≠ dr → t.readReg dq = wrap q)) ∧
        t.readReg .zero = 0 ∧ RegsKept [dq, dr, .instruction] s t ∧
        (dq ≠ .instruction → dr ≠ .instruction → t.pc = npc i s) ∧ MemKept s t ∧ RunKept s t) ∧
    (∀ dq dr n m s, let i : Instr := .divts_e dq dr n m
      NoCommonFault i s → (opAt i s m).s = 0 → exec i s = .next (faultedAs s .divideByZero)) ∧
    (∀ dq dr n m s, let i : Instr := .divts_e dq dr n m
      NoCommonFault i s → (opAt i s n).s = -2 ^ 63 → (opAt i s m).s = -1 →
      exec i s = .next (faultedAs s .divideOverflow))

/-- Unsigned division (43_muldiv.md R157). -/
def Obligations.UnsignedDivision : Prop :=
  (opcodeMap .divtu_e = ⟨11, 1, 3⟩) ∧
    (∀ dq dr n m, TakesCommonFaults (.divtu_e dq dr n m)) ∧
    (∀ dq dr n m s, let i : Instr := .divtu_e dq dr n m
      NoCommonFault i s → (opAt i s m).u ≠ 0 → ∃ t q r, exec i s = .next t ∧
        (opAt i s n).u = q * (opAt i s m).u + r ∧ 0 ≤ r ∧ r < (opAt i s m).u ∧
        (dr ≠ .zero → t.readReg dr = wrap r ∧ t.defined dr = true) ∧
        (dq ≠ .zero → t.defined dq = true ∧ (dq ≠ dr → t.readReg dq = wrap q)) ∧
        t.readReg .zero = 0 ∧ RegsKept [dq, dr, .instruction] s t ∧
        (dq ≠ .instruction → dr ≠ .instruction → t.pc = npc i s) ∧ MemKept s t ∧ RunKept s t) ∧
    (∀ dq dr n m s, let i : Instr := .divtu_e dq dr n m
      NoCommonFault i s → (opAt i s m).u = 0 → exec i s = .next (faultedAs s .divideByZero))

/-- Unconditional jump (44_control.md R162). -/
def Obligations.UnconditionalJump : Prop :=
  (opcodeMap .jmp = ⟨12, 0, 4⟩) ∧
    (∀ t, TakesCommonFaults (.jmp t)) ∧
    (∀ target s, let i : Instr := .jmp target
      NoCommonFault i s → ∃ t, exec i s = .next t ∧ Transfers s t target) ∧
    (∀ t, (encode (.jmp t))[3]? = some 0x80) ∧
    (∀ s, NoCommonFault (.jmp s.pc) s → exec (.jmp s.pc) s = .next s) ∧
    ∀ target s t, s.status = .running → NoCommonFault (.jmp target) s →
      target.toNat = s.program.length → exec (.jmp target) s = .next t →
      step t = .next (faultedAs t .pcOutOfRange)

/-- Equality and signed jumps (44_control.md R163 to R168). -/
def Obligations.EqualityAndSignedJumps : Prop :=
  (opcodeMap .jmpeq = ⟨13, 0, 4⟩ ∧ opcodeMap .jmpne = ⟨14, 0, 4⟩ ∧ opcodeMap .jmpgts = ⟨15, 0, 4⟩ ∧ opcodeMap .jmpges = ⟨16, 0, 4⟩ ∧ opcodeMap .jmplts = ⟨17, 0, 4⟩ ∧ opcodeMap .jmples = ⟨18, 0, 4⟩) ∧
    (∀ t a b, TakesCommonFaults (.jmpeq t a b)) ∧
    (∀ t a b, TakesCommonFaults (.jmpne t a b)) ∧
    (∀ t a b, TakesCommonFaults (.jmpgts t a b)) ∧
    (∀ t a b, TakesCommonFaults (.jmpges t a b)) ∧
    (∀ t a b, TakesCommonFaults (.jmplts t a b)) ∧
    (∀ t a b, TakesCommonFaults (.jmples t a b)) ∧
    (∀ target a b s, let i : Instr := .jmpeq target a b
      NoCommonFault i s → ∃ t, exec i s = .next t ∧
        Transfers s t (if opAt i s a = opAt i s b then target else npc i s)) ∧
    (∀ target a b s, let i : Instr := .jmpne target a b
      NoCommonFault i s → ∃ t, exec i s = .next t ∧
        Transfers s t (if opAt i s a ≠ opAt i s b then target else npc i s)) ∧
    (∀ target a b s, let i : Instr := .jmpgts target a b
      NoCommonFault i s → ∃ t, exec i s = .next t ∧
        Transfers s t (if (opAt i s a).toInt > (opAt i s b).toInt then target else npc i s)) ∧
    (∀ target a b s, let i : Instr := .jmpges target a b
      NoCommonFault i s → ∃ t, exec i s = .next t ∧
        Transfers s t (if (opAt i s a).toInt ≥ (opAt i s b).toInt then target else npc i s)) ∧
    (∀ target a b s, let i : Instr := .jmplts target a b
      NoCommonFault i s → ∃ t, exec i s = .next t ∧
        Transfers s t (if (opAt i s a).toInt < (opAt i s b).toInt then target else npc i s)) ∧
    (∀ target a b s, let i : Instr := .jmples target a b
      NoCommonFault i s → ∃ t, exec i s = .next t ∧
        Transfers s t (if (opAt i s a).toInt ≤ (opAt i s b).toInt then target else npc i s))

/-- Unsigned jumps (44_control.md R169 to R172). -/
def Obligations.UnsignedJumps : Prop :=
  (opcodeMap .jmpgtu = ⟨15, 1, 4⟩ ∧ opcodeMap .jmpgeu = ⟨16, 1, 4⟩ ∧ opcodeMap .jmpltu = ⟨17, 1, 4⟩ ∧ opcodeMap .jmpleu = ⟨18, 1, 4⟩) ∧
    (∀ t a b, TakesCommonFaults (.jmpgtu t a b)) ∧
    (∀ t a b, TakesCommonFaults (.jmpgeu t a b)) ∧
    (∀ t a b, TakesCommonFaults (.jmpltu t a b)) ∧
    (∀ t a b, TakesCommonFaults (.jmpleu t a b)) ∧
    (∀ target a b s, let i : Instr := .jmpgtu target a b
      NoCommonFault i s → ∃ t, exec i s = .next t ∧
        Transfers s t (if (opAt i s a).toNat > (opAt i s b).toNat then target else npc i s)) ∧
    (∀ target a b s, let i : Instr := .jmpgeu target a b
      NoCommonFault i s → ∃ t, exec i s = .next t ∧
        Transfers s t (if (opAt i s a).toNat ≥ (opAt i s b).toNat then target else npc i s)) ∧
    (∀ target a b s, let i : Instr := .jmpltu target a b
      NoCommonFault i s → ∃ t, exec i s = .next t ∧
        Transfers s t (if (opAt i s a).toNat < (opAt i s b).toNat then target else npc i s)) ∧
    (∀ target a b s, let i : Instr := .jmpleu target a b
      NoCommonFault i s → ∃ t, exec i s = .next t ∧
        Transfers s t (if (opAt i s a).toNat ≤ (opAt i s b).toNat then target else npc i s))

/-- Call (44_control.md R173). That the bytes of `npc` are at the new `stack.end`, least significant first, is
the sentence of 20_memory.md R58 that the spec marks as derived from R53. -/
def Obligations.CallPushesTheReturnAddress : Prop :=
  (opcodeMap .cal = ⟨19, 0, 4⟩ ∧ ∀ t, (encode (.cal t))[3]? = some 0x80) ∧
    (∀ t, TakesCommonFaults (.cal t)) ∧
    (∀ target s, let i : Instr := .cal target
      NoCommonFault i s → s.mem.wf → s.mem.words.length ≠ s.mem.capacity →
      ∃ t, exec i s = .next t ∧ t.pc = target ∧ RegsKept [.stackEnd, .instruction] s t ∧
        t.mem.words = npc i s :: s.mem.words ∧ t.mem.stackEnd = s.mem.stackEnd - 8 ∧
        (∀ j < 8, ∀ a : Word, a.toNat = t.mem.stackEnd.toNat + j →
          byteAt t a = some (byteOf (npc i s) j)) ∧
        (∀ a, ¬ InBytes t.mem.stackEnd 8 a → byteAt t a = byteAt s a) ∧ RunKept s t) ∧
    (∀ target s, let i : Instr := .cal target
      NoCommonFault i s → s.mem.words.length = s.mem.capacity →
      exec i s = .next (faultedAs s .sizeLimitReached))

/-- Return (44_control.md R174). -/
def Obligations.ReturnPopsTheReturnAddress : Prop :=
  (opcodeMap .ret = ⟨20, 0, 4⟩) ∧
    (∀ v, TakesCommonFaults (.ret v)) ∧
    (∀ v s w ws, let i : Instr := .ret v
      NoCommonFault i s → s.mem.wf → s.mem.words = w :: ws →
      ∃ t, exec i s = .next t ∧ t.pc = w ∧ t.readReg .ret = opAt i s v ∧ t.defined .ret = true ∧
        RegsKept [.ret, .stackEnd, .instruction] s t ∧
        t.mem.words = ws ∧ t.mem.stackEnd = s.mem.stackEnd + 8 ∧
        (∀ a, byteAt t a = if InBytes s.mem.stackEnd 8 a then none else byteAt s a) ∧ RunKept s t) ∧
    (∀ v s, let i : Instr := .ret v
      NoCommonFault i s → s.mem.words = [] → exec i s = .next (faultedAs s .stackUnderflow))

/-- Move (45_memory_ops.md R181). -/
def Obligations.MoveCopies : Prop :=
  (opcodeMap .mov = ⟨21, 0, 5⟩) ∧
    (∀ d v, TakesCommonFaults (.mov d v)) ∧
    (∀ d v s, let i : Instr := .mov d v
      NoCommonFault i s → ∃ t, exec i s = .next t ∧ WritesReg i s t d (opAt i s v)) ∧
    (∀ d s, opAt (.mov d (.reg .instruction)) s (.reg .instruction) =
      BitVec.ofNat 64 (s.pc.toNat + 6) ∧ opAt (.mov d (.reg .zero)) s (.reg .zero) = 0)

/-- Word loads (45_memory_ops.md R182, R183). -/
def Obligations.WordLoads : Prop :=
  (opcodeMap .load = ⟨22, 0, 5⟩ ∧ opcodeMap .loado = ⟨22, 8, 5⟩ ∧
      ∀ d base, (encode (.load d base))[3]? = some 0x00) ∧
    (∀ d base, TakesCommonFaults (.load d base)) ∧
    (∀ d base off, TakesCommonFaults (.loado d base off)) ∧
    (∀ d base s, let i : Instr := .load d base
      let a := regAt i s base
      NoCommonFault i s → s.mem.wf → s.mem.contains a = true → s.mem.byteOffset a = 0 →
      ∃ t w, s.mem.words[s.mem.wordIndex a]? = some w ∧ exec i s = .next t ∧
        WritesReg i s t d w) ∧
    (∀ d base s, let i : Instr := .load d base
      let a := regAt i s base
      NoCommonFault i s → (s.mem.contains a = false →
        exec i s = .next (faultedAs s (.memoryOutOfBounds a))) ∧
      (s.mem.wf → s.mem.contains a = true → s.mem.byteOffset a ≠ 0 →
        exec i s = .next (faultedAs s (.misalignedWordAccess a)))) ∧
    (∀ d base off s, let i : Instr := .loado d base off
      let a := offsetAt i s base off
      NoCommonFault i s → s.mem.wf → s.mem.contains a = true → s.mem.byteOffset a = 0 →
      ∃ t w, s.mem.words[s.mem.wordIndex a]? = some w ∧ exec i s = .next t ∧
        WritesReg i s t d w) ∧
    (∀ d base off s, let i : Instr := .loado d base off
      let a := offsetAt i s base off
      NoCommonFault i s → (s.mem.contains a = false →
        exec i s = .next (faultedAs s (.memoryOutOfBounds a))) ∧
      (s.mem.wf → s.mem.contains a = true → s.mem.byteOffset a ≠ 0 →
        exec i s = .next (faultedAs s (.misalignedWordAccess a))))

/-- Byte loads (45_memory_ops.md R184, R185). -/
def Obligations.ByteLoads : Prop :=
  (opcodeMap .loadb = ⟨22, 4, 5⟩ ∧ opcodeMap .loadbo = ⟨22, 12, 5⟩ ∧
      ∀ d base, (encode (.loadb d base))[3]? = some 0x00) ∧
    (∀ d base, TakesCommonFaults (.loadb d base)) ∧
    (∀ d base off, TakesCommonFaults (.loadbo d base off)) ∧
    (∀ d base s, let i : Instr := .loadb d base
      let a := regAt i s base
      NoCommonFault i s → s.mem.wf → s.mem.contains a = true →
      ∃ t w, s.mem.words[s.mem.wordIndex a]? = some w ∧ exec i s = .next t ∧
        WritesReg i s t d (BitVec.ofNat 64 (w.toNat / 256 ^ s.mem.byteOffset a % 256))) ∧
    (∀ d base s, let i : Instr := .loadb d base
      let a := regAt i s base
      NoCommonFault i s → s.mem.contains a = false →
      exec i s = .next (faultedAs s (.memoryOutOfBounds a))) ∧
    (∀ d base off s, let i : Instr := .loadbo d base off
      let a := offsetAt i s base off
      NoCommonFault i s → s.mem.wf → s.mem.contains a = true →
      ∃ t w, s.mem.words[s.mem.wordIndex a]? = some w ∧ exec i s = .next t ∧
        WritesReg i s t d (BitVec.ofNat 64 (w.toNat / 256 ^ s.mem.byteOffset a % 256))) ∧
    (∀ d base off s, let i : Instr := .loadbo d base off
      let a := offsetAt i s base off
      NoCommonFault i s → s.mem.contains a = false →
      exec i s = .next (faultedAs s (.memoryOutOfBounds a)))

/-- Word stores (45_memory_ops.md R186, R187). -/
def Obligations.WordStores : Prop :=
  (opcodeMap .stor = ⟨23, 0, 5⟩ ∧ opcodeMap .storo = ⟨23, 8, 5⟩) ∧
    (∀ v base, TakesCommonFaults (.stor v base)) ∧
    (∀ v base off, TakesCommonFaults (.storo v base off)) ∧
    (∀ v base s, let i : Instr := .stor v base
      let a := regAt i s base
      NoCommonFault i s → s.mem.wf → s.mem.contains a = true → s.mem.byteOffset a = 0 →
      ∃ t, exec i s = .next t ∧ t.pc = npc i s ∧ RegsKept [.instruction] s t ∧
        t.mem = { s.mem with words := s.mem.words.set (s.mem.wordIndex a) (opAt i s v) } ∧
        (∀ j < 8, ∀ c : Word, c.toNat = a.toNat + j →
          byteAt t c = some (byteOf (opAt i s v) j)) ∧
        (∀ c, ¬ InBytes a 8 c → byteAt t c = byteAt s c) ∧ RunKept s t) ∧
    (∀ v base s, let i : Instr := .stor v base
      let a := regAt i s base
      NoCommonFault i s → (s.mem.contains a = false →
        exec i s = .next (faultedAs s (.memoryOutOfBounds a))) ∧
      (s.mem.wf → s.mem.contains a = true → s.mem.byteOffset a ≠ 0 →
        exec i s = .next (faultedAs s (.misalignedWordAccess a)))) ∧
    (∀ v base off s, let i : Instr := .storo v base off
      let a := offsetAt i s base off
      NoCommonFault i s → s.mem.wf → s.mem.contains a = true → s.mem.byteOffset a = 0 →
      ∃ t, exec i s = .next t ∧ t.pc = npc i s ∧ RegsKept [.instruction] s t ∧
        t.mem = { s.mem with words := s.mem.words.set (s.mem.wordIndex a) (opAt i s v) } ∧
        (∀ j < 8, ∀ c : Word, c.toNat = a.toNat + j →
          byteAt t c = some (byteOf (opAt i s v) j)) ∧
        (∀ c, ¬ InBytes a 8 c → byteAt t c = byteAt s c) ∧ RunKept s t) ∧
    (∀ v base off s, let i : Instr := .storo v base off
      let a := offsetAt i s base off
      NoCommonFault i s → (s.mem.contains a = false →
        exec i s = .next (faultedAs s (.memoryOutOfBounds a))) ∧
      (s.mem.wf → s.mem.contains a = true → s.mem.byteOffset a ≠ 0 →
        exec i s = .next (faultedAs s (.misalignedWordAccess a))))

/-- Byte stores (45_memory_ops.md R188, R189). -/
def Obligations.ByteStores : Prop :=
  (opcodeMap .storb = ⟨23, 4, 5⟩ ∧ opcodeMap .storbo = ⟨23, 12, 5⟩) ∧
    (∀ v base, TakesCommonFaults (.storb v base)) ∧
    (∀ v base off, TakesCommonFaults (.storbo v base off)) ∧
    (∀ v base s, let i : Instr := .storb v base
      let a := regAt i s base
      NoCommonFault i s → s.mem.wf → s.mem.contains a = true →
      ∃ t, exec i s = .next t ∧ t.pc = npc i s ∧ RegsKept [.instruction] s t ∧
        t.mem.words.length = s.mem.words.length ∧ byteAt t a = some (byteOf (opAt i s v) 0) ∧
        (∀ c, c ≠ a → byteAt t c = byteAt s c) ∧ RunKept s t) ∧
    (∀ v base s, let i : Instr := .storb v base
      let a := regAt i s base
      NoCommonFault i s → s.mem.contains a = false →
      exec i s = .next (faultedAs s (.memoryOutOfBounds a))) ∧
    (∀ v base off s, let i : Instr := .storbo v base off
      let a := offsetAt i s base off
      NoCommonFault i s → s.mem.wf → s.mem.contains a = true →
      ∃ t, exec i s = .next t ∧ t.pc = npc i s ∧ RegsKept [.instruction] s t ∧
        t.mem.words.length = s.mem.words.length ∧ byteAt t a = some (byteOf (opAt i s v) 0) ∧
        (∀ c, c ≠ a → byteAt t c = byteAt s c) ∧ RunKept s t) ∧
    (∀ v base off s, let i : Instr := .storbo v base off
      let a := offsetAt i s base off
      NoCommonFault i s → s.mem.contains a = false →
      exec i s = .next (faultedAs s (.memoryOutOfBounds a)))

/-- Push (45_memory_ops.md R190). That the bytes of the operand are at the new `stack.end`, least
significant first, is the sentence of 20_memory.md R58 that the spec marks as derived from R53. -/
def Obligations.PushInstruction : Prop :=
  (opcodeMap .push = ⟨24, 0, 5⟩) ∧
    (∀ v, TakesCommonFaults (.push v)) ∧
    (∀ v s, let i : Instr := .push v
      NoCommonFault i s → s.mem.wf → s.mem.words.length ≠ s.mem.capacity →
      ∃ t, exec i s = .next t ∧ t.pc = npc i s ∧ RegsKept [.stackEnd, .instruction] s t ∧
        t.mem.words = opAt i s v :: s.mem.words ∧ t.mem.stackEnd = s.mem.stackEnd - 8 ∧
        (∀ j < 8, ∀ a : Word, a.toNat = t.mem.stackEnd.toNat + j →
          byteAt t a = some (byteOf (opAt i s v) j)) ∧
        (∀ a, ¬ InBytes t.mem.stackEnd 8 a → byteAt t a = byteAt s a) ∧ RunKept s t) ∧
    (∀ v s, let i : Instr := .push v
      NoCommonFault i s → s.mem.words.length = s.mem.capacity →
      exec i s = .next (faultedAs s .sizeLimitReached))

/-- Pop (45_memory_ops.md R191). -/
def Obligations.PopInstruction : Prop :=
  (opcodeMap .pop = ⟨25, 0, 5⟩ ∧ ∀ d, (encode (.pop d))[3]? = some 0x00) ∧
    (∀ d, TakesCommonFaults (.pop d)) ∧
    (∀ d s w ws, let i : Instr := .pop d
      NoCommonFault i s → s.mem.wf → s.mem.words = w :: ws →
      ∃ t, exec i s = .next t ∧ (d ≠ .zero → t.readReg d = w ∧ t.defined d = true) ∧
        RegsKept [d, .stackEnd, .instruction] s t ∧ (d ≠ .instruction → t.pc = npc i s) ∧
        t.mem.words = ws ∧ t.mem.stackEnd = s.mem.stackEnd + 8 ∧
        (∀ a, byteAt t a = if InBytes s.mem.stackEnd 8 a then none else byteAt s a) ∧ RunKept s t) ∧
    (∀ d s, let i : Instr := .pop d
      NoCommonFault i s → s.mem.words = [] → exec i s = .next (faultedAs s .stackUnderflow))

/-- Halt and exit (46_misc.md R200, R201). -/
def Obligations.HaltAndExitEndTheRun : Prop :=
  (opcodeMap .halt = ⟨26, 0, 6⟩ ∧ opcodeMap .exit = ⟨27, 0, 6⟩) ∧
    TakesCommonFaults .halt ∧
    (∀ v, TakesCommonFaults (.exit v)) ∧
    (∀ s, NoCommonFault .halt s → exec .halt s = .next { s with status := .halted }) ∧
    (∀ v s, let i : Instr := .exit v
      NoCommonFault i s → exec i s = .next { s with status := .exited (opAt i s v).s }) ∧
    (∀ mode, decodeAt [0x1A, 0x00, 0x06, mode] 0 = .ok (.halt, 4)) ∧
    ∀ s t : State, s.status = .halted ∨ (∃ code, s.status = .exited code) → step s ≠ .next t

/-- Print (46_misc.md R202). -/
def Obligations.PrintAppendsTheLowByte : Prop :=
  (opcodeMap .print = ⟨28, 0, 6⟩) ∧
    (∀ v, TakesCommonFaults (.print v)) ∧
    (∀ v s, let i : Instr := .print v
      NoCommonFault i s → exec i s =
        .next { s with pc := npc i s, output := s.output ++ [byteOf (opAt i s v) 0] })

/-- Read (46_misc.md R203). -/
def Obligations.ReadTakesOneByte : Prop :=
  (opcodeMap .read = ⟨29, 0, 6⟩) ∧
    (∀ d, TakesCommonFaults (.read d)) ∧
    (∀ d s b bs, let i : Instr := .read d
      NoCommonFault i s → s.input = b :: bs →
      ∃ t, exec i s = .next t ∧ t.input = bs ∧
        (d ≠ .zero → t.readReg d = BitVec.ofNat 64 b.toNat ∧ t.defined d = true) ∧
        RegsKept [d, .instruction] s t ∧ (d ≠ .instruction → t.pc = npc i s) ∧ MemKept s t ∧
        t.output = s.output ∧ t.status = s.status ∧ ParamsKept s t) ∧
    (∀ d s, let i : Instr := .read d
      NoCommonFault i s → s.input = [] → exec i s = .next (faultedAs s .inputExhausted))

/-- Dump and nop (46_misc.md R204, R205). -/
def Obligations.NopAdvancesAndDumpFaults : Prop :=
  (opcodeMap .dump = ⟨30, 0, 6⟩ ∧ opcodeMap .nop = ⟨31, 0, 6⟩) ∧
    TakesCommonFaults .dump ∧
    TakesCommonFaults .nop ∧
    (∀ s, NoCommonFault .nop s → exec .nop s = .next { s with pc := npc .nop s }) ∧
    (∀ s, NoCommonFault .dump s → exec .dump s = .next (faultedAs s .unimplemented)) ∧
    disassemble [0x1E, 0x00, 0x06, 0x00] = .ok [.dump] ∧
    ∀ mode, decodeAt [0x1E, 0x00, 0x06, mode] 0 = .ok (.dump, 4) ∧
      decodeAt [0x1F, 0x00, 0x06, mode] 0 = .ok (.nop, 4)
end

