-- ==== Sys2Proof/Laws/State.lean ====
section
/-! SUPPORT. The state record: one lemma per field per update, and what reading a register yields after
each update. -/

namespace Sys2Proof.Machine

/-- A table holds its opcode map whole. -/
@[simp] theorem toMap_ofMap (map : OpcodeMap) : (OpcodeTable.ofMap map).toMap = map := by
  funext o; cases o <;> rfl

@[simp] theorem State.launch_opcodes (program input : List Byte) (base : Word) (capacity : Nat)
    (map : OpcodeMap) (policy : UninitPolicy) :
    (State.launch program input base capacity map policy).opcodes = .ofMap map := rfl

variable (s : State)

@[simp] theorem State.takeFault_regs (k : FaultKind) : (s.takeFault k).regs = s.regs := rfl
@[simp] theorem State.takeFault_pc (k : FaultKind) : (s.takeFault k).pc = s.pc := rfl
@[simp] theorem State.takeFault_mem (k : FaultKind) : (s.takeFault k).mem = s.mem := rfl
@[simp] theorem State.takeFault_status (k : FaultKind) : (s.takeFault k).status = .faulted k := rfl
@[simp] theorem State.takeFault_input (k : FaultKind) : (s.takeFault k).input = s.input := rfl
@[simp] theorem State.takeFault_output (k : FaultKind) : (s.takeFault k).output = s.output := rfl
@[simp] theorem State.takeFault_program (k : FaultKind) : (s.takeFault k).program = s.program := rfl
@[simp] theorem State.takeFault_opcodes (k : FaultKind) : (s.takeFault k).opcodes = s.opcodes := rfl
@[simp] theorem State.takeFault_uninitPolicy (k : FaultKind) : (s.takeFault k).uninitPolicy = s.uninitPolicy := rfl

@[simp] theorem State.advance_regs (n : Nat) : (s.advance n).regs = s.regs := rfl
@[simp] theorem State.advance_pc (n : Nat) : (s.advance n).pc = BitVec.ofNat 64 (s.pc.toNat + n) := rfl
@[simp] theorem State.advance_mem (n : Nat) : (s.advance n).mem = s.mem := rfl
@[simp] theorem State.advance_status (n : Nat) : (s.advance n).status = s.status := rfl
@[simp] theorem State.advance_input (n : Nat) : (s.advance n).input = s.input := rfl
@[simp] theorem State.advance_output (n : Nat) : (s.advance n).output = s.output := rfl
@[simp] theorem State.advance_program (n : Nat) : (s.advance n).program = s.program := rfl
@[simp] theorem State.advance_opcodes (n : Nat) : (s.advance n).opcodes = s.opcodes := rfl
@[simp] theorem State.advance_uninitPolicy (n : Nat) : (s.advance n).uninitPolicy = s.uninitPolicy := rfl

@[simp] theorem State.withMem_regs (m : Memory) : (s.withMem m).regs = s.regs := rfl
@[simp] theorem State.withMem_pc (m : Memory) : (s.withMem m).pc = s.pc := rfl
@[simp] theorem State.withMem_mem (m : Memory) : (s.withMem m).mem = m := rfl
@[simp] theorem State.withMem_status (m : Memory) : (s.withMem m).status = s.status := rfl
@[simp] theorem State.withMem_input (m : Memory) : (s.withMem m).input = s.input := rfl
@[simp] theorem State.withMem_output (m : Memory) : (s.withMem m).output = s.output := rfl
@[simp] theorem State.withMem_program (m : Memory) : (s.withMem m).program = s.program := rfl
@[simp] theorem State.withMem_opcodes (m : Memory) : (s.withMem m).opcodes = s.opcodes := rfl
@[simp] theorem State.withMem_uninitPolicy (m : Memory) : (s.withMem m).uninitPolicy = s.uninitPolicy := rfl

@[simp] theorem State.jumpTo_regs (a : Word) : (s.jumpTo a).regs = s.regs := rfl
@[simp] theorem State.jumpTo_pc (a : Word) : (s.jumpTo a).pc = a := rfl
@[simp] theorem State.jumpTo_mem (a : Word) : (s.jumpTo a).mem = s.mem := rfl
@[simp] theorem State.jumpTo_status (a : Word) : (s.jumpTo a).status = s.status := rfl
@[simp] theorem State.jumpTo_input (a : Word) : (s.jumpTo a).input = s.input := rfl
@[simp] theorem State.jumpTo_output (a : Word) : (s.jumpTo a).output = s.output := rfl
@[simp] theorem State.jumpTo_program (a : Word) : (s.jumpTo a).program = s.program := rfl
@[simp] theorem State.jumpTo_opcodes (a : Word) : (s.jumpTo a).opcodes = s.opcodes := rfl
@[simp] theorem State.jumpTo_uninitPolicy (a : Word) : (s.jumpTo a).uninitPolicy = s.uninitPolicy := rfl

@[simp] theorem State.terminate_regs (st : Status) : (s.terminate st).regs = s.regs := rfl
@[simp] theorem State.terminate_pc (st : Status) : (s.terminate st).pc = s.pc := rfl
@[simp] theorem State.terminate_mem (st : Status) : (s.terminate st).mem = s.mem := rfl
@[simp] theorem State.terminate_status (st : Status) : (s.terminate st).status = st := rfl
@[simp] theorem State.terminate_input (st : Status) : (s.terminate st).input = s.input := rfl
@[simp] theorem State.terminate_output (st : Status) : (s.terminate st).output = s.output := rfl
@[simp] theorem State.terminate_program (st : Status) : (s.terminate st).program = s.program := rfl
@[simp] theorem State.terminate_opcodes (st : Status) : (s.terminate st).opcodes = s.opcodes := rfl
@[simp] theorem State.terminate_uninitPolicy (st : Status) : (s.terminate st).uninitPolicy = s.uninitPolicy := rfl

@[simp] theorem State.emit_regs (b : Byte) : (s.emit b).regs = s.regs := rfl
@[simp] theorem State.emit_pc (b : Byte) : (s.emit b).pc = s.pc := rfl
@[simp] theorem State.emit_mem (b : Byte) : (s.emit b).mem = s.mem := rfl
@[simp] theorem State.emit_status (b : Byte) : (s.emit b).status = s.status := rfl
@[simp] theorem State.emit_input (b : Byte) : (s.emit b).input = s.input := rfl
@[simp] theorem State.emit_output (b : Byte) : (s.emit b).output = s.output ++ [b] := rfl
@[simp] theorem State.emit_program (b : Byte) : (s.emit b).program = s.program := rfl
@[simp] theorem State.emit_opcodes (b : Byte) : (s.emit b).opcodes = s.opcodes := rfl
@[simp] theorem State.emit_uninitPolicy (b : Byte) : (s.emit b).uninitPolicy = s.uninitPolicy := rfl

@[simp] theorem State.writeReg_mem (r : Reg) (v : Word) : (s.writeReg r v).mem = s.mem := by
  cases r <;> rfl
@[simp] theorem State.writeReg_status (r : Reg) (v : Word) : (s.writeReg r v).status = s.status := by
  cases r <;> rfl
@[simp] theorem State.writeReg_input (r : Reg) (v : Word) : (s.writeReg r v).input = s.input := by
  cases r <;> rfl
@[simp] theorem State.writeReg_output (r : Reg) (v : Word) : (s.writeReg r v).output = s.output := by
  cases r <;> rfl
@[simp] theorem State.writeReg_program (r : Reg) (v : Word) : (s.writeReg r v).program = s.program := by
  cases r <;> rfl
@[simp] theorem State.writeReg_opcodes (r : Reg) (v : Word) : (s.writeReg r v).opcodes = s.opcodes := by
  cases r <;> rfl
@[simp] theorem State.writeReg_uninitPolicy (r : Reg) (v : Word) : (s.writeReg r v).uninitPolicy = s.uninitPolicy := by
  cases r <;> rfl

theorem State.writeReg_regs (r : Reg) (v : Word) : (s.writeReg r v).regs = s.regs.store r v := by
  cases r <;> rfl

theorem State.writeReg_pc (r : Reg) (v : Word) :
    (s.writeReg r v).pc = if r = .instruction then v else s.pc := by
  cases r <;> rfl

@[simp] theorem State.readReg_zero : s.readReg .zero = 0 := rfl
@[simp] theorem State.readReg_instruction : s.readReg .instruction = s.pc := rfl
@[simp] theorem State.readReg_stackBase : s.readReg .stackBase = s.mem.start := rfl
@[simp] theorem State.readReg_stackEnd : s.readReg .stackEnd = s.mem.stackEnd := rfl

/-- A register reads what was written to it, unless it discards the write. -/
theorem State.readReg_writeReg_self (r : Reg) (v : Word) (hz : r ≠ .zero) (hb : r ≠ .stackBase)
    (he : r ≠ .stackEnd) : (s.writeReg r v).readReg r = v := by
  cases r <;> first | rfl | contradiction

/-- Writing one register leaves every other one. -/
theorem State.readReg_writeReg_of_ne (r q : Reg) (v : Word) (h : q ≠ r) :
    (s.writeReg r v).readReg q = s.readReg q := by
  cases r <;> cases q <;> first | rfl | contradiction

/-- A write to the zero register is discarded. -/
@[simp] theorem State.writeReg_zero (v : Word) : s.writeReg .zero v = s := rfl

/-- The written register is defined, every other one as defined as before. -/
theorem State.defined_writeReg (r q : Reg) (v : Word) :
    (s.writeReg r v).defined q = (s.defined q || q == r) := by
  cases r <;> cases q <;> simp [State.defined, State.writeReg, RegFile.cell, RegFile.store]

@[simp] theorem State.readReg_takeFault (k : FaultKind) (r : Reg) : (s.takeFault k).readReg r = s.readReg r := by
  cases r <;> rfl
@[simp] theorem State.defined_takeFault (k : FaultKind) (r : Reg) : (s.takeFault k).defined r = s.defined r := rfl
@[simp] theorem State.defined_advance (n : Nat) (r : Reg) : (s.advance n).defined r = s.defined r := rfl
@[simp] theorem State.defined_withMem (m : Memory) (r : Reg) : (s.withMem m).defined r = s.defined r := rfl
@[simp] theorem State.defined_jumpTo (a : Word) (r : Reg) : (s.jumpTo a).defined r = s.defined r := rfl
@[simp] theorem State.readReg_terminate (st : Status) (r : Reg) : (s.terminate st).readReg r = s.readReg r := by
  cases r <;> rfl
@[simp] theorem State.defined_terminate (st : Status) (r : Reg) : (s.terminate st).defined r = s.defined r := rfl
@[simp] theorem State.readReg_emit (b : Byte) (r : Reg) : (s.emit b).readReg r = s.readReg r := by
  cases r <;> rfl
@[simp] theorem State.defined_emit (b : Byte) (r : Reg) : (s.emit b).defined r = s.defined r := rfl

/-- Another `pc` is seen through `$I` only. -/
theorem State.readReg_advance (n : Nat) (r : Reg) (h : r ≠ .instruction) :
    (s.advance n).readReg r = s.readReg r := by
  cases r <;> first | rfl | contradiction

theorem State.readReg_jumpTo (a : Word) (r : Reg) (h : r ≠ .instruction) :
    (s.jumpTo a).readReg r = s.readReg r := by
  cases r <;> first | rfl | contradiction

/-- Another stack is seen through `$S_B` and `$S_E` only. -/
theorem State.readReg_withMem (m : Memory) (r : Reg) (hb : r ≠ .stackBase) (he : r ≠ .stackEnd) :
    (s.withMem m).readReg r = s.readReg r := by
  cases r <;> first | rfl | contradiction

@[simp] theorem State.jumpIf_regs (rel : Relation) (t a b : Word) :
    (s.jumpIf rel t a b).regs = s.regs := by
  unfold State.jumpIf; split <;> rfl
@[simp] theorem State.jumpIf_mem (rel : Relation) (t a b : Word) :
    (s.jumpIf rel t a b).mem = s.mem := by
  unfold State.jumpIf; split <;> rfl
@[simp] theorem State.jumpIf_status (rel : Relation) (t a b : Word) :
    (s.jumpIf rel t a b).status = s.status := by
  unfold State.jumpIf; split <;> rfl
@[simp] theorem State.jumpIf_input (rel : Relation) (t a b : Word) :
    (s.jumpIf rel t a b).input = s.input := by
  unfold State.jumpIf; split <;> rfl
@[simp] theorem State.jumpIf_output (rel : Relation) (t a b : Word) :
    (s.jumpIf rel t a b).output = s.output := by
  unfold State.jumpIf; split <;> rfl
@[simp] theorem State.jumpIf_program (rel : Relation) (t a b : Word) :
    (s.jumpIf rel t a b).program = s.program := by
  unfold State.jumpIf; split <;> rfl
@[simp] theorem State.jumpIf_opcodes (rel : Relation) (t a b : Word) :
    (s.jumpIf rel t a b).opcodes = s.opcodes := by
  unfold State.jumpIf; split <;> rfl
@[simp] theorem State.jumpIf_uninitPolicy (rel : Relation) (t a b : Word) :
    (s.jumpIf rel t a b).uninitPolicy = s.uninitPolicy := by
  unfold State.jumpIf; split <;> rfl

theorem State.jumpIf_pc (rel : Relation) (t a b : Word) :
    (s.jumpIf rel t a b).pc = if rel.holds a b then t else s.pc := by
  unfold State.jumpIf; split <;> rfl

/-- Taking an input byte, when there is one, drops it from the input and does nothing else. -/
theorem State.takeInput_eq_ok {s u : State} {b : Byte} (h : s.takeInput = .ok (b, u)) :
    s.input = b :: u.input ∧ u = { s with input := u.input } := by
  unfold State.takeInput at h
  split at h
  · cases h
  · next hs => cases h; exact ⟨hs, rfl⟩

end Sys2Proof.Machine
end

