-- ==== Sys2Proof/Laws/Execute.lean ====
section
/-! SUPPORT. What running one instruction can do, said once: `commonFault` and `NoCommonFault` are two
sides of one condition, and `execute` and `step` are taken apart here and nowhere else. -/

namespace Sys2Proof.Machine

/-! ## The common faults -/

theorem readOnlySlot_eq_none {l : List (SlotKind × Operand)} {slot : Nat} :
    readOnlySlot slot l = none ↔
      (.dest, .reg .stackBase) ∉ l ∧ (.dest, .reg .stackEnd) ∉ l := by
  induction l generalizing slot with
  | nil => simp [readOnlySlot]
  | cons x l ih =>
    obtain ⟨k, o⟩ := x
    cases k <;> first | (simp [readOnlySlot, ih]; done) | skip
    cases o with
    | imm v => simp [readOnlySlot, ih]
    | reg r => cases r <;> simp [readOnlySlot, ih]

theorem mem_destRegs {i : Instr} {r : Reg} :
    r ∈ destRegs i ↔ (.dest, .reg r) ∈ operandSlots i := by
  unfold destRegs
  simp only [List.mem_filterMap]
  constructor
  · rintro ⟨⟨k, o⟩, hx, h⟩
    cases k <;> cases o <;> simp at h
    subst h; exact hx
  · intro h; exact ⟨_, h, rfl⟩

theorem uninitRead_eq_none {i : Instr} {s : State} :
    uninitRead i s = none ↔
      (s.uninitPolicy = .fault → ∀ r ∈ readRegs i, s.defined r = true) := by
  unfold uninitRead
  cases s.uninitPolicy <;> simp

/-- An instruction raises no common fault exactly when `NoCommonFault` holds. -/
theorem commonFault_eq_none {i : Instr} {s : State} :
    commonFault i s = none ↔ NoCommonFault i s := by
  have hr := readOnlySlot_eq_none (l := operandSlots i) (slot := 0)
  have hu := uninitRead_eq_none (i := i) (s := s)
  unfold commonFault NoCommonFault
  rw [mem_destRegs, mem_destRegs, ← hu]
  by_cases h : 2 ^ 64 ≤ s.pc.toNat + i.length
  · rw [if_pos h]
    exact iff_of_false (by simp) fun hn => absurd hn.1 (not_lt.mpr h)
  · rw [if_neg h]
    have h' := not_le.mp h
    cases h1 : readOnlySlot 0 (operandSlots i) with
    | some slot =>
      exact iff_of_false (by simp) fun hn => by simpa [h1] using hr.mpr ⟨hn.2.1, hn.2.2.1⟩
    | none =>
      have hn := hr.mp h1
      cases h2 : uninitRead i s <;> simp [-Nat.reducePow, hn, h']

/-! ## `execute` -/

section
variable {i : Instr} {s t : State} {effect : State → Except FaultKind State} {k : FaultKind}

theorem execute_of_commonFault (h : commonFault i s = some k) :
    execute i s effect = .next (s.takeFault k) := by
  simp [execute, h]

theorem execute_of_ok (h : NoCommonFault i s) (he : effect (s.advance i.length) = .ok t) :
    execute i s effect = .next t := by
  simp [execute, commonFault_eq_none.mpr h, he]

theorem execute_of_error (h : NoCommonFault i s) (he : effect (s.advance i.length) = .error k) :
    execute i s effect = .next (s.takeFault k) := by
  simp [execute, commonFault_eq_none.mpr h, he]

/-- Running an instruction either takes a fault or commits its effect. -/
theorem execute_eq_next (h : execute i s effect = .next t) :
    (∃ k, t = s.takeFault k) ∨
      (NoCommonFault i s ∧ effect (s.advance i.length) = .ok t) := by
  unfold execute at h
  split at h
  · cases h; exact .inl ⟨_, rfl⟩
  · next hc =>
    split at h
    · cases h; exact .inl ⟨_, rfl⟩
    · next he => cases h; exact .inr ⟨commonFault_eq_none.mp hc, he⟩

end

/-! ## `step` -/

/-- A step from a running state takes a decode fault or runs the decoded instruction. -/
theorem step_eq_next {s t : State} (h : step s = .next t) :
    s.status = .running ∧
      ((∃ k, s.fetch = .error k ∧ t = s.takeFault k) ∨
        ∃ i n, s.fetch = .ok (i, n) ∧ exec i s = .next t) := by
  unfold step at h
  split at h
  · next hs =>
    refine ⟨hs, ?_⟩
    split at h
    · next k hd => cases h; exact .inl ⟨k, hd, rfl⟩
    · next i n hd => exact .inr ⟨i, n, hd, h⟩
  · cases h

end Sys2Proof.Machine
end

