-- ==== Sys2Proof/Laws/Memory.lean ====
section
/-! SUPPORT. What each operation on the stack memory can do, said once, and that each keeps the stack
invariant of spec/10_state.md R36. -/

namespace Sys2Proof.Machine

variable {m m' : Memory}

/-! ## What an operation answers -/

theorem Memory.wordAt_eq_ok {a w : Word} (h : m.wordAt a = .ok w) :
    m.contains a = true ∧ m.words[m.wordIndex a]? = some w := by
  unfold Memory.wordAt at h
  split at h
  · next hc =>
    split at h
    · next hw => cases h; exact ⟨hc, hw⟩
    · cases h
  · cases h

theorem Memory.push_eq_ok {v : Word} (h : m.push v = .ok m') :
    m.words.length ≠ m.capacity ∧
      m' = { m with words := v :: m.words, stackEnd := m.stackEnd - 8 } := by
  unfold Memory.push at h
  split at h
  · cases h
  · next hl => cases h; exact ⟨hl, rfl⟩

theorem Memory.pop_eq_ok {w : Word} (h : m.pop = .ok (w, m')) :
    m.words = w :: m'.words ∧ m' = { m with words := m'.words, stackEnd := m.stackEnd + 8 } := by
  unfold Memory.pop at h
  split at h
  · cases h
  · next hw => cases h; exact ⟨hw, rfl⟩

theorem Memory.writeByte_eq_ok {a : Word} {v : Byte} (h : m.writeByte a v = .ok m') :
    ∃ w, m.wordAt a = .ok w ∧
      m' = m.setWord (m.wordIndex a) (setWordByte w (m.byteOffset a) v) := by
  unfold Memory.writeByte at h
  split at h
  · cases h
  · next w hw => cases h; exact ⟨w, hw, rfl⟩

theorem Memory.writeWord_eq_ok {a v : Word} (h : m.writeWord a v = .ok m') :
    (∃ w, m.wordAt a = .ok w) ∧ m.byteOffset a = 0 ∧ m' = m.setWord (m.wordIndex a) v := by
  unfold Memory.writeWord at h
  split at h
  · cases h
  · next w hw =>
    split at h
    · next hj => cases h; exact ⟨⟨w, hw⟩, hj, rfl⟩
    · cases h

/-! ## Replacing a word -/

@[simp] theorem Memory.setWord_start (k : Nat) (w : Word) : (m.setWord k w).start = m.start := rfl
@[simp] theorem Memory.setWord_stackEnd (k : Nat) (w : Word) :
    (m.setWord k w).stackEnd = m.stackEnd := rfl
@[simp] theorem Memory.setWord_capacity (k : Nat) (w : Word) :
    (m.setWord k w).capacity = m.capacity := rfl
@[simp] theorem Memory.setWord_words (k : Nat) (w : Word) :
    (m.setWord k w).words = m.words.set k w := rfl

/-! ## Bytes of a word -/

/-- The byte just written. -/
theorem wordByte_setWordByte_self (w : Word) (j : Nat) (hj : j < 8) (v : Byte) :
    wordByte (setWordByte w j v) j = v := by
  interval_cases j <;> simp only [wordByte, setWordByte] <;> ext i hi <;>
    interval_cases i <;> simp

/-- Every other byte. -/
theorem wordByte_setWordByte_of_ne (w : Word) (i j : Nat) (hi : i < 8) (hj : j < 8) (h : i ≠ j)
    (v : Byte) : wordByte (setWordByte w j v) i = wordByte w i := by
  interval_cases j <;> interval_cases i <;> first | contradiction | skip
  all_goals
    simp only [wordByte, setWordByte]
    ext b hb
    interval_cases b <;> simp

/-! ## The stack invariant -/

theorem Memory.wf_reset (base : Word) (capacity : Nat) (h : 8 * capacity ≤ base.toNat) :
    (Memory.reset base capacity).wf := ⟨rfl, Nat.zero_le _, h⟩

theorem Memory.wf_setWord (k : Nat) (w : Word) (h : m.wf) : (m.setWord k w).wf := by
  simpa [Memory.wf] using h

theorem Memory.wf_writeByte {a : Word} {v : Byte} (h : m.wf) (hw : m.writeByte a v = .ok m') :
    m'.wf := by
  obtain ⟨w, -, rfl⟩ := Memory.writeByte_eq_ok hw
  exact Memory.wf_setWord _ _ h

theorem Memory.wf_writeWord {a v : Word} (h : m.wf) (hw : m.writeWord a v = .ok m') : m'.wf := by
  obtain ⟨-, -, rfl⟩ := Memory.writeWord_eq_ok hw
  exact Memory.wf_setWord _ _ h

theorem Memory.wf_push {v : Word} (h : m.wf) (hp : m.push v = .ok m') : m'.wf := by
  obtain ⟨hl, rfl⟩ := Memory.push_eq_ok hp
  obtain ⟨h1, h2, h3⟩ := h
  have hlt : m.words.length < m.capacity := lt_of_le_of_ne h2 hl
  refine ⟨?_, by simpa using hlt, h3⟩
  simp only [List.length_cons]
  have : (m.stackEnd - 8).toNat = m.stackEnd.toNat - 8 := by bv_omega
  omega

theorem Memory.wf_pop {w : Word} (h : m.wf) (hp : m.pop = .ok (w, m')) : m'.wf := by
  obtain ⟨hw, hm⟩ := Memory.pop_eq_ok hp
  obtain ⟨h1, h2, h3⟩ := h
  have hl : m.words.length = m'.words.length + 1 := by rw [hw]; rfl
  have hs := m.start.isLt
  have he : m'.stackEnd = m.stackEnd + 8 := by rw [hm]
  have : (m.stackEnd + 8).toNat = m.stackEnd.toNat + 8 := by bv_omega
  refine ⟨?_, ?_, ?_⟩
  · rw [he, this, show m'.start = m.start by rw [hm]]; omega
  · rw [show m'.capacity = m.capacity by rw [hm]]; omega
  · rw [show m'.capacity = m.capacity by rw [hm], show m'.start = m.start by rw [hm]]; exact h3

/-! ## The occupied region as cells -/

/-- The cells' addresses rise strictly: the region has one canonical form as cells. -/
theorem Memory.cells_sorted : m.cells.Pairwise fun a b => a.1 < b.1 := by
  unfold Memory.cells
  rw [List.pairwise_map]
  exact List.pairwise_lt_range.imp fun h => by simpa using h

end Sys2Proof.Machine
end

