-- ==== Sys2Proof/Laws/Exec.lean ====
section
/-! SUPPORT. The terms of Safety.lean met: what operands hold after the fetch, what a register write
leaves, and the common faults of every instruction. -/

namespace Sys2Proof.Machine

section
variable {i : Instr} {s t : State} {d : Reg} {v : Word}

/-- Operands are read on the state whose `pc` is `npc`. -/
theorem readReg_advance_eq (r : Reg) : (s.advance i.length).readReg r = regAt i s r := by
  unfold regAt npc
  split
  · next h => subst h; rfl
  · next h => exact State.readReg_advance s _ r h

theorem value_advance_eq (o : Operand) : (s.advance i.length).value o = opAt i s o := by
  cases o
  · exact readReg_advance_eq _
  · rfl

theorem advance_pc_eq : (s.advance i.length).pc = npc i s := rfl

/-- A state with the same stack has the same bytes. -/
theorem memKept_of_eq (h : t.mem = s.mem) : MemKept s t :=
  ⟨h, fun a => by simp [byteAt, h]⟩

/-- Writing the destination on the advanced state is `WritesReg`. -/
theorem writesReg_writeReg (hb : d ≠ .stackBase) (he : d ≠ .stackEnd) :
    WritesReg i s ((s.advance i.length).writeReg d v) d v := by
  refine ⟨fun hz => ⟨State.readReg_writeReg_self _ _ _ hz hb he, ?_⟩, rfl, fun r hr => ?_,
    fun hi => ?_, memKept_of_eq (by simp), by simp, by simp, by simp, by simp, by simp, by simp,
    by simp⟩
  · simp [State.defined_writeReg]
  · simp only [List.mem_cons, List.not_mem_nil, or_false, not_or] at hr
    constructor
    · rw [State.readReg_writeReg_of_ne _ _ _ _ hr.1, State.readReg_advance _ _ _ hr.2]
    · simp [State.defined_writeReg, hr.1]
  · rw [State.writeReg_pc, if_neg hi, advance_pc_eq]

/-- Going on at an address on the advanced state is `Transfers`. -/
theorem transfers_jumpTo (a : Word) : Transfers s ((s.advance i.length).jumpTo a) a := by
  refine ⟨rfl, fun r hr => ?_, memKept_of_eq rfl, rfl, rfl, rfl, rfl, rfl, rfl, rfl, rfl⟩
  have hr : r ≠ .instruction := by simpa using hr
  exact ⟨by rw [State.readReg_jumpTo _ _ _ hr, State.readReg_advance _ _ _ hr], rfl⟩

/-- Every meaning runs its own instruction by `execute`. -/
theorem exec_eq_execute (i : Instr) (s : State) : ∃ effect, exec i s = execute i s effect := by
  cases i <;> (simp only [exec]; exact ⟨_, rfl⟩)

/-- Every instruction takes the common faults first. -/
theorem exec_takesCommonFaults (i : Instr) : TakesCommonFaults i := by
  intro s k h
  obtain ⟨effect, he⟩ := exec_eq_execute i s
  rw [he]
  exact execute_of_commonFault h

end

end Sys2Proof.Machine
end

