-- ==== Sys2Proof/Laws/PerInstr.lean ====
section
/-! SUPPORT. The per-instruction family `Schema`: every instruction is well formed, is the one its own
mnemonic and operand list name, and has a length between the bounds of its row (spec/30_encoding.md R82,
R84, R85). -/

namespace Sys2Proof.Laws

namespace Schema

/-- What the schema of an instruction's mnemonic grants it. -/
def Statement (i : Instr) : Prop :=
  i.wellFormed = true ∧ Instr.ofRaw i.toRaw = some i ∧ i.op.minLength ≤ i.length ∧
    i.length ≤ i.op.maxLength

theorem addts (d : Reg) (a b : Operand) : Statement (.addts d a b) := by
  cases a <;> cases b <;>
    exact ⟨rfl, rfl, Nat.le_of_ble_eq_true rfl, Nat.le_of_ble_eq_true rfl⟩

theorem addtu (d : Reg) (a b : Operand) : Statement (.addtu d a b) := by
  cases a <;> cases b <;>
    exact ⟨rfl, rfl, Nat.le_of_ble_eq_true rfl, Nat.le_of_ble_eq_true rfl⟩

theorem addis (d : Reg) (b : Operand) : Statement (.addis d b) := by
  cases b <;>
    exact ⟨rfl, rfl, Nat.le_of_ble_eq_true rfl, Nat.le_of_ble_eq_true rfl⟩

theorem addiu (d : Reg) (b : Operand) : Statement (.addiu d b) := by
  cases b <;>
    exact ⟨rfl, rfl, Nat.le_of_ble_eq_true rfl, Nat.le_of_ble_eq_true rfl⟩

theorem subts (d : Reg) (a b : Operand) : Statement (.subts d a b) := by
  cases a <;> cases b <;>
    exact ⟨rfl, rfl, Nat.le_of_ble_eq_true rfl, Nat.le_of_ble_eq_true rfl⟩

theorem subtu (d : Reg) (a b : Operand) : Statement (.subtu d a b) := by
  cases a <;> cases b <;>
    exact ⟨rfl, rfl, Nat.le_of_ble_eq_true rfl, Nat.le_of_ble_eq_true rfl⟩

theorem subis (d : Reg) (b : Operand) : Statement (.subis d b) := by
  cases b <;>
    exact ⟨rfl, rfl, Nat.le_of_ble_eq_true rfl, Nat.le_of_ble_eq_true rfl⟩

theorem subiu (d : Reg) (b : Operand) : Statement (.subiu d b) := by
  cases b <;>
    exact ⟨rfl, rfl, Nat.le_of_ble_eq_true rfl, Nat.le_of_ble_eq_true rfl⟩

theorem lshlt (d : Reg) (a b : Operand) : Statement (.lshlt d a b) := by
  cases a <;> cases b <;>
    exact ⟨rfl, rfl, Nat.le_of_ble_eq_true rfl, Nat.le_of_ble_eq_true rfl⟩

theorem lshli (d : Reg) (b : Operand) : Statement (.lshli d b) := by
  cases b <;>
    exact ⟨rfl, rfl, Nat.le_of_ble_eq_true rfl, Nat.le_of_ble_eq_true rfl⟩

theorem lshrt (d : Reg) (a b : Operand) : Statement (.lshrt d a b) := by
  cases a <;> cases b <;>
    exact ⟨rfl, rfl, Nat.le_of_ble_eq_true rfl, Nat.le_of_ble_eq_true rfl⟩

theorem lshri (d : Reg) (b : Operand) : Statement (.lshri d b) := by
  cases b <;>
    exact ⟨rfl, rfl, Nat.le_of_ble_eq_true rfl, Nat.le_of_ble_eq_true rfl⟩

theorem ashrt (d : Reg) (a b : Operand) : Statement (.ashrt d a b) := by
  cases a <;> cases b <;>
    exact ⟨rfl, rfl, Nat.le_of_ble_eq_true rfl, Nat.le_of_ble_eq_true rfl⟩

theorem ashri (d : Reg) (b : Operand) : Statement (.ashri d b) := by
  cases b <;>
    exact ⟨rfl, rfl, Nat.le_of_ble_eq_true rfl, Nat.le_of_ble_eq_true rfl⟩

theorem andt (d : Reg) (a b : Operand) : Statement (.andt d a b) := by
  cases a <;> cases b <;>
    exact ⟨rfl, rfl, Nat.le_of_ble_eq_true rfl, Nat.le_of_ble_eq_true rfl⟩

theorem andi (d : Reg) (b : Operand) : Statement (.andi d b) := by
  cases b <;>
    exact ⟨rfl, rfl, Nat.le_of_ble_eq_true rfl, Nat.le_of_ble_eq_true rfl⟩

theorem ort (d : Reg) (a b : Operand) : Statement (.ort d a b) := by
  cases a <;> cases b <;>
    exact ⟨rfl, rfl, Nat.le_of_ble_eq_true rfl, Nat.le_of_ble_eq_true rfl⟩

theorem ori (d : Reg) (b : Operand) : Statement (.ori d b) := by
  cases b <;>
    exact ⟨rfl, rfl, Nat.le_of_ble_eq_true rfl, Nat.le_of_ble_eq_true rfl⟩

theorem xort (d : Reg) (a b : Operand) : Statement (.xort d a b) := by
  cases a <;> cases b <;>
    exact ⟨rfl, rfl, Nat.le_of_ble_eq_true rfl, Nat.le_of_ble_eq_true rfl⟩

theorem xori (d : Reg) (b : Operand) : Statement (.xori d b) := by
  cases b <;>
    exact ⟨rfl, rfl, Nat.le_of_ble_eq_true rfl, Nat.le_of_ble_eq_true rfl⟩

theorem nott (d : Reg) (a : Operand) : Statement (.nott d a) := by
  cases a <;>
    exact ⟨rfl, rfl, Nat.le_of_ble_eq_true rfl, Nat.le_of_ble_eq_true rfl⟩

theorem noi (d : Reg) : Statement (.noi d) := by
  exact ⟨rfl, rfl, le_refl _, le_refl _⟩

theorem mults_e (d : Reg) (a b : Operand) : Statement (.mults_e d a b) := by
  cases a <;> cases b <;>
    exact ⟨rfl, rfl, Nat.le_of_ble_eq_true rfl, Nat.le_of_ble_eq_true rfl⟩

theorem mulis_e (d : Reg) (b : Operand) : Statement (.mulis_e d b) := by
  cases b <;>
    exact ⟨rfl, rfl, Nat.le_of_ble_eq_true rfl, Nat.le_of_ble_eq_true rfl⟩

theorem multu_e (d : Reg) (a b : Operand) : Statement (.multu_e d a b) := by
  cases a <;> cases b <;>
    exact ⟨rfl, rfl, Nat.le_of_ble_eq_true rfl, Nat.le_of_ble_eq_true rfl⟩

theorem muliu_e (d : Reg) (b : Operand) : Statement (.muliu_e d b) := by
  cases b <;>
    exact ⟨rfl, rfl, Nat.le_of_ble_eq_true rfl, Nat.le_of_ble_eq_true rfl⟩

theorem divts_e (dq dr : Reg) (n m : Operand) : Statement (.divts_e dq dr n m) := by
  cases n <;> cases m <;>
    exact ⟨rfl, rfl, Nat.le_of_ble_eq_true rfl, Nat.le_of_ble_eq_true rfl⟩

theorem divtu_e (dq dr : Reg) (n m : Operand) : Statement (.divtu_e dq dr n m) := by
  cases n <;> cases m <;>
    exact ⟨rfl, rfl, Nat.le_of_ble_eq_true rfl, Nat.le_of_ble_eq_true rfl⟩

theorem jmp (t : Word) : Statement (.jmp t) := by
  exact ⟨rfl, rfl, le_refl _, le_refl _⟩

theorem jmpeq (t : Word) (a b : Operand) : Statement (.jmpeq t a b) := by
  cases a <;> cases b <;>
    exact ⟨rfl, rfl, Nat.le_of_ble_eq_true rfl, Nat.le_of_ble_eq_true rfl⟩

theorem jmpne (t : Word) (a b : Operand) : Statement (.jmpne t a b) := by
  cases a <;> cases b <;>
    exact ⟨rfl, rfl, Nat.le_of_ble_eq_true rfl, Nat.le_of_ble_eq_true rfl⟩

theorem jmpgts (t : Word) (a b : Operand) : Statement (.jmpgts t a b) := by
  cases a <;> cases b <;>
    exact ⟨rfl, rfl, Nat.le_of_ble_eq_true rfl, Nat.le_of_ble_eq_true rfl⟩

theorem jmpges (t : Word) (a b : Operand) : Statement (.jmpges t a b) := by
  cases a <;> cases b <;>
    exact ⟨rfl, rfl, Nat.le_of_ble_eq_true rfl, Nat.le_of_ble_eq_true rfl⟩

theorem jmplts (t : Word) (a b : Operand) : Statement (.jmplts t a b) := by
  cases a <;> cases b <;>
    exact ⟨rfl, rfl, Nat.le_of_ble_eq_true rfl, Nat.le_of_ble_eq_true rfl⟩

theorem jmples (t : Word) (a b : Operand) : Statement (.jmples t a b) := by
  cases a <;> cases b <;>
    exact ⟨rfl, rfl, Nat.le_of_ble_eq_true rfl, Nat.le_of_ble_eq_true rfl⟩

theorem jmpgtu (t : Word) (a b : Operand) : Statement (.jmpgtu t a b) := by
  cases a <;> cases b <;>
    exact ⟨rfl, rfl, Nat.le_of_ble_eq_true rfl, Nat.le_of_ble_eq_true rfl⟩

theorem jmpgeu (t : Word) (a b : Operand) : Statement (.jmpgeu t a b) := by
  cases a <;> cases b <;>
    exact ⟨rfl, rfl, Nat.le_of_ble_eq_true rfl, Nat.le_of_ble_eq_true rfl⟩

theorem jmpltu (t : Word) (a b : Operand) : Statement (.jmpltu t a b) := by
  cases a <;> cases b <;>
    exact ⟨rfl, rfl, Nat.le_of_ble_eq_true rfl, Nat.le_of_ble_eq_true rfl⟩

theorem jmpleu (t : Word) (a b : Operand) : Statement (.jmpleu t a b) := by
  cases a <;> cases b <;>
    exact ⟨rfl, rfl, Nat.le_of_ble_eq_true rfl, Nat.le_of_ble_eq_true rfl⟩

theorem cal (t : Word) : Statement (.cal t) := by
  exact ⟨rfl, rfl, le_refl _, le_refl _⟩

theorem ret (v : Operand) : Statement (.ret v) := by
  cases v <;>
    exact ⟨rfl, rfl, Nat.le_of_ble_eq_true rfl, Nat.le_of_ble_eq_true rfl⟩

theorem mov (d : Reg) (v : Operand) : Statement (.mov d v) := by
  cases v <;>
    exact ⟨rfl, rfl, Nat.le_of_ble_eq_true rfl, Nat.le_of_ble_eq_true rfl⟩

theorem load (d base : Reg) : Statement (.load d base) := by
  exact ⟨rfl, rfl, le_refl _, le_refl _⟩

theorem loado (d base : Reg) (off : Operand) : Statement (.loado d base off) := by
  cases off <;>
    exact ⟨rfl, rfl, Nat.le_of_ble_eq_true rfl, Nat.le_of_ble_eq_true rfl⟩

theorem loadb (d base : Reg) : Statement (.loadb d base) := by
  exact ⟨rfl, rfl, le_refl _, le_refl _⟩

theorem loadbo (d base : Reg) (off : Operand) : Statement (.loadbo d base off) := by
  cases off <;>
    exact ⟨rfl, rfl, Nat.le_of_ble_eq_true rfl, Nat.le_of_ble_eq_true rfl⟩

theorem stor (v : Operand) (base : Reg) : Statement (.stor v base) := by
  cases v <;>
    exact ⟨rfl, rfl, Nat.le_of_ble_eq_true rfl, Nat.le_of_ble_eq_true rfl⟩

theorem storo (v : Operand) (base : Reg) (off : Operand) : Statement (.storo v base off) := by
  cases v <;> cases off <;>
    exact ⟨rfl, rfl, Nat.le_of_ble_eq_true rfl, Nat.le_of_ble_eq_true rfl⟩

theorem storb (v : Operand) (base : Reg) : Statement (.storb v base) := by
  cases v <;>
    exact ⟨rfl, rfl, Nat.le_of_ble_eq_true rfl, Nat.le_of_ble_eq_true rfl⟩

theorem storbo (v : Operand) (base : Reg) (off : Operand) : Statement (.storbo v base off) := by
  cases v <;> cases off <;>
    exact ⟨rfl, rfl, Nat.le_of_ble_eq_true rfl, Nat.le_of_ble_eq_true rfl⟩

theorem push (v : Operand) : Statement (.push v) := by
  cases v <;>
    exact ⟨rfl, rfl, Nat.le_of_ble_eq_true rfl, Nat.le_of_ble_eq_true rfl⟩

theorem pop (d : Reg) : Statement (.pop d) := by
  exact ⟨rfl, rfl, le_refl _, le_refl _⟩

theorem halt : Statement .halt := by
  exact ⟨rfl, rfl, le_refl _, le_refl _⟩

theorem exit (v : Operand) : Statement (.exit v) := by
  cases v <;>
    exact ⟨rfl, rfl, Nat.le_of_ble_eq_true rfl, Nat.le_of_ble_eq_true rfl⟩

theorem print (v : Operand) : Statement (.print v) := by
  cases v <;>
    exact ⟨rfl, rfl, Nat.le_of_ble_eq_true rfl, Nat.le_of_ble_eq_true rfl⟩

theorem read (d : Reg) : Statement (.read d) := by
  exact ⟨rfl, rfl, le_refl _, le_refl _⟩

theorem dump : Statement .dump := by
  exact ⟨rfl, rfl, le_refl _, le_refl _⟩

theorem nop : Statement .nop := by
  exact ⟨rfl, rfl, le_refl _, le_refl _⟩

end Schema

end Sys2Proof.Laws
end

