-- ==== Sys2Proof/Tests/Slice0.lean ====
section
/-! SUPPORT. The model's own tests. Expected results stand in the tables of spec/95_test_vectors.md (L2.1 to
L2.11) or were worked out by hand from the rules; each section says which. The witness section shows,
for every statement with hypotheses, operands and states that meet them, at the ends of their ranges. -/

open Sys2Proof Sys2Proof.Machine

/-- A state right after launch under the default parameters of spec/00_scope.md R7, with a program. -/
def Sys2Proof.Tests.launched (program : List Byte) : State :=
  .launch program [] Config.stackBase Config.stackCapacityWords opcodeMap .zero

/-- The state with a stack that holds these words, the most recent first. -/
def Sys2Proof.Machine.State.withWords (s : State) (ws : List Word) : State :=
  { s with
    mem := { s.mem with
      words := ws
      stackEnd := s.mem.start - BitVec.ofNat 64 (8 * ws.length) } }

/-- The state with a word limit. -/
def Sys2Proof.Machine.State.withCapacity (s : State) (n : Nat) : State :=
  { s with mem := { s.mem with capacity := n } }

/-- The state with input left. -/
def Sys2Proof.Machine.State.withInput (s : State) (bs : List Byte) : State := { s with input := bs }

/-- The state under a policy of spec/10_state.md R41. -/
def Sys2Proof.Machine.State.withPolicy (s : State) (p : UninitPolicy) : State :=
  { s with uninitPolicy := p }

/-- One step answers a next state of which `p` holds. -/
def Sys2Proof.Tests.stepsTo (s : State) (p : State → Bool) : Bool :=
  match step s with
  | .next t => p t
  | _ => false

/-- One step takes this fault and changes nothing but the status (spec/60_exceptions.md R212). -/
def Sys2Proof.Tests.faultsWith (s : State) (k : FaultKind) : Bool :=
  Sys2Proof.Tests.stepsTo s fun t => t = faultedAs s k

/-- The bytes decode to this instruction with a length, or to a fault. -/
def Sys2Proof.Tests.decodesTo (program : List Byte) (p : Nat) (x : Except FaultKind (Instr × Nat)) :
    Bool :=
  match decodeAt program p, x with
  | .ok a, .ok b => a = b
  | .error a, .error b => a = b
  | _, _ => false

namespace Sys2Proof.Tests

/-! ## Well-formedness (spec/30_encoding.md R91): what the check refuses -/

theorem test_wellFormed_refuses_imm_in_D :
    RawInstr.wellFormed ⟨.addts, [.imm 5, .reg .g1, .reg .g2]⟩ = false := by decide

theorem test_wellFormed_refuses_imm_in_A :
    RawInstr.wellFormed ⟨.load, [.reg .g0, .imm 8]⟩ = false := by decide

theorem test_wellFormed_refuses_reg_in_T :
    RawInstr.wellFormed ⟨.jmp, [.reg .g0]⟩ = false := by decide

theorem test_wellFormed_refuses_too_few :
    RawInstr.wellFormed ⟨.divtu_e, [.reg .g0, .reg .g1, .imm 8]⟩ = false := by decide

theorem test_wellFormed_refuses_too_many :
    RawInstr.wellFormed ⟨.halt, [.imm 0]⟩ = false := by decide

theorem test_wellFormed_accepts_imm_in_S :
    RawInstr.wellFormed ⟨.storo, [.imm 7, .reg .stackEnd, .imm 8]⟩ = true := by decide

/-! ## Decoding: one word for every constructor, from the byte columns of L2.4 to L2.10 -/

theorem test_decode_addts :
    decodesTo [0x01, 0x00, 0x00, 0x00, 0x00, 0x01, 0x02] 0
      (.ok (.addts .g0 (.reg .g1) (.reg .g2), 7)) = true := by decide

theorem test_decode_addtu :
    decodesTo [0x01, 0x00, 0x10, 0x00, 0x00, 0x01, 0x02] 0
      (.ok (.addtu .g0 (.reg .g1) (.reg .g2), 7)) = true := by decide

theorem test_decode_addis :
    decodesTo [0x01, 0x00, 0x20, 0x00, 0x00, 0x00] 0
      (.ok (.addis .g0 (.reg .g0), 6)) = true := by decide

theorem test_decode_addiu :
    decodesTo [0x01, 0x00, 0x30, 0x40, 0x00, 0x01, 0x00, 0x00, 0x00, 0x00, 0x00, 0x00, 0x00] 0
      (.ok (.addiu .g0 (.imm 1), 13)) = true := by decide

theorem test_decode_subts :
    decodesTo [0x02, 0x00, 0x00, 0x00, 0x00, 0x01, 0x02] 0
      (.ok (.subts .g0 (.reg .g1) (.reg .g2), 7)) = true := by decide

theorem test_decode_subtu :
    decodesTo [0x02, 0x00, 0x10, 0x00, 0x00, 0x01, 0x02] 0
      (.ok (.subtu .g0 (.reg .g1) (.reg .g2), 7)) = true := by decide

theorem test_decode_subis :
    decodesTo [0x02, 0x00, 0x20, 0x40, 0x00, 0xFF, 0xFF, 0xFF, 0xFF, 0xFF, 0xFF, 0xFF, 0xFF] 0
      (.ok (.subis .g0 (.imm 0xffffffffffffffff), 13)) = true := by decide

theorem test_decode_subiu :
    decodesTo [0x02, 0x00, 0x30, 0x00, 0x00, 0x00] 0
      (.ok (.subiu .g0 (.reg .g0), 6)) = true := by decide

theorem test_decode_lshlt :
    decodesTo [0x03, 0x00, 0x01, 0x00, 0x00, 0x01, 0x02] 0
      (.ok (.lshlt .g0 (.reg .g1) (.reg .g2), 7)) = true := by decide

theorem test_decode_lshli :
    decodesTo [0x03, 0x00, 0x21, 0x40, 0x00, 0xFF, 0xFF, 0xFF, 0xFF, 0xFF, 0xFF, 0xFF, 0xFF] 0
      (.ok (.lshli .g0 (.imm 0xffffffffffffffff), 13)) = true := by decide

theorem test_decode_lshrt :
    decodesTo [0x04, 0x00, 0x01, 0x00, 0x00, 0x01, 0x02] 0
      (.ok (.lshrt .g0 (.reg .g1) (.reg .g2), 7)) = true := by decide

theorem test_decode_lshri :
    decodesTo [0x04, 0x00, 0x21, 0x40, 0x00, 0x00, 0x00, 0x00, 0x00, 0x00, 0x00, 0x00, 0x00] 0
      (.ok (.lshri .g0 (.imm 0), 13)) = true := by decide

theorem test_decode_ashrt :
    decodesTo [0x05, 0x00, 0x01, 0x00, 0x00, 0x01, 0x02] 0
      (.ok (.ashrt .g0 (.reg .g1) (.reg .g2), 7)) = true := by decide

theorem test_decode_ashri :
    decodesTo [0x05, 0x00, 0x21, 0x40, 0x00, 0x04, 0x00, 0x00, 0x00, 0x00, 0x00, 0x00, 0x00] 0
      (.ok (.ashri .g0 (.imm 4), 13)) = true := by decide

theorem test_decode_andt :
    decodesTo [0x06, 0x00, 0x02, 0x00, 0x00, 0x01, 0x12] 0
      (.ok (.andt .g0 (.reg .g1) (.reg .zero), 7)) = true := by decide

theorem test_decode_andi :
    decodesTo [0x06, 0x00, 0x22, 0x40, 0x00, 0xF0, 0xF0, 0x00, 0x00, 0x00, 0x00, 0x00, 0x00] 0
      (.ok (.andi .g0 (.imm 0xf0f0), 13)) = true := by decide

theorem test_decode_ort :
    decodesTo [0x07, 0x00, 0x02, 0x00, 0x00, 0x01, 0x02] 0
      (.ok (.ort .g0 (.reg .g1) (.reg .g2), 7)) = true := by decide

theorem test_decode_ori :
    decodesTo [0x07, 0x00, 0x22, 0x40, 0x00, 0x00, 0x00, 0x00, 0x00, 0x00, 0x00, 0x00, 0x80] 0
      (.ok (.ori .g0 (.imm 0x8000000000000000), 13)) = true := by decide

theorem test_decode_xort :
    decodesTo [0x08, 0x00, 0x02, 0x00, 0x00, 0x00, 0x00] 0
      (.ok (.xort .g0 (.reg .g0) (.reg .g0), 7)) = true := by decide

theorem test_decode_xori :
    decodesTo [0x08, 0x00, 0x22, 0x40, 0x00, 0xFF, 0xFF, 0xFF, 0xFF, 0xFF, 0xFF, 0xFF, 0xFF] 0
      (.ok (.xori .g0 (.imm 0xffffffffffffffff), 13)) = true := by decide

theorem test_decode_nott :
    decodesTo [0x09, 0x00, 0x02, 0x00, 0x00, 0x12] 0
      (.ok (.nott .g0 (.reg .zero), 6)) = true := by decide

theorem test_decode_noi :
    decodesTo [0x09, 0x00, 0x22, 0x00, 0x00] 0
      (.ok (.noi .g0, 5)) = true := by decide

theorem test_decode_mults_e :
    decodesTo [0x0A, 0x00, 0x03, 0x00, 0x00, 0x01, 0x02] 0
      (.ok (.mults_e .g0 (.reg .g1) (.reg .g2), 7)) = true := by decide

theorem test_decode_mulis_e :
    decodesTo [0x0A, 0x00, 0x23, 0x40, 0x00, 0x00, 0x00, 0x00, 0x00, 0x00, 0x00, 0x00, 0x00] 0
      (.ok (.mulis_e .g0 (.imm 0), 13)) = true := by decide

theorem test_decode_multu_e :
    decodesTo [0x0A, 0x00, 0x13, 0x00, 0x00, 0x01, 0x02] 0
      (.ok (.multu_e .g0 (.reg .g1) (.reg .g2), 7)) = true := by decide

theorem test_decode_muliu_e :
    decodesTo [0x0A, 0x00, 0x33, 0x00, 0x00, 0x00] 0
      (.ok (.muliu_e .g0 (.reg .g0), 6)) = true := by decide

theorem test_decode_divts_e :
    decodesTo [0x0B, 0x00, 0x03, 0x00, 0x00, 0x01, 0x02, 0x03] 0
      (.ok (.divts_e .g0 .g1 (.reg .g2) (.reg .g3), 8)) = true := by decide

theorem test_decode_divtu_e :
    decodesTo [0x0B, 0x00, 0x13, 0x00, 0x00, 0x01, 0x02, 0x03] 0
      (.ok (.divtu_e .g0 .g1 (.reg .g2) (.reg .g3), 8)) = true := by decide

theorem test_decode_jmp :
    decodesTo [0x0C, 0x00, 0x04, 0x80, 0x64, 0x00, 0x00, 0x00, 0x00, 0x00, 0x00, 0x00] 0
      (.ok (.jmp 0x64, 12)) = true := by decide

theorem test_decode_jmpeq :
    decodesTo [0x0D, 0x00, 0x04, 0x80, 0x64, 0x00, 0x00, 0x00, 0x00, 0x00, 0x00, 0x00, 0x12, 0x12] 0
      (.ok (.jmpeq 0x64 (.reg .zero) (.reg .zero), 14)) = true := by decide

theorem test_decode_jmpne :
    decodesTo [0x0E, 0x00, 0x04, 0xA0, 0x64, 0x00, 0x00, 0x00, 0x00, 0x00, 0x00, 0x00, 0x00, 0x05, 0x00, 0x00, 0x00, 0x00, 0x00, 0x00, 0x00] 0
      (.ok (.jmpne 0x64 (.reg .g0) (.imm 5), 21)) = true := by decide

theorem test_decode_jmpgts :
    decodesTo [0x0F, 0x00, 0x04, 0x80, 0x64, 0x00, 0x00, 0x00, 0x00, 0x00, 0x00, 0x00, 0x00, 0x01] 0
      (.ok (.jmpgts 0x64 (.reg .g0) (.reg .g1), 14)) = true := by decide

theorem test_decode_jmpges :
    decodesTo [0x10, 0x00, 0x04, 0x80, 0x64, 0x00, 0x00, 0x00, 0x00, 0x00, 0x00, 0x00, 0x00, 0x01] 0
      (.ok (.jmpges 0x64 (.reg .g0) (.reg .g1), 14)) = true := by decide

theorem test_decode_jmplts :
    decodesTo [0x11, 0x00, 0x04, 0x80, 0x64, 0x00, 0x00, 0x00, 0x00, 0x00, 0x00, 0x00, 0x00, 0x01] 0
      (.ok (.jmplts 0x64 (.reg .g0) (.reg .g1), 14)) = true := by decide

theorem test_decode_jmples :
    decodesTo [0x12, 0x00, 0x04, 0x80, 0x64, 0x00, 0x00, 0x00, 0x00, 0x00, 0x00, 0x00, 0x00, 0x01] 0
      (.ok (.jmples 0x64 (.reg .g0) (.reg .g1), 14)) = true := by decide

theorem test_decode_jmpgtu :
    decodesTo [0x0F, 0x00, 0x14, 0x80, 0x64, 0x00, 0x00, 0x00, 0x00, 0x00, 0x00, 0x00, 0x00, 0x01] 0
      (.ok (.jmpgtu 0x64 (.reg .g0) (.reg .g1), 14)) = true := by decide

theorem test_decode_jmpgeu :
    decodesTo [0x10, 0x00, 0x14, 0x80, 0x64, 0x00, 0x00, 0x00, 0x00, 0x00, 0x00, 0x00, 0x00, 0x12] 0
      (.ok (.jmpgeu 0x64 (.reg .g0) (.reg .zero), 14)) = true := by decide

theorem test_decode_jmpltu :
    decodesTo [0x11, 0x00, 0x14, 0x80, 0x64, 0x00, 0x00, 0x00, 0x00, 0x00, 0x00, 0x00, 0x00, 0x01] 0
      (.ok (.jmpltu 0x64 (.reg .g0) (.reg .g1), 14)) = true := by decide

theorem test_decode_jmpleu :
    decodesTo [0x12, 0x00, 0x14, 0x80, 0x64, 0x00, 0x00, 0x00, 0x00, 0x00, 0x00, 0x00, 0x12, 0x01] 0
      (.ok (.jmpleu 0x64 (.reg .zero) (.reg .g1), 14)) = true := by decide

theorem test_decode_cal :
    decodesTo [0x13, 0x00, 0x04, 0x80, 0x64, 0x00, 0x00, 0x00, 0x00, 0x00, 0x00, 0x00] 0
      (.ok (.cal 0x64, 12)) = true := by decide

theorem test_decode_ret :
    decodesTo [0x14, 0x00, 0x04, 0x00, 0x00] 0
      (.ok (.ret (.reg .g0), 5)) = true := by decide

theorem test_decode_mov :
    decodesTo [0x15, 0x00, 0x05, 0x00, 0x00, 0x12] 0
      (.ok (.mov .g0 (.reg .zero), 6)) = true := by decide

theorem test_decode_load :
    decodesTo [0x16, 0x00, 0x05, 0x00, 0x00, 0x09] 0
      (.ok (.load .g0 .stackEnd, 6)) = true := by decide

theorem test_decode_loado :
    decodesTo [0x16, 0x00, 0x85, 0x20, 0x00, 0x09, 0x08, 0x00, 0x00, 0x00, 0x00, 0x00, 0x00, 0x00] 0
      (.ok (.loado .g0 .stackEnd (.imm 8), 14)) = true := by decide

theorem test_decode_loadb :
    decodesTo [0x16, 0x00, 0x45, 0x00, 0x00, 0x01] 0
      (.ok (.loadb .g0 .g1, 6)) = true := by decide

theorem test_decode_loadbo :
    decodesTo [0x16, 0x00, 0xC5, 0x20, 0x00, 0x09, 0x07, 0x00, 0x00, 0x00, 0x00, 0x00, 0x00, 0x00] 0
      (.ok (.loadbo .g0 .stackEnd (.imm 7), 14)) = true := by decide

theorem test_decode_stor :
    decodesTo [0x17, 0x00, 0x05, 0x00, 0x01, 0x09] 0
      (.ok (.stor (.reg .g1) .stackEnd, 6)) = true := by decide

theorem test_decode_storo :
    decodesTo [0x17, 0x00, 0x85, 0xA0, 0x09, 0x00, 0x00, 0x00, 0x00, 0x00, 0x00, 0x00, 0x09, 0x08, 0x00, 0x00, 0x00, 0x00, 0x00, 0x00, 0x00] 0
      (.ok (.storo (.imm 9) .stackEnd (.imm 8), 21)) = true := by decide

theorem test_decode_storb :
    decodesTo [0x17, 0x00, 0x45, 0x00, 0x01, 0x09] 0
      (.ok (.storb (.reg .g1) .stackEnd, 6)) = true := by decide

theorem test_decode_storbo :
    decodesTo [0x17, 0x00, 0xC5, 0xA0, 0xAB, 0x00, 0x00, 0x00, 0x00, 0x00, 0x00, 0x00, 0x09, 0x03, 0x00, 0x00, 0x00, 0x00, 0x00, 0x00, 0x00] 0
      (.ok (.storbo (.imm 0xab) .stackEnd (.imm 3), 21)) = true := by decide

theorem test_decode_push :
    decodesTo [0x18, 0x00, 0x05, 0x80, 0x01, 0x00, 0x00, 0x00, 0x00, 0x00, 0x00, 0x00] 0
      (.ok (.push (.imm 1), 12)) = true := by decide

theorem test_decode_pop :
    decodesTo [0x19, 0x00, 0x05, 0x00, 0x00] 0
      (.ok (.pop .g0, 5)) = true := by decide

theorem test_decode_halt :
    decodesTo [0x1A, 0x00, 0x06, 0x00] 0
      (.ok (.halt, 4)) = true := by decide

theorem test_decode_exit :
    decodesTo [0x1B, 0x00, 0x06, 0x80, 0xFF, 0xFF, 0xFF, 0xFF, 0xFF, 0xFF, 0xFF, 0xFF] 0
      (.ok (.exit (.imm 0xffffffffffffffff), 12)) = true := by decide

theorem test_decode_print :
    decodesTo [0x1C, 0x00, 0x06, 0x80, 0x48, 0x01, 0x00, 0x00, 0x00, 0x00, 0x00, 0x00] 0
      (.ok (.print (.imm 0x148), 12)) = true := by decide

theorem test_decode_read :
    decodesTo [0x1D, 0x00, 0x06, 0x00, 0x00] 0
      (.ok (.read .g0, 5)) = true := by decide

theorem test_decode_dump :
    decodesTo [0x1E, 0x00, 0x06, 0x00] 0
      (.ok (.dump, 4)) = true := by decide

theorem test_decode_nop :
    decodesTo [0x1F, 0x00, 0x06, 0x00] 0
      (.ok (.nop, 4)) = true := by decide

/-! ## Decoding that faults (L2.3), and the mode bits of absent slots (L2.2) -/

theorem test_decode_unknown_identifier :
    decodesTo [0x00, 0x00, 0x00, 0x00] 0 (.error (.unknownOpcode 0 0 0)) = true := by decide

theorem test_decode_unassigned_type :
    decodesTo [0x01, 0x00, 0x40, 0x00, 0x00, 0x00, 0x00] 0 (.error (.unknownOpcode 1 0 0x40)) = true := by decide

theorem test_decode_unassigned_group :
    decodesTo [0x1F, 0x00, 0x07, 0x00] 0 (.error (.unknownOpcode 0x1F 0 7)) = true := by decide

theorem test_decode_short_header :
    decodesTo [0x01, 0x00, 0x00] 0 (.error .truncated) = true := by decide

theorem test_decode_short_immediate :
    decodesTo [0x01, 0x00, 0x00, 0x20, 0x00, 0x00, 0x05, 0x00, 0x00] 0 (.error .truncated) = true := by decide

theorem test_decode_missing_register :
    decodesTo [0x01, 0x00, 0x00, 0x00, 0x00, 0x00] 0 (.error .truncated) = true := by decide

theorem test_decode_imm_in_D_before_its_byte :
    decodesTo [0x01, 0x00, 0x00, 0x80, 0x0A] 0 (.error (.operandKindMismatch 0 0x80)) = true := by decide

theorem test_decode_reg_in_T :
    decodesTo [0x0C, 0x00, 0x04, 0x00, 0x00] 0 (.error (.operandKindMismatch 0 0x00)) = true := by decide

theorem test_decode_imm_in_A :
    decodesTo [0x16, 0x00, 0x05, 0x40, 0x00, 0x09] 0 (.error (.operandKindMismatch 1 0x40)) = true := by decide

theorem test_decode_register_10 :
    decodesTo [0x01, 0x00, 0x00, 0x00, 0x0A, 0x00, 0x00] 0 (.error (.invalidRegister 0 0x0A)) = true := by decide

theorem test_decode_register_255 :
    decodesTo [0x01, 0x00, 0x00, 0x00, 0x00, 0x00, 0xFF] 0 (.error (.invalidRegister 2 0xFF)) = true := by decide

theorem test_decode_at_the_end :
    decodesTo [0x1A, 0x00, 0x06, 0x00] 4 (.error .pcOutOfRange) = true := by decide

theorem test_decode_ignores_absent_slots :
    decodesTo [0x19, 0x00, 0x05, 0x7F, 0x00] 0 (.ok (.pop .g0, 5)) = true := by decide

theorem test_decode_at_an_offset :
    decodesTo [0x1A, 0x00, 0x06, 0x00, 0x1F, 0x00, 0x06, 0x00] 4 (.ok (.nop, 4)) = true := by decide

/-! ## One step: the start states and results of L2.4 to L2.11, at most two an instruction -/

theorem test_step_addts :
    stepsTo (((launched [0x01, 0x00, 0x00, 0x00, 0x00, 0x01, 0x02]).writeReg .g1 0x7fffffffffffffff).writeReg .g2 1)
      (fun t => t.readReg .g0 = 0x8000000000000000 ∧ t.pc = 7) = true := by decide

theorem test_step_addts_2 :
    faultsWith ((launched [0x01, 0x00, 0x00, 0x20, 0x09, 0x01, 0x05, 0x00, 0x00, 0x00, 0x00, 0x00, 0x00, 0x00]).writeReg .g1 1)
      (.readOnlyRegister 0) = true := by decide

theorem test_step_addtu :
    stepsTo (((launched [0x01, 0x00, 0x10, 0x00, 0x00, 0x01, 0x02]).writeReg .g1 0xffffffffffffffff).writeReg .g2 1)
      (fun t => t.readReg .g0 = 0 ∧ t.pc = 7) = true := by decide

theorem test_step_addis :
    stepsTo ((launched [0x01, 0x00, 0x20, 0x00, 0x00, 0x00]).writeReg .g0 3)
      (fun t => t.readReg .g0 = 6 ∧ t.pc = 6) = true := by decide

theorem test_step_addis_2 :
    stepsTo (launched [0x01, 0x00, 0x20, 0x40, 0x11, 0x08, 0x00, 0x00, 0x00, 0x00, 0x00, 0x00, 0x00])
      (fun t => t.pc = 21 ∧ t.regs = RegFile.reset) = true := by decide

theorem test_step_addiu :
    stepsTo ((launched [0x01, 0x00, 0x30, 0x40, 0x00, 0x01, 0x00, 0x00, 0x00, 0x00, 0x00, 0x00, 0x00]).writeReg .g0 0xffffffffffffffff)
      (fun t => t.readReg .g0 = 0 ∧ t.pc = 13) = true := by decide

theorem test_step_subts :
    stepsTo (((launched [0x02, 0x00, 0x00, 0x00, 0x00, 0x01, 0x02]).writeReg .g1 0x8000000000000000).writeReg .g2 1)
      (fun t => t.readReg .g0 = 0x7fffffffffffffff ∧ t.pc = 7) = true := by decide

theorem test_step_subts_2 :
    stepsTo ((launched [0x02, 0x00, 0x00, 0x00, 0x00, 0x01, 0x01]).writeReg .g1 0x3039)
      (fun t => t.readReg .g0 = 0 ∧ t.pc = 7) = true := by decide

theorem test_step_subtu :
    stepsTo (((launched [0x02, 0x00, 0x10, 0x00, 0x00, 0x01, 0x02]).writeReg .g1 0).writeReg .g2 1)
      (fun t => t.readReg .g0 = 0xffffffffffffffff ∧ t.pc = 7) = true := by decide

theorem test_step_subis :
    stepsTo ((launched [0x02, 0x00, 0x20, 0x40, 0x00, 0xFF, 0xFF, 0xFF, 0xFF, 0xFF, 0xFF, 0xFF, 0xFF]).writeReg .g0 0x8000000000000000)
      (fun t => t.readReg .g0 = 0x8000000000000001 ∧ t.pc = 13) = true := by decide

theorem test_step_subiu :
    stepsTo ((launched [0x02, 0x00, 0x30, 0x00, 0x00, 0x00]).writeReg .g0 0x4d)
      (fun t => t.readReg .g0 = 0 ∧ t.pc = 6) = true := by decide

theorem test_step_lshlt :
    stepsTo (((launched [0x03, 0x00, 0x01, 0x00, 0x00, 0x01, 0x02]).writeReg .g1 1).writeReg .g2 0x40)
      (fun t => t.readReg .g0 = 1 ∧ t.pc = 7) = true := by decide

theorem test_step_lshlt_2 :
    stepsTo ((launched [0x03, 0x00, 0x01, 0x20, 0x00, 0x01, 0x41, 0x00, 0x00, 0x00, 0x00, 0x00, 0x00, 0x00]).writeReg .g1 1)
      (fun t => t.readReg .g0 = 2 ∧ t.pc = 14) = true := by decide

theorem test_step_lshli :
    stepsTo ((launched [0x03, 0x00, 0x21, 0x40, 0x00, 0xFF, 0xFF, 0xFF, 0xFF, 0xFF, 0xFF, 0xFF, 0xFF]).writeReg .g0 3)
      (fun t => t.readReg .g0 = 0x8000000000000000 ∧ t.pc = 13) = true := by decide

theorem test_step_lshrt :
    stepsTo (((launched [0x04, 0x00, 0x01, 0x00, 0x00, 0x01, 0x02]).writeReg .g1 0x8000000000000000).writeReg .g2 0x3f)
      (fun t => t.readReg .g0 = 1 ∧ t.pc = 7) = true := by decide

theorem test_step_lshri :
    stepsTo ((launched [0x04, 0x00, 0x21, 0x40, 0x00, 0x00, 0x00, 0x00, 0x00, 0x00, 0x00, 0x00, 0x00]).writeReg .g0 0x1234)
      (fun t => t.readReg .g0 = 0x1234 ∧ t.pc = 13) = true := by decide

theorem test_step_ashrt :
    stepsTo (((launched [0x05, 0x00, 0x01, 0x00, 0x00, 0x01, 0x02]).writeReg .g1 0x8000000000000000).writeReg .g2 0x3f)
      (fun t => t.readReg .g0 = 0xffffffffffffffff ∧ t.pc = 7) = true := by decide

theorem test_step_ashrt_2 :
    stepsTo (((launched [0x05, 0x00, 0x01, 0x00, 0x00, 0x01, 0x02]).writeReg .g1 0x40).writeReg .g2 0xffffffffffffffff)
      (fun t => t.readReg .g0 = 0 ∧ t.pc = 7) = true := by decide

theorem test_step_ashri :
    stepsTo ((launched [0x05, 0x00, 0x21, 0x40, 0x00, 0x04, 0x00, 0x00, 0x00, 0x00, 0x00, 0x00, 0x00]).writeReg .g0 0x7000000000000000)
      (fun t => t.readReg .g0 = 0x700000000000000 ∧ t.pc = 13) = true := by decide

theorem test_step_andt :
    stepsTo ((launched [0x06, 0x00, 0x02, 0x00, 0x00, 0x01, 0x12]).writeReg .g1 0xffffffffffffffff)
      (fun t => t.readReg .g0 = 0 ∧ t.pc = 7) = true := by decide

theorem test_step_andi :
    stepsTo ((launched [0x06, 0x00, 0x22, 0x40, 0x00, 0xF0, 0xF0, 0x00, 0x00, 0x00, 0x00, 0x00, 0x00]).writeReg .g0 0xffff)
      (fun t => t.readReg .g0 = 0xf0f0 ∧ t.pc = 13) = true := by decide

theorem test_step_ort :
    stepsTo (((launched [0x07, 0x00, 0x02, 0x00, 0x00, 0x01, 0x02]).writeReg .g1 0xf0).writeReg .g2 0xf)
      (fun t => t.readReg .g0 = 0xff ∧ t.pc = 7) = true := by decide

theorem test_step_ori :
    stepsTo ((launched [0x07, 0x00, 0x22, 0x40, 0x00, 0x00, 0x00, 0x00, 0x00, 0x00, 0x00, 0x00, 0x80]).writeReg .g0 1)
      (fun t => t.readReg .g0 = 0x8000000000000001 ∧ t.pc = 13) = true := by decide

theorem test_step_xort :
    stepsTo ((launched [0x08, 0x00, 0x02, 0x00, 0x00, 0x00, 0x00]).writeReg .g0 0x4d2)
      (fun t => t.readReg .g0 = 0 ∧ t.pc = 7) = true := by decide

theorem test_step_xori :
    stepsTo ((launched [0x08, 0x00, 0x22, 0x40, 0x00, 0xFF, 0xFF, 0xFF, 0xFF, 0xFF, 0xFF, 0xFF, 0xFF]).writeReg .g0 0xf)
      (fun t => t.readReg .g0 = 0xfffffffffffffff0 ∧ t.pc = 13) = true := by decide

theorem test_step_nott :
    stepsTo (launched [0x09, 0x00, 0x02, 0x00, 0x00, 0x12])
      (fun t => t.readReg .g0 = 0xffffffffffffffff ∧ t.pc = 6) = true := by decide

theorem test_step_noi :
    stepsTo ((launched [0x09, 0x00, 0x22, 0x00, 0x00]).writeReg .g0 0xffffffffffffffff)
      (fun t => t.readReg .g0 = 0 ∧ t.pc = 5) = true := by decide

theorem test_step_noi_2 :
    stepsTo (launched [0x09, 0x00, 0x22, 0x00, 0x12])
      (fun t => t.pc = 5 ∧ t.regs = RegFile.reset) = true := by decide

theorem test_step_mults_e :
    stepsTo (((launched [0x0A, 0x00, 0x03, 0x00, 0x00, 0x01, 0x02]).writeReg .g1 0x8000000000000000).writeReg .g2 0xffffffffffffffff)
      (fun t => t.readReg .g0 = 0x8000000000000000 ∧ t.pc = 7) = true := by decide

theorem test_step_mults_e_2 :
    stepsTo ((launched [0x0A, 0x00, 0x03, 0x20, 0x00, 0x01, 0xFD, 0xFF, 0xFF, 0xFF, 0xFF, 0xFF, 0xFF, 0xFF]).writeReg .g1 0xfffffffffffffffb)
      (fun t => t.readReg .g0 = 0xf ∧ t.pc = 14) = true := by decide

theorem test_step_mulis_e :
    stepsTo ((launched [0x0A, 0x00, 0x23, 0x40, 0x00, 0x00, 0x00, 0x00, 0x00, 0x00, 0x00, 0x00, 0x00]).writeReg .g0 0x63)
      (fun t => t.readReg .g0 = 0 ∧ t.pc = 13) = true := by decide

theorem test_step_multu_e :
    stepsTo (((launched [0x0A, 0x00, 0x13, 0x00, 0x00, 0x01, 0x02]).writeReg .g1 0xffffffffffffffff).writeReg .g2 0xffffffffffffffff)
      (fun t => t.readReg .g0 = 1 ∧ t.pc = 7) = true := by decide

theorem test_step_muliu_e :
    stepsTo ((launched [0x0A, 0x00, 0x33, 0x00, 0x00, 0x00]).writeReg .g0 0x100000000)
      (fun t => t.readReg .g0 = 0 ∧ t.pc = 6) = true := by decide

theorem test_step_divts_e :
    stepsTo (((launched [0x0B, 0x00, 0x03, 0x00, 0x00, 0x01, 0x02, 0x03]).writeReg .g2 0xfffffffffffffff9).writeReg .g3 2)
      (fun t => t.readReg .g0 = 0xfffffffffffffffd ∧ t.readReg .g1 = 0xffffffffffffffff ∧ t.pc = 8) = true := by decide

theorem test_step_divts_e_2 :
    faultsWith (((launched [0x0B, 0x00, 0x03, 0x00, 0x00, 0x01, 0x02, 0x03]).writeReg .g2 0x8000000000000000).writeReg .g3 0xffffffffffffffff)
      .divideOverflow = true := by decide

theorem test_step_divtu_e :
    stepsTo (((launched [0x0B, 0x00, 0x13, 0x00, 0x00, 0x01, 0x02, 0x03]).writeReg .g2 0xffffffffffffffff).writeReg .g3 2)
      (fun t => t.readReg .g0 = 0x7fffffffffffffff ∧ t.readReg .g1 = 1 ∧ t.pc = 8) = true := by decide

theorem test_step_divtu_e_2 :
    stepsTo (((launched [0x0B, 0x00, 0x13, 0x00, 0x00, 0x00, 0x02, 0x03]).writeReg .g2 7).writeReg .g3 2)
      (fun t => t.readReg .g0 = 1 ∧ t.pc = 8) = true := by decide

theorem test_step_jmp :
    stepsTo (launched [0x0C, 0x00, 0x04, 0x80, 0x64, 0x00, 0x00, 0x00, 0x00, 0x00, 0x00, 0x00])
      (fun t => t.pc = 100 ∧ t.regs = RegFile.reset) = true := by decide

theorem test_step_jmpeq :
    stepsTo (launched [0x0D, 0x00, 0x04, 0x80, 0x64, 0x00, 0x00, 0x00, 0x00, 0x00, 0x00, 0x00, 0x12, 0x12])
      (fun t => t.pc = 100 ∧ t.regs = RegFile.reset) = true := by decide

theorem test_step_jmpne :
    stepsTo ((launched [0x0E, 0x00, 0x04, 0xA0, 0x64, 0x00, 0x00, 0x00, 0x00, 0x00, 0x00, 0x00, 0x00, 0x05, 0x00, 0x00, 0x00, 0x00, 0x00, 0x00, 0x00]).writeReg .g0 5)
      (fun t => t.pc = 21) = true := by decide

theorem test_step_jmpgts :
    stepsTo (((launched [0x0F, 0x00, 0x04, 0x80, 0x64, 0x00, 0x00, 0x00, 0x00, 0x00, 0x00, 0x00, 0x00, 0x01]).writeReg .g0 0xffffffffffffffff).writeReg .g1 1)
      (fun t => t.pc = 14) = true := by decide

theorem test_step_jmpges :
    stepsTo (((launched [0x10, 0x00, 0x04, 0x80, 0x64, 0x00, 0x00, 0x00, 0x00, 0x00, 0x00, 0x00, 0x00, 0x01]).writeReg .g0 5).writeReg .g1 5)
      (fun t => t.pc = 100) = true := by decide

theorem test_step_jmplts :
    stepsTo (((launched [0x11, 0x00, 0x04, 0x80, 0x64, 0x00, 0x00, 0x00, 0x00, 0x00, 0x00, 0x00, 0x00, 0x01]).writeReg .g0 0x8000000000000000).writeReg .g1 0)
      (fun t => t.pc = 100) = true := by decide

theorem test_step_jmples :
    stepsTo (((launched [0x12, 0x00, 0x04, 0x80, 0x64, 0x00, 0x00, 0x00, 0x00, 0x00, 0x00, 0x00, 0x00, 0x01]).writeReg .g0 6).writeReg .g1 5)
      (fun t => t.pc = 14) = true := by decide

theorem test_step_jmpgtu :
    stepsTo (((launched [0x0F, 0x00, 0x14, 0x80, 0x64, 0x00, 0x00, 0x00, 0x00, 0x00, 0x00, 0x00, 0x00, 0x01]).writeReg .g0 0xffffffffffffffff).writeReg .g1 1)
      (fun t => t.pc = 100) = true := by decide

theorem test_step_jmpgeu :
    stepsTo ((launched [0x10, 0x00, 0x14, 0x80, 0x64, 0x00, 0x00, 0x00, 0x00, 0x00, 0x00, 0x00, 0x00, 0x12]).writeReg .g0 0)
      (fun t => t.pc = 100) = true := by decide

theorem test_step_jmpltu :
    stepsTo (((launched [0x11, 0x00, 0x14, 0x80, 0x64, 0x00, 0x00, 0x00, 0x00, 0x00, 0x00, 0x00, 0x00, 0x01]).writeReg .g0 0x8000000000000000).writeReg .g1 0)
      (fun t => t.pc = 14) = true := by decide

theorem test_step_jmpleu :
    stepsTo ((launched [0x12, 0x00, 0x14, 0x80, 0x64, 0x00, 0x00, 0x00, 0x00, 0x00, 0x00, 0x00, 0x12, 0x01]).writeReg .g1 0)
      (fun t => t.pc = 100) = true := by decide

theorem test_step_cal :
    stepsTo ((launched [0x13, 0x00, 0x04, 0x80, 0x64, 0x00, 0x00, 0x00, 0x00, 0x00, 0x00, 0x00]).withWords [])
      (fun t => t.mem.words = [0xc] ∧ t.pc = 100) = true := by decide

theorem test_step_cal_2 :
    faultsWith (((launched [0x13, 0x00, 0x04, 0x80, 0x64, 0x00, 0x00, 0x00, 0x00, 0x00, 0x00, 0x00]).withWords [7]).withCapacity 1)
      .sizeLimitReached = true := by decide

theorem test_step_ret :
    stepsTo ((launched [0x14, 0x00, 0x04, 0x80, 0x05, 0x00, 0x00, 0x00, 0x00, 0x00, 0x00, 0x00]).withWords [0x28, 0x29])
      (fun t => t.mem.words = [0x29] ∧ t.readReg .ret = 5 ∧ t.pc = 40) = true := by decide

theorem test_step_ret_2 :
    faultsWith (((launched [0x14, 0x00, 0x04, 0x00, 0x00]).writeReg .g0 9).withWords [])
      .stackUnderflow = true := by decide

theorem test_step_mov :
    stepsTo (launched [0x15, 0x00, 0x05, 0x00, 0x00, 0x11])
      (fun t => t.readReg .g0 = 6 ∧ t.pc = 6) = true := by decide

theorem test_step_mov_2 :
    stepsTo (launched [0x15, 0x00, 0x05, 0x40, 0x11, 0x64, 0x00, 0x00, 0x00, 0x00, 0x00, 0x00, 0x00])
      (fun t => t.pc = 100 ∧ t.regs = RegFile.reset) = true := by decide

theorem test_step_load :
    stepsTo ((launched [0x16, 0x00, 0x05, 0x00, 0x00, 0x09]).withWords [0x1122334455667788])
      (fun t => t.readReg .g0 = 0x1122334455667788 ∧ t.pc = 6) = true := by decide

theorem test_step_load_2 :
    faultsWith (((launched [0x16, 0x00, 0x05, 0x00, 0x00, 0x01]).writeReg .g1 0xfffffffc).withWords [5])
      (.misalignedWordAccess 0xfffffffc) = true := by decide

theorem test_step_loado :
    stepsTo (((launched [0x16, 0x00, 0x85, 0x20, 0x00, 0x01, 0xF8, 0xFF, 0xFF, 0xFF, 0xFF, 0xFF, 0xFF, 0xFF]).writeReg .g1 0x100000000).withWords [5])
      (fun t => t.readReg .g0 = 5 ∧ t.pc = 14) = true := by decide

theorem test_step_loado_2 :
    faultsWith ((launched [0x16, 0x00, 0x85, 0x20, 0x00, 0x09, 0x08, 0x00, 0x00, 0x00, 0x00, 0x00, 0x00, 0x00]).withWords [5])
      (.memoryOutOfBounds 0x100000000) = true := by decide

theorem test_step_loadb :
    stepsTo (((launched [0x16, 0x00, 0x45, 0x00, 0x00, 0x01]).writeReg .g1 0xffffffff).withWords [0xff00000000000000])
      (fun t => t.readReg .g0 = 0xff ∧ t.pc = 6) = true := by decide

theorem test_step_loadbo :
    stepsTo ((launched [0x16, 0x00, 0xC5, 0x20, 0x00, 0x09, 0x07, 0x00, 0x00, 0x00, 0x00, 0x00, 0x00, 0x00]).withWords [0x1122334455667788])
      (fun t => t.readReg .g0 = 0x11 ∧ t.pc = 14) = true := by decide

theorem test_step_loadbo_2 :
    faultsWith ((launched [0x16, 0x00, 0xC5, 0x20, 0x00, 0x09, 0x08, 0x00, 0x00, 0x00, 0x00, 0x00, 0x00, 0x00]).withWords [0x1122334455667788])
      (.memoryOutOfBounds 0x100000000) = true := by decide

theorem test_step_stor :
    stepsTo (((launched [0x17, 0x00, 0x05, 0x00, 0x01, 0x09]).writeReg .g1 7).withWords [0x1122334455667788])
      (fun t => t.mem.words = [7] ∧ t.pc = 6) = true := by decide

theorem test_step_stor_2 :
    faultsWith ((((launched [0x17, 0x00, 0x05, 0x00, 0x01, 0x02]).writeReg .g1 7).writeReg .g2 0x100000000).withWords [1])
      (.memoryOutOfBounds 0x100000000) = true := by decide

theorem test_step_storo :
    stepsTo ((launched [0x17, 0x00, 0x85, 0xA0, 0x09, 0x00, 0x00, 0x00, 0x00, 0x00, 0x00, 0x00, 0x09, 0x08, 0x00, 0x00, 0x00, 0x00, 0x00, 0x00, 0x00]).withWords [5, 6])
      (fun t => t.mem.words = [5, 9] ∧ t.pc = 21) = true := by decide

theorem test_step_storb :
    stepsTo (((launched [0x17, 0x00, 0x45, 0x00, 0x01, 0x09]).writeReg .g1 0x1ff).withWords [0x1122334455667788])
      (fun t => t.mem.words = [0x11223344556677ff] ∧ t.pc = 6) = true := by decide

theorem test_step_storbo :
    stepsTo ((launched [0x17, 0x00, 0xC5, 0xA0, 0xAB, 0x00, 0x00, 0x00, 0x00, 0x00, 0x00, 0x00, 0x09, 0x03, 0x00, 0x00, 0x00, 0x00, 0x00, 0x00, 0x00]).withWords [0x1122334455667788])
      (fun t => t.mem.words = [0x11223344ab667788] ∧ t.pc = 21) = true := by decide

theorem test_step_push :
    stepsTo ((launched [0x18, 0x00, 0x05, 0x00, 0x09]).withWords [])
      (fun t => t.mem.words = [0x100000000] ∧ t.pc = 5) = true := by decide

theorem test_step_push_2 :
    faultsWith ((((launched [0x18, 0x00, 0x05, 0x00, 0x00]).writeReg .g0 3).withWords [1, 2]).withCapacity 2)
      .sizeLimitReached = true := by decide

theorem test_step_pop :
    stepsTo ((launched [0x19, 0x00, 0x05, 0x00, 0x11]).withWords [0x28])
      (fun t => t.mem.words = [] ∧ t.pc = 40) = true := by decide

theorem test_step_pop_2 :
    faultsWith ((launched [0x19, 0x00, 0x05, 0x00, 0x09]).withWords [])
      (.readOnlyRegister 0) = true := by decide

theorem test_step_halt :
    stepsTo (launched [0x1A, 0x00, 0x06, 0x00])
      (fun t => t.status = .halted ∧ t.pc = 0) = true := by decide

theorem test_step_exit :
    stepsTo (launched [0x1B, 0x00, 0x06, 0x80, 0xFF, 0xFF, 0xFF, 0xFF, 0xFF, 0xFF, 0xFF, 0xFF])
      (fun t => t.status = .exited (-1) ∧ t.pc = 0) = true := by decide

theorem test_step_exit_2 :
    stepsTo ((launched [0x1B, 0x00, 0x06, 0x00, 0x00]).writeReg .g0 2)
      (fun t => t.status = .exited (2) ∧ t.pc = 0) = true := by decide

theorem test_step_print :
    stepsTo (launched [0x1C, 0x00, 0x06, 0x80, 0x48, 0x01, 0x00, 0x00, 0x00, 0x00, 0x00, 0x00])
      (fun t => t.output = [72] ∧ t.pc = 12) = true := by decide

theorem test_step_print_2 :
    stepsTo ((launched [0x1C, 0x00, 0x06, 0x00, 0x00]).writeReg .g0 0x41)
      (fun t => t.output = [65] ∧ t.pc = 5) = true := by decide

theorem test_step_read :
    stepsTo ((launched [0x1D, 0x00, 0x06, 0x00, 0x00]).withInput [65])
      (fun t => t.readReg .g0 = 0x41 ∧ t.input = [] ∧ t.pc = 5) = true := by decide

theorem test_step_read_2 :
    stepsTo ((launched [0x1D, 0x00, 0x06, 0x00, 0x12]).withInput [120, 121])
      (fun t => t.input = [121] ∧ t.pc = 5) = true := by decide

theorem test_step_dump :
    faultsWith (launched [0x1E, 0x00, 0x06, 0x00])
      .unimplemented = true := by decide

theorem test_step_nop :
    stepsTo (launched [0x1F, 0x00, 0x06, 0x00])
      (fun t => t.pc = 4 ∧ t.regs = RegFile.reset) = true := by decide

/-! ## The uninitialised-read policy and the order of faults (L2.11) -/

theorem test_uninit_mov :
    faultsWith ((launched [0x15, 0x00, 0x05, 0x00, 0x00, 0x01]).withPolicy .fault) (.uninitializedRead .g1) = true := by decide

theorem test_uninit_in_place :
    faultsWith ((launched [0x01, 0x00, 0x20, 0x40, 0x00, 0x01, 0x00, 0x00, 0x00, 0x00, 0x00, 0x00, 0x00]).withPolicy .fault) (.uninitializedRead .g0) = true := by decide

theorem test_readOnly_before_uninit :
    faultsWith ((launched [0x15, 0x00, 0x05, 0x00, 0x08, 0x01]).withPolicy .fault) (.readOnlyRegister 0) = true := by decide

theorem test_uninit_before_divideByZero :
    faultsWith (((launched [0x0B, 0x00, 0x03, 0x00, 0x00, 0x01, 0x02, 0x03]).writeReg .g2 5).withPolicy .fault) (.uninitializedRead .g3) = true := by decide

theorem test_readOnly_before_underflow :
    faultsWith ((launched [0x19, 0x00, 0x05, 0x00, 0x09]).withWords []) (.readOnlyRegister 0) = true := by decide

theorem test_uninit_before_underflow :
    faultsWith (((launched [0x14, 0x00, 0x04, 0x00, 0x00]).withWords []).withPolicy .fault) (.uninitializedRead .g0) = true := by decide

/-! ## The assembler and its text (spec/30_encoding.md R98 to R105; example E5 of L1) -/

/-- The forward reference of E5: the target is the offset of the instruction after the label. -/
theorem test_assemble_forward_label :
    assemble [.instr .jmp [.label "end"], .instr .nop [], .label "end", .instr .halt []] =
      .ok [0x0C, 0x00, 0x04, 0x80, 16, 0, 0, 0, 0, 0, 0, 0, 0x1F, 0x00, 0x06, 0x00,
           0x1A, 0x00, 0x06, 0x00] := by rfl

theorem test_assemble_collects_errors :
    assemble [.label "a", .instr .jmp [.label "b"], .label "a", .instr .halt [.imm 1]] =
      .error [⟨0, .duplicateLabel "a"⟩, ⟨1, .undefinedLabel "b"⟩, ⟨2, .duplicateLabel "a"⟩,
        ⟨3, .encodingError⟩] := by rfl

theorem test_disassemble_first_fault :
    disassemble [0x1A, 0x00, 0x06, 0x00, 0x1F, 0x00, 0x07, 0x00] =
      .error (.unknownOpcode 0x1F 0x00 0x07, 4) := by rfl

/-- The literals of R104: `-1`, the greatest unsigned one, one past each range, `-` with `u`. -/
theorem test_literals :
    Literal.pattern ⟨true, 1, .none⟩ = .ok 0xFFFFFFFFFFFFFFFF ∧
      Literal.pattern ⟨false, 18446744073709551615, .unsigned⟩ = .ok 0xFFFFFFFFFFFFFFFF ∧
      Literal.pattern ⟨false, 18446744073709551616, .unsigned⟩ = .error .parseError ∧
      Literal.pattern ⟨false, 9223372036854775808, .signed⟩ = .error .parseError ∧
      Literal.pattern ⟨true, 9223372036854775808, .signed⟩ = .ok 0x8000000000000000 ∧
      Literal.pattern ⟨true, 1, .unsigned⟩ = .error .parseError := ⟨rfl, rfl, rfl, rfl, rfl, rfl⟩

theorem test_text :
    (ProgramElement.instr .addts [.reg .g0, .reg .zero, .imm 5]).text = "addts $G_0 $Z 5u" ∧
      (ProgramElement.instr .jmp [.label "end"]).text = "jmp :end" ∧
      (ProgramElement.label "end").text = "end:" := ⟨rfl, rfl, rfl⟩


/-! ## Witnesses: the hypotheses of the statements hold together, at the ends of their ranges -/

/-- A state under `UNINIT_REG_POLICY = fault` where only `$G_1` and `$G_2` have been written, at the last
`pc` from which the instruction does not overflow (spec/10_state.md R32). -/
def edge (i : Instr) : State :=
  { ((launched []).writeReg .g1 7).writeReg .g2 3 with
    pc := BitVec.ofNat 64 (2 ^ 64 - 1 - i.length)
    uninitPolicy := .fault }

/-- `edge` with the stack words 5 and 6, at 0xFFFFFFF0 and 0xFFFFFFF8, and `$G_1` holding an address. -/
def edgeAt (i : Instr) (a : Word) : State := ((edge i).writeReg .g1 a).withWords [5, 6]

/-- The instruction meets no common fault in its `edge` state. -/
abbrev startsAtEdge (i : Instr) : Prop := NoCommonFault i (edge i)

/-- The stack words 5 and 6 at 0xFFFFFFF0 and 0xFFFFFFF8, under a word limit of 2. -/
def twoWords : Memory := ⟨0x100000000, 0xFFFFFFF0, [5, 6], 2⟩

theorem opcodeMap_injective : ∀ o o', opcodeMap o = opcodeMap o' → o = o' := by
  have back : ∀ o, opcodeMap.lookup (opcodeMap o) = some o := by intro o; cases o <;> rfl
  intro o o' h
  have := back o
  rw [h, back o'] at this
  exact (Option.some.inj this).symm

/-- An opcode map that is not the default one: every code of spec/30_encoding.md R84 plus 256. -/
def elsewhere : OpcodeMap := fun o => { opcodeMap o with code := (opcodeMap o).code + 0x0100 }

theorem elsewhere_injective : ∀ o o', elsewhere o = elsewhere o' → o = o' := by
  intro o o' h
  simp only [elsewhere, Ident.mk.injEq, add_left_inj] at h
  exact opcodeMap_injective _ _ (by
    cases ho : opcodeMap o; cases ho' : opcodeMap o'; simp_all)

/-- A run decodes under its own opcode map (spec/00_scope.md R7): `1F 01 06` is `nop` there, and the
bytes of the default table are unknown. -/
theorem test_run_under_another_map :
    stepsTo { launched [0x1F, 0x01, 0x06, 0x00] with opcodes := .ofMap elsewhere }
        (fun t => t.pc = 4 ∧ t.status = .running) = true ∧
      faultsWith { launched [0x1F, 0x00, 0x06, 0x00] with opcodes := .ofMap elsewhere }
        (.unknownOpcode 0x1F 0x00 0x06) = true := by decide

theorem witness_IdentifierCodecRoundTrip :
    identOfNats 0xFFFF 15 15 = some ⟨0xFFFF, 15, 15⟩ ∧ identOfNats 1 16 0 = none ∧
      identOfNats 1 0 16 = none := by decide

theorem witness_ModeByteRoundTrip :
    [true, false, true, false, false, false, false, true].length = 8 ∧
      modeEncode [true, false, true, false, false, false, false, true] = 0xA1 := by decide

theorem witness_OperandBytesRoundTrip :
    Reg.ofCode 9 = some .stackEnd ∧ Reg.ofCode 10 = none ∧ Reg.ofCode 15 = none ∧
      Reg.ofCode 16 = some .ret ∧ Reg.ofCode 19 = some .error ∧ Reg.ofCode 20 = none ∧
      Reg.ofCode 255 = none := by decide

theorem witness_DecodeOfEncode :
    (∀ o o', opcodeMap o = opcodeMap o' → o = o') ∧
      decodesTo ([0xFF, 0xFF] ++ encode (.push (.imm 1)) ++ [0xFF]) 2
        (.ok (.push (.imm 1), 12)) = true :=
  ⟨opcodeMap_injective, by decide⟩

theorem witness_EncodeOfDecode :
    decodeAt [0x1A, 0x00, 0x06, 0xFF] 0 = .ok (.halt, 4) ∧
      decodeAt [0x19, 0x00, 0x05, 0x00, 0x00, 0xAA] 0 = .ok (.pop .g0, 5) := ⟨rfl, rfl⟩

theorem witness_UnassignedIdentifiersFault :
    (∀ o, opcodeMap o ≠ identDecode 0 0 0) ∧ (∀ o, opcodeMap o ≠ identDecode 0x20 0x00 0x06) ∧
      (∀ o, opcodeMap o ≠ identDecode 0x1F 0x00 0x07) ∧ (identDecode 0 0 0).code = 0 ∧
      32 ≤ (identDecode 0x20 0x00 0x06).code.toNat ∧ 7 ≤ (identDecode 0x1F 0x00 0x07).group.toNat ∧
      ∀ o, (opcodeMap o).code = (identDecode 0x1F 0x00 0x16).code →
        (opcodeMap o).type ≠ (identDecode 0x1F 0x00 0x16).type ∨
          (opcodeMap o).group ≠ (identDecode 0x1F 0x00 0x16).group := by
  refine ⟨?_, ?_, ?_, by decide, by decide, by decide, ?_⟩ <;> · intro o; cases o <;> decide

theorem witness_DecodeStaysInsideTheProgram :
    decodeAt [0x1A, 0x00, 0x06, 0x00, 0x1F, 0x00, 0x06, 0x00] 4 = .ok (.nop, 4) ∧
      [0x1A, 0x00, 0x06, 0x00, 0x1F, 0x00, 0x06, 0x00, 0x77].take (4 + 4) =
        ([0x1A, 0x00, 0x06, 0x00, 0x1F, 0x00, 0x06, 0x00].take (4 + 4) : List Byte) := ⟨rfl, rfl⟩

theorem witness_DisassembleOfAssemble :
    (∀ o o', elsewhere o = elsewhere o' → o = o') ∧
      assembleWith elsewhere [.ofInstr .nop, .ofInstr .halt] =
        .ok [0x1F, 0x01, 0x06, 0x00, 0x1A, 0x01, 0x06, 0x00] ∧
      disassembleWith elsewhere [0x1F, 0x01, 0x06, 0x00, 0x1A, 0x01, 0x06, 0x00] =
        .ok [.nop, .halt] :=
  ⟨elsewhere_injective, rfl, rfl⟩

/-- A backward reference in a compare-jump, whose `T` slot is the first of three (R85). -/
theorem witness_LabelsResolveToOffsets_compare :
    assemble [.instr .nop [], .label "a", .instr .jmpleu [.label "a", .reg .g0, .imm 1]] =
        .ok [0x1F, 0x00, 0x06, 0x00, 0x12, 0x00, 0x14, 0xA0, 4, 0, 0, 0, 0, 0, 0, 0, 0x00,
             1, 0, 0, 0, 0, 0, 0, 0] ∧
      AsmOperand.label "a" ∈ [AsmOperand.label "a", .reg .g0, .imm 1] ∧
      ProgramElement.label "b" ∉
        [ProgramElement.label "a"] ++ [.instr .jmpeq [.label "a", .imm 1, .imm 1]] ∧
      fitsAsm (Op.schema .jmpeq) [.label "b", .reg .g0, .imm 1] = true := ⟨rfl, by decide⟩

theorem witness_LabelsResolveToOffsets :
    assemble [.label "a", .instr .jmp [.label "b"], .label "b", .instr .cal [.label "a"]] =
        .ok [0x0C, 0x00, 0x04, 0x80, 12, 0, 0, 0, 0, 0, 0, 0,
             0x13, 0x00, 0x04, 0x80, 0, 0, 0, 0, 0, 0, 0, 0] ∧
      ProgramElement.label "c" ∉
        [.label "a", .instr .jmp [.label "b"]] ++ [.label "b"] := ⟨rfl, by decide⟩

theorem witness_StackRegistersAreReadOnly :
    (∀ i ∈ ([.mov .stackBase (.imm 1), .divts_e .g0 .stackEnd (.reg .g1) (.reg .g2),
        .divtu_e .stackEnd .stackBase (.reg .g1) (.reg .g2)] : List Instr),
      (edge i).pc.toNat + i.length < 2 ^ 64) ∧
    (operandSlots (.mov .stackBase (.imm 1)))[0]? = some (.dest, .reg .stackBase) ∧
    (operandSlots (.divts_e .g0 .stackEnd (.reg .g1) (.reg .g2)))[1]? =
      some (.dest, .reg .stackEnd) ∧
    (operandSlots (.divts_e .g0 .stackEnd (.reg .g1) (.reg .g2)))[0]? = some (.dest, .reg .g0) ∧
    (operandSlots (.divtu_e .stackEnd .stackBase (.reg .g1) (.reg .g2)))[0]? =
      some (.dest, .reg .stackEnd) ∧
    Instr.op .nop ∉ [Op.push, .pop, .cal, .ret] := by decide

theorem witness_ErrorRegisterIsAdvisory :
    (launched [0x1F, 0x00, 0x06, 0x00]).fetch = .ok (.nop, 4) ∧ .error ∉ destRegs .nop ∧
      stepsTo (launched [0x1F, 0x00, 0x06, 0x00]) (fun t => t.status = .running) = true ∧
      stepsTo (launched [0x1E, 0x00, 0x06, 0x00]) (fun t => t.status = .faulted .unimplemented) =
        true := ⟨rfl, by decide, by decide, by decide⟩

theorem witness_UninitializedReadPolicy :
    let i : Instr := .divts_e .g0 .g3 (.reg .g1) (.reg .g3)
    (edge i).uninitPolicy = .fault ∧ (edge i).pc.toNat + i.length < 2 ^ 64 ∧
      .stackBase ∉ destRegs i ∧ .stackEnd ∉ destRegs i ∧ readRegs i = [.g1] ++ .g3 :: [] ∧
      (∀ q ∈ [Reg.g1], (edge i).defined q = true) ∧ (edge i).defined .g3 = false ∧
      State.reset.uninitPolicy = .zero ∧ State.reset.status = .running := by decide

theorem witness_PcOverflowComesBeforeExecution :
    2 ^ 64 ≤ (BitVec.ofNat 64 (2 ^ 64 - 4)).toNat + Instr.length .halt ∧
      2 ^ 64 ≤ (BitVec.ofNat 64 (2 ^ 64 - 1)).toNat + Instr.length (.jmp 0) ∧
      ([0x1F, 0x00, 0x06, 0x00] : List Byte).length < 2 ^ 64 := by decide

theorem witness_MemoryReads :
    twoWords.wf ∧ twoWords.words[0]? = some 5 ∧ twoWords.words[1]? = some 6 ∧
      (0xFFFFFFF0 : Word).toNat = twoWords.stackEnd.toNat + 8 * 0 + 0 ∧
      (0xFFFFFFFF : Word).toNat = twoWords.stackEnd.toNat + 8 * 1 + 7 ∧
      twoWords.contains 0xFFFFFFF0 = true ∧ twoWords.contains 0xFFFFFFFF = true ∧
      twoWords.contains 0xFFFFFFEF = false ∧ twoWords.contains 0x100000000 = false ∧
      (Memory.reset 0 0).wf ∧ (Memory.reset 0 0).words = [] ∧ (Memory.reset 0 0).contains 0 = false ∧
      twoWords.byteOffset 0xFFFFFFF8 = 0 ∧ twoWords.contains 0xFFFFFFF8 = true ∧
      (0xFFFFFFFF : Word).toNat = (0xFFFFFFF8 : Word).toNat + 7 := by decide

theorem witness_MemoryWrites :
    twoWords.wf ∧ twoWords.contains 0xFFFFFFF8 = true ∧ twoWords.byteOffset 0xFFFFFFF8 = 0 ∧
      twoWords.contains 0xFFFFFFFF = true ∧ twoWords.byteOffset 0xFFFFFFFF ≠ 0 ∧
      twoWords.contains 0xFFFFFFEF = false ∧ twoWords.contains 0x100000000 = false := by decide

theorem witness_PushGrowsTheStackDown :
    twoWords.words.length = twoWords.capacity ∧ twoWords.wf ∧
      (Memory.reset 8 1).words.length ≠ (Memory.reset 8 1).capacity ∧ (Memory.reset 8 1).wf := by
  decide

theorem witness_PopUndoesPush :
    (Memory.reset 8 1).words = [] ∧ twoWords.words = 5 :: [6] ∧ twoWords.wf ∧
      (Memory.reset 8 1).push 3 = .ok ⟨8, 0, [3], 1⟩ := ⟨rfl, rfl, by decide, rfl⟩

theorem witness_EveryStepKeepsTheStackInvariant :
    (launched [0x18, 0x00, 0x05, 0x00, 0x09]).mem.wf ∧
      stepsTo (launched [0x18, 0x00, 0x05, 0x00, 0x09]) (fun t => t.mem.words.length = 1) = true ∧
      launchOk 8192 1024 = true ∧ launchOk 0 0 = true ∧ launchOk 8191 1024 = false := by decide

theorem witness_RunningStatesStepEndedOnesDoNot :
    State.reset.status = .running ∧ (faultedAs State.reset .unimplemented).status ≠ .running := by
  decide

theorem witness_StepRunsTheDecodedInstruction :
    (launched [0x1F, 0x00, 0x06, 0x00]).status = .running ∧
      decodeAtWith (launched [0x1F, 0x00, 0x06, 0x00]).opcodes.toMap
        (launched [0x1F, 0x00, 0x06, 0x00]).program
        (launched [0x1F, 0x00, 0x06, 0x00]).pc.toNat = .ok (.nop, 4) := ⟨rfl, rfl⟩

/-- The second clause, under a map that is not the default one, with bytes before and after. -/
theorem witness_StepRunsTheDecodedInstruction_encoded :
    let s : State := { launched [0xFF, 0x1F, 0x01, 0x06, 0x00, 0xFF] with
      opcodes := .ofMap elsewhere, pc := 1 }
    s.status = .running ∧
      (∀ o o', s.opcodes.toMap o = s.opcodes.toMap o' → o = o') ∧
      s.program = [0xFF] ++ encodeWith s.opcodes.toMap (Instr.toRaw .nop) ++ [0xFF] ∧
      s.pc.toNat = [(0xFF : Byte)].length := by
  refine ⟨rfl, ?_, by decide, rfl⟩
  simpa using elsewhere_injective

theorem witness_StepTakesDecodeFaults :
    (launched [0, 0, 0, 0]).status = .running ∧
      decodeAtWith (launched [0, 0, 0, 0]).opcodes.toMap (launched [0, 0, 0, 0]).program
        (launched [0, 0, 0, 0]).pc.toNat = .error (.unknownOpcode 0 0 0) ∧
      (launched []).program.length ≤ (launched []).pc.toNat ∧
      (launched [0x1F, 0x00, 0x06]).pc.toNat < (launched [0x1F, 0x00, 0x06]).program.length ∧
      (launched [0x1F, 0x00, 0x06]).program.length < (launched [0x1F, 0x00, 0x06]).pc.toNat + 4 :=
  ⟨rfl, rfl, by decide, by decide, by decide⟩

theorem witness_FaultsArePrecise :
    stepsTo (launched [0x19, 0x00, 0x05, 0x00, 0x00]) (fun t => t.status = .faulted .stackUnderflow) =
      true := by decide

theorem witness_AddForms :
    startsAtEdge (.addts .g0 (.reg .g1) (.reg .g2)) ∧ startsAtEdge (.addts .zero (.reg .g1) (.imm 5)) ∧
      startsAtEdge (.addtu .instruction (.imm 1) (.reg .g2)) ∧ startsAtEdge (.addis .g1 (.reg .g1)) ∧
      startsAtEdge (.addis .instruction (.imm 8)) ∧ startsAtEdge (.addiu .zero (.imm 1)) := by decide

theorem witness_SubtractForms :
    startsAtEdge (.subts .g0 (.reg .g1) (.reg .g1)) ∧ startsAtEdge (.subtu .zero (.imm 0) (.reg .g2)) ∧
      startsAtEdge (.subis .g1 (.imm 1)) ∧ startsAtEdge (.subiu .instruction (.reg .g2)) := by decide

theorem witness_ShiftLeftForms :
    startsAtEdge (.lshlt .g0 (.reg .g1) (.imm 64)) ∧ startsAtEdge (.lshli .g1 (.reg .g2)) := by decide

theorem witness_ShiftRightLogicalForms :
    startsAtEdge (.lshrt .g0 (.reg .g1) (.imm 63)) ∧ startsAtEdge (.lshri .g1 (.imm 0)) := by decide

theorem witness_ShiftRightArithmeticForms :
    startsAtEdge (.ashrt .g0 (.reg .g1) (.imm 63)) ∧ startsAtEdge (.ashri .g1 (.reg .g2)) := by decide

theorem witness_BitLogicForms :
    startsAtEdge (.andt .g0 (.reg .g1) (.reg .zero)) ∧ startsAtEdge (.ort .zero (.reg .g1) (.imm 1)) ∧
      startsAtEdge (.xort .g0 (.reg .stackEnd) (.reg .stackBase)) ∧ startsAtEdge (.andi .g1 (.imm 1)) ∧
      startsAtEdge (.ori .g2 (.reg .g1)) ∧ startsAtEdge (.xori .instruction (.imm 1)) := by decide

theorem witness_NotForms :
    startsAtEdge (.nott .g0 (.reg .zero)) ∧ startsAtEdge (.noi .g1) ∧ startsAtEdge (.noi .zero) := by
  decide

theorem witness_MultiplyForms :
    startsAtEdge (.mults_e .g0 (.reg .g1) (.reg .g2)) ∧ startsAtEdge (.multu_e .g0 (.imm 2) (.imm 3)) ∧
      startsAtEdge (.mulis_e .g1 (.reg .g1)) ∧ startsAtEdge (.muliu_e .g2 (.imm 0)) := by decide

theorem witness_SignedDivision :
    startsAtEdge (.divts_e .g0 .g3 (.reg .g1) (.reg .g2)) ∧
      (opAt (.divts_e .g0 .g3 (.reg .g1) (.reg .g2)) (edge (.divts_e .g0 .g3 (.reg .g1) (.reg .g2)))
        (.reg .g2)).s ≠ 0 ∧
      startsAtEdge (.divts_e .g0 .g0 (.imm 0x8000000000000000) (.imm 0xFFFFFFFFFFFFFFFF)) ∧
      Word.s 0x8000000000000000 = -2 ^ 63 ∧ Word.s 0xFFFFFFFFFFFFFFFF = -1 ∧
      ¬(Word.s 0x8000000000000000 = -2 ^ 63 ∧ Word.s 1 = -1) ∧
      startsAtEdge (.divts_e .zero .instruction (.reg .g1) (.imm 0)) ∧ Word.s 0 = 0 := by decide

theorem witness_UnsignedDivision :
    startsAtEdge (.divtu_e .g0 .g0 (.reg .g1) (.reg .g2)) ∧ Word.u 1 ≠ 0 ∧
      startsAtEdge (.divtu_e .zero .g0 (.reg .g1) (.imm 0xFFFFFFFFFFFFFFFF)) ∧
      startsAtEdge (.divtu_e .g0 .g3 (.reg .g1) (.imm 0)) ∧ Word.u 0 = 0 := by decide

theorem witness_UnconditionalJump :
    startsAtEdge (.jmp 0) ∧ startsAtEdge (.jmp (edge (.jmp 0)).pc) ∧
      (edge (.jmp 0)).status = .running ∧ (0 : Word).toNat = (edge (.jmp 0)).program.length := by decide

theorem witness_EqualityAndSignedJumps :
    startsAtEdge (.jmpeq 0 (.reg .g1) (.reg .g1)) ∧ startsAtEdge (.jmpne 0 (.reg .g1) (.imm 7)) ∧
      startsAtEdge (.jmpgts 0 (.reg .g1) (.reg .g2)) ∧ startsAtEdge (.jmpges 0 (.reg .g1) (.imm 7)) ∧
      startsAtEdge (.jmplts 0 (.reg .g1) (.reg .g2)) ∧ startsAtEdge (.jmples 0 (.reg .g1) (.imm 7)) := by
  decide

theorem witness_UnsignedJumps :
    startsAtEdge (.jmpgtu 0 (.reg .g1) (.reg .g2)) ∧ startsAtEdge (.jmpgeu 0 (.reg .g1) (.reg .zero)) ∧
      startsAtEdge (.jmpltu 0 (.reg .g1) (.reg .g2)) ∧ startsAtEdge (.jmpleu 0 (.reg .zero) (.imm 0)) := by
  decide

theorem witness_CallPushesTheReturnAddress :
    let full := (edgeAt (.cal 0) 0).withCapacity 2
    let room := (edgeAt (.cal 0) 0).withCapacity 3
    NoCommonFault (.cal 0) room ∧ room.mem.wf ∧ room.mem.words.length ≠ room.mem.capacity ∧
      NoCommonFault (.cal 0) full ∧ full.mem.words.length = full.mem.capacity := by decide

theorem witness_ReturnPopsTheReturnAddress :
    let i : Instr := .ret (.reg .g1)
    NoCommonFault i (edgeAt i 0) ∧ (edgeAt i 0).mem.wf ∧ (edgeAt i 0).mem.words = 5 :: [6] ∧
      NoCommonFault i (edge i) ∧ (edge i).mem.words = [] := by decide

theorem witness_MoveCopies :
    startsAtEdge (.mov .g0 (.reg .g1)) ∧ startsAtEdge (.mov .zero (.imm 7)) ∧
      startsAtEdge (.mov .instruction (.imm 100)) ∧ startsAtEdge (.mov .g0 (.reg .instruction)) := by decide

/-- What a word access at the address `a` that succeeds assumes. -/
def alignedInside (i : Instr) (s : State) (a : Word) : Bool :=
  decide <| NoCommonFault i s ∧ s.mem.wf ∧ s.mem.contains a = true ∧ s.mem.byteOffset a = 0

/-- What a misaligned word access at the address `a` assumes. -/
def misalignedInside (i : Instr) (s : State) (a : Word) : Bool :=
  decide <| NoCommonFault i s ∧ s.mem.wf ∧ s.mem.contains a = true ∧ s.mem.byteOffset a ≠ 0

/-- What a byte access at the address `a` that succeeds assumes. -/
def inside (i : Instr) (s : State) (a : Word) : Bool :=
  decide <| NoCommonFault i s ∧ s.mem.wf ∧ s.mem.contains a = true

/-- What an access outside the occupied region assumes. -/
def outside (i : Instr) (s : State) (a : Word) : Bool :=
  decide <| NoCommonFault i s ∧ s.mem.contains a = false

theorem witness_WordLoads_load :
    ([0xFFFFFFF0, 0xFFFFFFF8] : List Word).all (fun a => regAt (.load .g0 .g1) (edgeAt (.load .g0 .g1) a) .g1 = a) = true ∧
      ([0xFFFFFFF0, 0xFFFFFFF8] : List Word).all (fun a => alignedInside (.load .g0 .g1) (edgeAt (.load .g0 .g1) a) a) = true ∧
      ([0xFFFFFFF1, 0xFFFFFFFF] : List Word).all
        (fun a => misalignedInside (.load .g0 .g1) (edgeAt (.load .g0 .g1) a) a) = true ∧
      ([0xFFFFFFEF, 0x100000000] : List Word).all (fun a => outside (.load .g0 .g1) (edgeAt (.load .g0 .g1) a) a) =
        true := by decide

/-- The hypotheses of a clause at an offset from `$S_E`. -/
def at_loado (clause : Instr → State → Word → Bool) (off : Word) : Bool :=
  clause (.loado .g0 .stackEnd (.imm off)) (edgeAt (.loado .g0 .stackEnd (.imm off)) 0) (offsetAt (.loado .g0 .stackEnd (.imm off)) (edgeAt (.loado .g0 .stackEnd (.imm off)) 0) .stackEnd (.imm off))

theorem witness_WordLoads_loado :
    [0, 8].all (at_loado alignedInside) = true ∧
      [1, 15].all (at_loado misalignedInside) = true ∧
      [16, 0xFFFFFFFFFFFFFFFF].all (at_loado outside) = true := by decide

theorem witness_ByteLoads_loadb :
    ([0xFFFFFFF0, 0xFFFFFFFF] : List Word).all (fun a => regAt (.loadb .g0 .g1) (edgeAt (.loadb .g0 .g1) a) .g1 = a) = true ∧
      ([0xFFFFFFF0, 0xFFFFFFFF] : List Word).all (fun a => inside (.loadb .g0 .g1) (edgeAt (.loadb .g0 .g1) a) a) = true ∧
      ([0xFFFFFFEF, 0x100000000] : List Word).all (fun a => outside (.loadb .g0 .g1) (edgeAt (.loadb .g0 .g1) a) a) =
        true := by decide

/-- The hypotheses of a clause at an offset from `$S_E`. -/
def at_loadbo (clause : Instr → State → Word → Bool) (off : Word) : Bool :=
  clause (.loadbo .g0 .stackEnd (.imm off)) (edgeAt (.loadbo .g0 .stackEnd (.imm off)) 0) (offsetAt (.loadbo .g0 .stackEnd (.imm off)) (edgeAt (.loadbo .g0 .stackEnd (.imm off)) 0) .stackEnd (.imm off))

theorem witness_ByteLoads_loadbo :
    [0, 15].all (at_loadbo inside) = true ∧
      [16, 0xFFFFFFFFFFFFFFFF].all (at_loadbo outside) = true := by decide

theorem witness_WordStores_stor :
    ([0xFFFFFFF0, 0xFFFFFFF8] : List Word).all (fun a => regAt (.stor (.reg .g2) .g1) (edgeAt (.stor (.reg .g2) .g1) a) .g1 = a) = true ∧
      ([0xFFFFFFF0, 0xFFFFFFF8] : List Word).all (fun a => alignedInside (.stor (.reg .g2) .g1) (edgeAt (.stor (.reg .g2) .g1) a) a) = true ∧
      ([0xFFFFFFF1, 0xFFFFFFFF] : List Word).all
        (fun a => misalignedInside (.stor (.reg .g2) .g1) (edgeAt (.stor (.reg .g2) .g1) a) a) = true ∧
      ([0xFFFFFFEF, 0x100000000] : List Word).all (fun a => outside (.stor (.reg .g2) .g1) (edgeAt (.stor (.reg .g2) .g1) a) a) =
        true := by decide

/-- The hypotheses of a clause at an offset from `$S_E`. -/
def at_storo (clause : Instr → State → Word → Bool) (off : Word) : Bool :=
  clause (.storo (.imm 9) .stackEnd (.imm off)) (edgeAt (.storo (.imm 9) .stackEnd (.imm off)) 0) (offsetAt (.storo (.imm 9) .stackEnd (.imm off)) (edgeAt (.storo (.imm 9) .stackEnd (.imm off)) 0) .stackEnd (.imm off))

theorem witness_WordStores_storo :
    [0, 8].all (at_storo alignedInside) = true ∧
      [1, 15].all (at_storo misalignedInside) = true ∧
      [16, 0xFFFFFFFFFFFFFFFF].all (at_storo outside) = true := by decide

theorem witness_ByteStores_storb :
    ([0xFFFFFFF0, 0xFFFFFFFF] : List Word).all (fun a => regAt (.storb (.reg .g2) .g1) (edgeAt (.storb (.reg .g2) .g1) a) .g1 = a) = true ∧
      ([0xFFFFFFF0, 0xFFFFFFFF] : List Word).all (fun a => inside (.storb (.reg .g2) .g1) (edgeAt (.storb (.reg .g2) .g1) a) a) = true ∧
      ([0xFFFFFFEF, 0x100000000] : List Word).all (fun a => outside (.storb (.reg .g2) .g1) (edgeAt (.storb (.reg .g2) .g1) a) a) =
        true := by decide

/-- The hypotheses of a clause at an offset from `$S_E`. -/
def at_storbo (clause : Instr → State → Word → Bool) (off : Word) : Bool :=
  clause (.storbo (.imm 9) .stackEnd (.imm off)) (edgeAt (.storbo (.imm 9) .stackEnd (.imm off)) 0) (offsetAt (.storbo (.imm 9) .stackEnd (.imm off)) (edgeAt (.storbo (.imm 9) .stackEnd (.imm off)) 0) .stackEnd (.imm off))

theorem witness_ByteStores_storbo :
    [0, 15].all (at_storbo inside) = true ∧
      [16, 0xFFFFFFFFFFFFFFFF].all (at_storbo outside) = true := by decide

theorem witness_PushInstruction :
    let i : Instr := .push (.reg .stackEnd)
    let full := (edgeAt i 0).withCapacity 2
    let room := (edgeAt i 0).withCapacity 3
    NoCommonFault i room ∧ room.mem.wf ∧ room.mem.words.length ≠ room.mem.capacity ∧
      NoCommonFault i full ∧ full.mem.words.length = full.mem.capacity := by decide

theorem witness_PopInstruction :
    (∀ d ∈ [Reg.g0, .zero, .instruction], NoCommonFault (.pop d) (edgeAt (.pop d) 0)) ∧
      (edgeAt (.pop .g0) 0).mem.wf ∧ (edgeAt (.pop .g0) 0).mem.words = 5 :: [6] ∧
      startsAtEdge (.pop .g0) ∧ (edge (.pop .g0)).mem.words = [] := by decide

theorem witness_HaltAndExitEndTheRun :
    startsAtEdge .halt ∧ startsAtEdge (.exit (.reg .g1)) ∧ startsAtEdge (.exit (.imm (-1))) ∧
      ((edge .halt).terminate .halted).status = .halted ∧
      ((edge .halt).terminate (.exited (-1))).status = .exited (-1) := by decide

theorem witness_PrintAppendsTheLowByte :
    startsAtEdge (.print (.reg .g1)) ∧ startsAtEdge (.print (.imm 328)) := by decide

theorem witness_ReadTakesOneByte :
    (∀ d ∈ [Reg.g0, .zero, .instruction], NoCommonFault (.read d) ((edge (.read d)).withInput [255])) ∧
      ((edge (.read .g0)).withInput [255]).input = 255 :: [] ∧ startsAtEdge (.read .g0) ∧
      (edge (.read .g0)).input = [] := by decide

theorem witness_NopAdvancesAndDumpFaults : startsAtEdge .nop ∧ startsAtEdge .dump := by decide

/-- Every form takes the first common fault: `PcOverflow`, `ReadOnlyRegister`, `UninitializedRead`
(spec/60_exceptions.md R213). -/
theorem witness_TakesCommonFaults :
    commonFault (.addts .stackBase (.reg .g1) (.reg .g3)) { edge .nop with pc := 0xFFFFFFFFFFFFFFFF } =
        some .pcOverflow ∧
      commonFault (.addts .stackBase (.reg .g1) (.reg .g3)) { edge .nop with pc := 0 } =
        some (.readOnlyRegister 0) ∧
      commonFault (.addts .g0 (.reg .g1) (.reg .g3)) { edge .nop with pc := 0 } =
        some (.uninitializedRead .g3) ∧
      commonFault (.jmp 0) { edge .nop with pc := 0xFFFFFFFFFFFFFFF4 } = some .pcOverflow ∧
      commonFault .nop { edge .nop with pc := 0xFFFFFFFFFFFFFFFC } = some .pcOverflow := by decide

end Sys2Proof.Tests
end

/-! SUPPORT. The codec's round trip: the decoder, on the bytes that the encoder writes for an
instruction, gives that instruction back (spec/30_encoding.md R92). Identifiers, mode bytes and operand
bytes first, then the slots, the operand list and the whole instruction in its surroundings. -/

namespace Sys2Proof

/-! ## Identifiers and the opcode map -/

/-- The three bytes that `identEncode` writes (R74). -/
theorem identDecode_identEncode (id : Ident) :
    identDecode (id.code.setWidth 8) ((id.code >>> 8).setWidth 8) (id.type ++ id.group) = id := by
  have hcode : (id.code >>> 8).setWidth 8 ++ id.code.setWidth 8 = id.code :=
    BitVec.extractLsb'_append_extractLsb'
  have htype : (id.type ++ id.group).extractLsb' 4 4 = id.type := BitVec.extractLsb'_append_eq_left
  have hgroup : (id.type ++ id.group).extractLsb' 0 4 = id.group :=
    BitVec.extractLsb'_append_eq_right
  rw [identDecode, hcode, htype, hgroup]

theorem Op.mem_all (o : Op) : o ∈ Op.all := by cases o <;> decide

/-- The lookup inverts a map that gives distinct mnemonics distinct identifiers. -/
theorem OpcodeMap.lookup_apply {map : OpcodeMap} (hinj : ∀ o o', map o = map o' → o = o') (o : Op) :
    map.lookup (map o) = some o := by
  cases hf : map.lookup (map o) with
  | none => simpa using List.find?_eq_none.mp hf o o.mem_all
  | some o' => rw [hinj o' o (by simpa using List.find?_some hf)]

/-! ## Mode bytes -/

theorem modeFlag_or (a b : Byte) (slot : Nat) :
    modeFlag (a ||| b) slot = (modeFlag a slot || modeFlag b slot) := BitVec.getLsbD_or

/-- The flag of a slot stands in that slot's bit and in no other. -/
theorem modeFlag_modeBit (slot : Nat) (flag : Bool) {i : Nat} (hi : i < 8) :
    modeFlag (modeBit slot flag) i = (decide (i = slot) && flag) := by
  have htop : (0x80#8).getLsbD (slot + (7 - i)) = decide (i = slot) := by
    rw [show 0x80#8 = BitVec.twoPow 8 7 from rfl, BitVec.getLsbD_twoPow]
    simp only [Nat.lt_add_one, decide_true, Bool.true_and, decide_eq_decide]
    omega
  cases flag with
  | false => simp [modeFlag, modeBit]
  | true => simp [modeFlag, modeBit, htop]

/-- Slot `i` of the flags that are encoded from slot `slot` on. -/
theorem modeFlag_modeEncodeFrom (slot : Nat) (flags : List Bool) {i : Nat} (hi : i < 8) :
    modeFlag (modeEncodeFrom slot flags) i = (decide (slot ≤ i) && flags.getD (i - slot) false) := by
  induction flags generalizing slot with
  | nil => simp [modeEncodeFrom, modeFlag]
  | cons f fs ih =>
    rw [modeEncodeFrom, modeFlag_or, modeFlag_modeBit slot f hi, ih]
    rcases lt_trichotomy i slot with hlt | rfl | hgt
    · simp [hlt.ne, hlt.not_ge, show ¬ slot + 1 ≤ i by omega]
    · simp
    · rw [show i - slot = i - (slot + 1) + 1 by omega, List.getD_cons_succ]
      simp [hgt.ne', hgt.le, Nat.succ_le_of_lt hgt]

/-- Slot `i` of `modeEncode` (R75, R76). -/
theorem modeFlag_modeEncode (flags : List Bool) {i : Nat} (hi : i < 8) :
    modeFlag (modeEncode flags) i = flags.getD i false := by
  simp [modeEncode, modeFlag_modeEncodeFrom 0 flags hi]

/-! ## Operand bytes -/

@[simp] theorem Operand.isImm_reg (r : Reg) : (Operand.reg r).isImm = false := rfl
@[simp] theorem Operand.isImm_imm (v : Word) : (Operand.imm v).isImm = true := rfl

@[simp] theorem Reg.ofCode_code (r : Reg) : Reg.ofCode r.code = some r := by cases r <;> rfl

theorem leNat_leBytes (k n : Nat) : leNat (leBytes k n) = n % 256 ^ k := by
  induction k generalizing n with
  | zero => simp [leBytes, leNat, Nat.mod_one]
  | succ k ih => simp [leBytes, leNat, ih, pow_succ', Nat.mod_mul]

/-- The byte of a register operand (R79, R80). -/
theorem readRegByte_encode (slot : Nat) (r : Reg) (bs : List Byte) :
    readRegByte slot ((Operand.reg r).encode ++ bs) = .ok (r, bs) := by
  simp [readRegByte, Operand.encode]

/-- The eight bytes of an immediate operand (R81). -/
theorem readImm_encode (v : Word) (bs : List Byte) :
    readImm ((Operand.imm v).encode ++ bs) = .ok (v, bs) := by
  have hread : readImm ((Operand.imm v).encode ++ bs) =
      .ok (BitVec.ofNat 64 (leNat (leBytes 8 v.toNat)), bs) := rfl
  rw [hread, leNat_leBytes, Nat.mod_eq_of_lt (show v.toNat < 256 ^ 8 from v.isLt),
    BitVec.ofNat_toNat, BitVec.setWidth_eq]

/-! ## Slots and operand lists -/

@[simp] theorem Decoded.ok_andThen {α β : Type} (a : α) (bs : List Byte)
    (f : α → List Byte → Decoded β) : Decoded.andThen (.ok (a, bs)) f = f a bs := rfl

section
variable {mode : Byte} {slot : Nat}

theorem readRegSlot_encode (r : Reg) (bs : List Byte) (h : modeFlag mode slot = false) :
    readRegSlot mode slot ((Operand.reg r).encode ++ bs) = .ok (r, bs) := by
  simp [readRegSlot, h, readRegByte_encode]

theorem readTargetSlot_encode (t : Word) (bs : List Byte) (h : modeFlag mode slot = true) :
    readTargetSlot mode slot ((Operand.imm t).encode ++ bs) = .ok (t, bs) := by
  simp [readTargetSlot, h, readImm_encode]

theorem readSrcSlot_encode (o : Operand) (bs : List Byte) (h : modeFlag mode slot = o.isImm) :
    readSrcSlot mode slot (o.encode ++ bs) = .ok (o, bs) := by
  cases o with
  | reg r => simp [readSrcSlot, h, readRegByte_encode]
  | imm v => simp [readSrcSlot, h, readImm_encode]

end

/-- The operand bytes of an instruction, under the mode byte the encoder writes for it: every reader of
an operand shape meets, slot by slot, the flag and the bytes of that slot's operand. -/
theorem readOperands_encode (i : Instr) (bs : List Byte) :
    readOperands (modeEncode (i.operands.map Operand.isImm))
      (i.operands.flatMap Operand.encode ++ bs) i.op = .ok (i, bs) := by
  cases i <;>
    simp [Instr.operands, Instr.op, readOperands, readNone, readD, readS, readT, readDS, readDSS,
      readDDSS, readTSS, readDA, readDAS, readSA, readSAS, readRegSlot_encode,
      readTargetSlot_encode, readSrcSlot_encode, modeFlag_modeEncode]

/-! ## The whole instruction -/

section
variable {map : OpcodeMap} (hinj : ∀ o o', map o = map o' → o = o')
include hinj

theorem decodeBytesWith_encodeWith (i : Instr) (post : List Byte) :
    decodeBytesWith map (encodeWith map i.toRaw ++ post) = .ok (i, post) := by
  simp [encodeWith, Instr.toRaw, identEncode, decodeBytesWith, identDecode_identEncode,
    OpcodeMap.lookup_apply hinj, readOperands_encode]

/-- The encoding of an instruction decodes to it and to its own length, whatever stands before and after
it in the program (R92). -/
theorem decodeAtWith_encodeWith (i : Instr) (pre post : List Byte) :
    decodeAtWith map (pre ++ encodeWith map i.toRaw ++ post) pre.length =
      .ok (i, (encodeWith map i.toRaw).length) := by
  have hpos : 0 < (encodeWith map i.toRaw).length := by simp [encodeWith]
  have hinside : ¬ (pre ++ encodeWith map i.toRaw ++ post).length ≤ pre.length := by
    simp only [List.length_append]; omega
  rw [decodeAtWith, if_neg hinside, List.append_assoc, List.drop_left,
    decodeBytesWith_encodeWith hinj]
  simp

end

end Sys2Proof

/-! SUPPORT. What a step can leave of the state, said once: the launch parameters as they were, and a
stack that at most one of the four stack operations has changed. -/

namespace Sys2Proof.Machine

/-! ## The stack -/

/-- The stack after at most one stack operation of spec/20_memory.md R56 to R59. -/
inductive StackOp (m : Memory) : Memory → Prop where
  | none : StackOp m m
  | push {v : Word} {m' : Memory} (h : m.push v = .ok m') : StackOp m m'
  | pop {w : Word} {m' : Memory} (h : m.pop = .ok (w, m')) : StackOp m m'
  | writeWord {a v : Word} {m' : Memory} (h : m.writeWord a v = .ok m') : StackOp m m'
  | writeByte {a : Word} {v : Byte} {m' : Memory} (h : m.writeByte a v = .ok m') : StackOp m m'

/-- No stack operation moves the stack base or changes the word limit. -/
theorem StackOp.start_capacity {m m' : Memory} (h : StackOp m m') :
    m'.start = m.start ∧ m'.capacity = m.capacity := by
  cases h with
  | none => exact ⟨rfl, rfl⟩
  | push h => obtain ⟨-, rfl⟩ := Memory.push_eq_ok h; exact ⟨rfl, rfl⟩
  | pop h => obtain ⟨-, hm⟩ := Memory.pop_eq_ok h; rw [hm]; exact ⟨rfl, rfl⟩
  | writeWord h => obtain ⟨-, -, rfl⟩ := Memory.writeWord_eq_ok h; exact ⟨rfl, rfl⟩
  | writeByte h => obtain ⟨-, -, rfl⟩ := Memory.writeByte_eq_ok h; exact ⟨rfl, rfl⟩

/-! ## The state -/

/-- `t` has the launch parameters of `s` that stand outside the stack, and a stack that at most one
stack operation has changed. -/
structure OneStackOp (s t : State) : Prop where
  program : t.program = s.program
  opcodes : t.opcodes = s.opcodes
  uninitPolicy : t.uninitPolicy = s.uninitPolicy
  mem : StackOp s.mem t.mem

namespace OneStackOp

theorem paramsKept {s t : State} (h : OneStackOp s t) : ParamsKept s t :=
  ⟨h.program, h.opcodes, h.mem.start_capacity.1, h.mem.start_capacity.2, h.uninitPolicy⟩

/-! One rule for each operation that the meanings are written over. -/

theorem refl (s : State) : OneStackOp s s := ⟨rfl, rfl, rfl, .none⟩

theorem advance (s : State) (n : Nat) : OneStackOp s (s.advance n) := ⟨rfl, rfl, rfl, .none⟩

theorem takeFault (s : State) (k : FaultKind) : OneStackOp s (s.takeFault k) :=
  ⟨rfl, rfl, rfl, .none⟩

section
variable {s t : State} (h : OneStackOp s t)
include h

theorem writeReg (r : Reg) (v : Word) : OneStackOp s (t.writeReg r v) := by
  obtain ⟨hp, ho, hu, hm⟩ := h
  exact ⟨by simpa using hp, by simpa using ho, by simpa using hu, by simpa using hm⟩

theorem jumpTo (a : Word) : OneStackOp s (t.jumpTo a) :=
  ⟨h.program, h.opcodes, h.uninitPolicy, h.mem⟩

theorem jumpIf (rel : Relation) (a x y : Word) : OneStackOp s (t.jumpIf rel a x y) := by
  unfold State.jumpIf
  split
  · exact h.jumpTo a
  · exact h

theorem terminate (st : Status) : OneStackOp s (t.terminate st) :=
  ⟨h.program, h.opcodes, h.uninitPolicy, h.mem⟩

theorem emit (b : Byte) : OneStackOp s (t.emit b) := ⟨h.program, h.opcodes, h.uninitPolicy, h.mem⟩

theorem takeInput {b : Byte} {u : State} (hu : t.takeInput = .ok (b, u)) : OneStackOp s u := by
  obtain ⟨-, hu⟩ := State.takeInput_eq_ok hu
  rw [hu]
  exact ⟨h.program, h.opcodes, h.uninitPolicy, h.mem⟩

theorem withMem {m : Memory} (hm : StackOp s.mem m) : OneStackOp s (t.withMem m) :=
  ⟨h.program, h.opcodes, h.uninitPolicy, hm⟩

end

end OneStackOp

/-! ## Every meaning, every step -/

/-- An effect that cannot fault answers its one state. -/
theorem ok_inv {P : State → Prop} {t : State} (h : P t) :
    ∀ u, (.ok t : Except FaultKind State) = .ok u → P u := by
  rintro u ⟨⟩; exact h

/-- An effect with one operation that can fault answers what it makes of that operation's result. -/
theorem map_ok_inv {α : Type} {P : State → Prop} {x : Except FaultKind α} {f : α → State}
    (h : ∀ a, x = .ok a → P (f a)) : ∀ u, x.map f = .ok u → P u := by
  intro u hu
  cases x with
  | error k => cases hu
  | ok a => cases hu; exact h a rfl

/-- Every meaning runs by `execute`, and its effect does at most one stack operation. -/
theorem exec_effect_oneStackOp (i : Instr) (s : State) :
    ∃ effect, exec i s = execute i s effect ∧
      ∀ u, effect (s.advance i.length) = .ok u → OneStackOp s u := by
  have adv := OneStackOp.advance s i.length
  cases i <;> (simp only [exec]; refine ⟨_, rfl, ?_⟩)
  case addts | addtu | addis | addiu | subts | subtu | subis | subiu
      | lshlt | lshli | lshrt | lshri | ashrt | ashri
      | andt | andi | ort | ori | xort | xori | nott | noi
      | mults_e | mulis_e | multu_e | muliu_e | mov =>
    exact ok_inv (adv.writeReg _ _)
  case divts_e | divtu_e =>
    exact map_ok_inv fun _ _ => (adv.writeReg _ _).writeReg _ _
  case jmp => exact ok_inv (adv.jumpTo _)
  case jmpeq | jmpne | jmpgts | jmpges | jmplts | jmples | jmpgtu | jmpgeu | jmpltu | jmpleu =>
    exact ok_inv (adv.jumpIf _ _ _ _)
  case cal => exact map_ok_inv fun _ h => (adv.withMem (.push h)).jumpTo _
  case ret => exact map_ok_inv fun ⟨_, _⟩ h => ((adv.withMem (.pop h)).writeReg _ _).jumpTo _
  case load | loado | loadb | loadbo => exact map_ok_inv fun _ _ => adv.writeReg _ _
  case stor | storo => exact map_ok_inv fun _ h => adv.withMem (.writeWord h)
  case storb | storbo => exact map_ok_inv fun _ h => adv.withMem (.writeByte h)
  case push => exact map_ok_inv fun _ h => adv.withMem (.push h)
  case pop => exact map_ok_inv fun ⟨_, _⟩ h => (adv.withMem (.pop h)).writeReg _ _
  case halt | exit => exact ok_inv ((OneStackOp.refl s).terminate _)
  case print => exact ok_inv (adv.emit _)
  case read => exact map_ok_inv fun ⟨_, _⟩ h => (adv.takeInput h).writeReg _ _
  case dump => intro u hu; cases hu
  case nop => exact ok_inv adv

theorem exec_oneStackOp {i : Instr} {s t : State} (h : exec i s = .next t) : OneStackOp s t := by
  obtain ⟨effect, hexec, heffect⟩ := exec_effect_oneStackOp i s
  obtain ⟨k, rfl⟩ | ⟨-, hok⟩ := execute_eq_next (hexec ▸ h)
  · exact .takeFault s k
  · exact heffect t hok

theorem step_oneStackOp {s t : State} (h : step s = .next t) : OneStackOp s t := by
  obtain ⟨-, ⟨k, -, rfl⟩ | ⟨i, n, -, hexec⟩⟩ := step_eq_next h
  · exact .takeFault s k
  · exact exec_oneStackOp hexec

/-! ## Runs -/

theorem ParamsKept.trans {s t u : State} (hst : ParamsKept s t) (htu : ParamsKept t u) :
    ParamsKept s u := by
  obtain ⟨hp, ho, hs, hc, hu⟩ := hst
  obtain ⟨hp', ho', hs', hc', hu'⟩ := htu
  exact ⟨hp'.trans hp, ho'.trans ho, hs'.trans hs, hc'.trans hc, hu'.trans hu⟩

/-- A reflexive and transitive relation that every step keeps holds from end to end of every run. -/
theorem Reaches.lift {R : State → State → Prop} (refl : ∀ s, R s s)
    (trans : ∀ {s t u}, R s t → R t u → R s u) (hstep : ∀ {s t}, step s = .next t → R s t)
    {s t : State} (h : Reaches s t) : R s t := by
  induction h with
  | here s => exact refl s
  | after h _ ih => exact trans (hstep h) ih

/-! ## Fetch -/

/-- A running state whose fetch answers an instruction runs that instruction (R233). -/
theorem step_of_fetch_eq_ok {s : State} {i : Instr} {n : Nat} (hs : s.status = .running)
    (hf : s.fetch = .ok (i, n)) : step s = exec i s := by
  simp [step, hs, hf]

/-! ## The statements about the scope of a run (spec/00_scope.md) -/

/-- Settles O26: a step keeps the parameters because at most one stack operation has changed the stack
and none of those moves its base or its limit; a run keeps them step by step. -/
theorem runParametersNeverChange : Obligations.RunParametersNeverChange := by
  have hstep {s t : State} (h : step s = .next t) : ParamsKept s t := (step_oneStackOp h).paramsKept
  have hrefl (s : State) : ParamsKept s s := ⟨rfl, rfl, rfl, rfl, rfl⟩
  exact ⟨fun _ _ => hstep,
    fun _ _ => Reaches.lift (R := ParamsKept) hrefl ParamsKept.trans hstep⟩

/-- Settles O29: the second clause is the first on the codec's round trip at the instruction's place. -/
theorem stepRunsTheDecodedInstruction : Obligations.StepRunsTheDecodedInstruction := by
  refine ⟨fun s i L hs hd => step_of_fetch_eq_ok hs hd, fun s i pre post hs hinj hprog hpc => ?_⟩
  refine step_of_fetch_eq_ok hs (n := (encodeWith s.opcodes.toMap i.toRaw).length) ?_
  rw [State.fetch, hprog, hpc]
  exact decodeAtWith_encodeWith hinj i pre post

end Sys2Proof.Machine

/-! SUPPORT. What running one instruction leaves alone, said once: an instruction's footprint bounds the
register cells it writes, whether it moves the stack end, and the bytes it takes from the input and adds
to the output. The statements about the state (spec/10_state.md) are read off it. -/

namespace Sys2Proof.Machine

/-! ## The stack invariant -/

/-- Every stack operation keeps the stack invariant. -/
theorem StackOp.wf {m m' : Memory} (h : StackOp m m') (hm : m.wf) : m'.wf := by
  cases h with
  | none => exact hm
  | push h => exact Memory.wf_push hm h
  | pop h => exact Memory.wf_pop hm h
  | writeWord h => exact Memory.wf_writeWord hm h
  | writeByte h => exact Memory.wf_writeByte hm h

theorem step_keeps_wf {s t : State} (h : step s = .next t) (hs : s.mem.wf) : t.mem.wf :=
  (step_oneStackOp h).mem.wf hs

theorem reaches_keeps_wf {s t : State} (h : Reaches s t) : s.mem.wf → t.mem.wf :=
  Reaches.lift (R := fun s t => s.mem.wf → t.mem.wf) (fun _ hs => hs)
    (fun hst htu hs => htu (hst hs)) step_keeps_wf h

/-- Settles O24: the invariant is kept by the at most one stack operation of a step, hence along every
run, and the empty stack of a launch within its constraint meets it. -/
theorem everyStepKeepsTheStackInvariant : Obligations.EveryStepKeepsTheStackInvariant := by
  refine ⟨fun _ _ hs h => step_keeps_wf h hs, fun _ _ h => reaches_keeps_wf h, ?_⟩
  intro program input base capacity map policy s hok h
  exact reaches_keeps_wf h (Memory.wf_reset base capacity (by simpa [launchOk] using hok))

/-- Settles O25: the default parameters meet the constraint of a launch. -/
theorem resetMeetsTheStackInvariant : Obligations.ResetMeetsTheStackInvariant := by
  have hconstraint : 8 * Config.stackCapacityWords ≤ Config.stackBase.toNat := by decide
  exact ⟨Memory.wf_reset _ _ hconstraint, by simpa [launchOk] using hconstraint⟩

/-! ## The faults of an instruction's own effect -/

/-- A fault of this operation is one of those that spec/60_exceptions.md R211 numbers from 9 on: neither
a decode fault nor a common one. -/
def OwnFaults {α : Type} (x : Except FaultKind α) : Prop := ∀ k, x = .error k → 9 ≤ k.code

theorem ownFaults_ok {α : Type} (a : α) : OwnFaults (.ok a) := nofun

theorem OwnFaults.map {α β : Type} {x : Except FaultKind α} (h : OwnFaults x) (f : α → β) :
    OwnFaults (x.map f) := by
  cases x with
  | error k => rintro _ ⟨⟩; exact h k rfl
  | ok a => exact ownFaults_ok (f a)

theorem ownFaults_error {α : Type} {k : FaultKind} (h : 9 ≤ k.code) :
    OwnFaults (.error k : Except FaultKind α) := by
  rintro _ ⟨⟩; exact h

section
variable (m : Memory) (a v : Word)

theorem Memory.ownFaults_push : OwnFaults (m.push v) := by
  unfold Memory.push
  split
  · exact ownFaults_error (by decide)
  · exact ownFaults_ok _

theorem Memory.ownFaults_pop : OwnFaults m.pop := by
  unfold Memory.pop
  split
  · exact ownFaults_error (by decide)
  · exact ownFaults_ok _

theorem Memory.ownFaults_wordAt : OwnFaults (m.wordAt a) := by
  have hbounds : 9 ≤ (FaultKind.memoryOutOfBounds a).code := by simp [FaultKind.code]
  unfold Memory.wordAt
  split
  · split
    · exact ownFaults_ok _
    · exact ownFaults_error hbounds
  · exact ownFaults_error hbounds

theorem ownFaults_misaligned {α : Type} :
    OwnFaults (.error (.misalignedWordAccess a) : Except FaultKind α) :=
  ownFaults_error (by simp [FaultKind.code])

theorem Memory.ownFaults_readByte : OwnFaults (m.readByte a) := by
  unfold Memory.readByte
  split
  · next hw => exact ownFaults_error (m.ownFaults_wordAt a _ hw)
  · exact ownFaults_ok _

theorem Memory.ownFaults_readWord : OwnFaults (m.readWord a) := by
  unfold Memory.readWord
  split
  · next hw => exact ownFaults_error (m.ownFaults_wordAt a _ hw)
  · split
    · exact ownFaults_ok _
    · exact ownFaults_misaligned a

theorem Memory.ownFaults_writeByte (b : Byte) : OwnFaults (m.writeByte a b) := by
  unfold Memory.writeByte
  split
  · next hw => exact ownFaults_error (m.ownFaults_wordAt a _ hw)
  · exact ownFaults_ok _

theorem Memory.ownFaults_writeWord : OwnFaults (m.writeWord a v) := by
  unfold Memory.writeWord
  split
  · next hw => exact ownFaults_error (m.ownFaults_wordAt a _ hw)
  · split
    · exact ownFaults_ok _
    · exact ownFaults_misaligned a

theorem ownFaults_divSigned (n m : Word) : OwnFaults (divSigned n m) := by
  unfold divSigned
  split
  · exact ownFaults_error (by decide)
  · split
    · exact ownFaults_error (by decide)
    · exact ownFaults_ok _

theorem ownFaults_divUnsigned (n m : Word) : OwnFaults (divUnsigned n m) := by
  unfold divUnsigned
  split
  · exact ownFaults_error (by decide)
  · exact ownFaults_ok _

theorem State.ownFaults_takeInput (s : State) : OwnFaults s.takeInput := by
  unfold State.takeInput
  split
  · exact ownFaults_error (by decide)
  · exact ownFaults_ok _

end

/-! ## Stack operations that do not move the stack end -/

theorem Memory.writeByte_stackEnd {m m' : Memory} {a : Word} {b : Byte}
    (h : m.writeByte a b = .ok m') : m'.stackEnd = m.stackEnd := by
  obtain ⟨_, -, rfl⟩ := Memory.writeByte_eq_ok h
  rfl

theorem Memory.writeWord_stackEnd {m m' : Memory} {a v : Word} (h : m.writeWord a v = .ok m') :
    m'.stackEnd = m.stackEnd := by
  obtain ⟨-, -, rfl⟩ := Memory.writeWord_eq_ok h
  rfl

/-! ## Register cells -/

theorem RegFile.cell_store_of_ne (f : RegFile) {r q : Reg} (v : Word) (h : q ≠ r) :
    (f.store r v).cell q = f.cell q := by
  cases r <;> cases q <;> first | rfl | contradiction

/-! ## Footprints -/

/-- The parts of a state that an instruction may change, beside the `pc` and the stack's words. -/
structure Footprint where
  /-- the registers it writes -/
  written : List Reg
  /-- whether it moves the stack end -/
  movesEnd : Bool
  /-- how many input bytes it takes at most -/
  taken : Nat
  /-- how many output bytes it adds at most -/
  added : Nat

/-- The footprint of an operation that touches none of these parts. -/
def Footprint.empty : Footprint := ⟨[], false, 0, 0⟩

/-- The footprint of an instruction: its `D` slots, and `$R` for `ret` (spec/10_state.md R28); only
`push`, `pop`, `cal` and `ret` move the stack end (R27), only `read` and `print` touch a stream (R38). -/
def footprint (i : Instr) : Footprint :=
  match i.op with
  | .ret => ⟨destRegs i ++ [.ret], true, 0, 0⟩
  | .push | .pop | .cal => ⟨destRegs i, true, 0, 0⟩
  | .read => ⟨destRegs i, false, 1, 0⟩
  | .print => ⟨destRegs i, false, 0, 1⟩
  | _ => ⟨destRegs i, false, 0, 0⟩

/-- `t` differs from `s` in these parts within the footprint only. -/
structure Within (f : Footprint) (s t : State) : Prop where
  cell : ∀ r, r ∉ f.written → t.regs.cell r = s.regs.cell r
  stackEnd : f.movesEnd = false → t.mem.stackEnd = s.mem.stackEnd
  input : ∃ bs, s.input = bs ++ t.input ∧ bs.length ≤ f.taken
  output : ∃ bs, t.output = s.output ++ bs ∧ bs.length ≤ f.added

/-- `t` is what an effect with this footprint commits on `s`: every register of the footprint is written,
and the effect enters no faulted status by itself. -/
structure Commits (f : Footprint) (s t : State) : Prop extends Within f s t where
  defined : ∀ r, t.defined r = true ↔ s.defined r = true ∨ r ∈ f.written
  status : ∀ k, t.status = .faulted k → s.status = .faulted k

theorem Within.takeFault (f : Footprint) (s : State) (k : FaultKind) : Within f s (s.takeFault k) :=
  ⟨fun _ _ => rfl, fun _ => rfl, ⟨[], rfl, Nat.zero_le _⟩, ⟨[], by simp⟩⟩

namespace Commits

theorem refl (s : State) : Commits .empty s s where
  cell _ _ := rfl
  stackEnd _ := rfl
  input := ⟨[], rfl, le_rfl⟩
  output := ⟨[], by simp⟩
  defined r := by simp [Footprint.empty]
  status _ h := h

section
variable {f : Footprint} {s t : State} (h : Commits f s t)
include h

/-! One rule for each operation that the meanings are written over. -/

theorem advance (n : Nat) : Commits f s (t.advance n) :=
  { h with }

theorem jumpTo (a : Word) : Commits f s (t.jumpTo a) :=
  { h with }

theorem jumpIf (rel : Relation) (a x y : Word) : Commits f s (t.jumpIf rel a x y) := by
  unfold State.jumpIf
  split
  · exact h.jumpTo a
  · exact h

theorem writeReg (r : Reg) (v : Word) :
    Commits { f with written := f.written ++ [r] } s (t.writeReg r v) where
  cell q hq := by
    obtain ⟨hf, hr⟩ : q ∉ f.written ∧ q ≠ r := by simpa using hq
    rw [State.writeReg_regs, RegFile.cell_store_of_ne _ _ hr, h.cell q hf]
  stackEnd hf := by simpa using h.stackEnd hf
  input := by simpa using h.input
  output := by simpa using h.output
  defined q := by simp [State.defined_writeReg, h.defined q, or_assoc]
  status k hk := h.status k (by simpa using hk)

theorem terminate {st : Status} (hst : ∀ k, st ≠ .faulted k) : Commits f s (t.terminate st) :=
  { h with status := fun k hk => absurd hk (hst k) }

theorem emit (b : Byte) : Commits { f with added := f.added + 1 } s (t.emit b) := by
  obtain ⟨bs, ht, hlen⟩ := h.output
  exact { h with output := ⟨bs ++ [b], by simp [ht], by simpa using hlen⟩ }

theorem takeInput {b : Byte} {u : State} (hu : t.takeInput = .ok (b, u)) :
    Commits { f with taken := f.taken + 1 } s u := by
  obtain ⟨htake, hu⟩ := State.takeInput_eq_ok hu
  obtain ⟨bs, hs, hlen⟩ := h.input
  rw [hu]
  exact { h with input := ⟨bs ++ [b], by simp [hs, htake], by simpa using hlen⟩ }

/-- Another stack with the same end. -/
theorem withMem {m : Memory} (hm : m.stackEnd = t.mem.stackEnd) : Commits f s (t.withMem m) :=
  { h with stackEnd := fun hf => hm.trans (h.stackEnd hf) }

/-- Another stack, whatever its end. -/
theorem moveEnd (m : Memory) : Commits { f with movesEnd := true } s (t.withMem m) :=
  { h with stackEnd := nofun }

end

end Commits

/-! ## Every meaning commits within its footprint -/

/-- What an effect answers: a committed state, or a fault of its own. -/
def Answers (P : State → Prop) (x : Except FaultKind State) : Prop :=
  (∀ u, x = .ok u → P u) ∧ OwnFaults x

theorem answers_ok {P : State → Prop} {t : State} (h : P t) : Answers P (.ok t) :=
  ⟨ok_inv h, ownFaults_ok t⟩

theorem answers_error {P : State → Prop} {k : FaultKind} (h : 9 ≤ k.code) : Answers P (.error k) :=
  ⟨fun _ hu => (nomatch hu), ownFaults_error h⟩

theorem answers_map {α : Type} {P : State → Prop} {x : Except FaultKind α} {f : α → State}
    (hx : OwnFaults x) (h : ∀ a, x = .ok a → P (f a)) : Answers P (x.map f) :=
  ⟨map_ok_inv h, hx.map f⟩

theorem exec_effect_commits (i : Instr) (s : State) :
    ∃ effect, exec i s = execute i s effect ∧
      Answers (Commits (footprint i) s) (effect (s.advance i.length)) := by
  have adv := (Commits.refl s).advance i.length
  cases i <;> (simp only [exec]; refine ⟨_, rfl, ?_⟩)
  case addts | addtu | addis | addiu | subts | subtu | subis | subiu
      | lshlt | lshli | lshrt | lshri | ashrt | ashri
      | andt | andi | ort | ori | xort | xori | nott | noi
      | mults_e | mulis_e | multu_e | muliu_e | mov =>
    exact answers_ok (adv.writeReg _ _)
  case divts_e =>
    exact answers_map (ownFaults_divSigned _ _) fun _ _ => (adv.writeReg _ _).writeReg _ _
  case divtu_e =>
    exact answers_map (ownFaults_divUnsigned _ _) fun _ _ => (adv.writeReg _ _).writeReg _ _
  case jmp => exact answers_ok (adv.jumpTo _)
  case jmpeq | jmpne | jmpgts | jmpges | jmplts | jmples | jmpgtu | jmpgeu | jmpltu | jmpleu =>
    exact answers_ok (adv.jumpIf _ _ _ _)
  case cal =>
    exact answers_map (Memory.ownFaults_push _ _) fun _ _ => (adv.moveEnd _).jumpTo _
  case ret =>
    exact answers_map (Memory.ownFaults_pop _) fun ⟨_, _⟩ _ =>
      ((adv.moveEnd _).writeReg .ret _).jumpTo _
  case load | loado =>
    exact answers_map (Memory.ownFaults_readWord _ _) fun _ _ => adv.writeReg _ _
  case loadb | loadbo =>
    exact answers_map (Memory.ownFaults_readByte _ _) fun _ _ => adv.writeReg _ _
  case stor | storo =>
    exact answers_map (Memory.ownFaults_writeWord _ _ _) fun _ h =>
      adv.withMem (Memory.writeWord_stackEnd h)
  case storb | storbo =>
    exact answers_map (Memory.ownFaults_writeByte _ _ _) fun _ h =>
      adv.withMem (Memory.writeByte_stackEnd h)
  case push => exact answers_map (Memory.ownFaults_push _ _) fun _ _ => adv.moveEnd _
  case pop =>
    exact answers_map (Memory.ownFaults_pop _) fun ⟨_, _⟩ _ => (adv.moveEnd _).writeReg _ _
  case halt | exit => exact answers_ok ((Commits.refl s).terminate (by simp))
  case print => exact answers_ok (adv.emit _)
  case read =>
    exact answers_map (State.ownFaults_takeInput _) fun ⟨_, _⟩ h => (adv.takeInput h).writeReg _ _
  case dump => exact answers_error (by decide)
  case nop => exact answers_ok adv

/-- Running an instruction takes a common fault, takes a fault of its own, or commits its effect. -/
theorem exec_cases (i : Instr) (s : State) :
    (∃ k, commonFault i s = some k ∧ exec i s = .next (s.takeFault k)) ∨
      (∃ k, 9 ≤ k.code ∧ exec i s = .next (s.takeFault k)) ∨
      ∃ t, Commits (footprint i) s t ∧ exec i s = .next t := by
  obtain ⟨effect, hexec, hok, hfault⟩ := exec_effect_commits i s
  rw [hexec]
  cases hc : commonFault i s with
  | some k => exact .inl ⟨k, rfl, execute_of_commonFault hc⟩
  | none =>
    have hnone := commonFault_eq_none.mp hc
    cases he : effect (s.advance i.length) with
    | error k => exact .inr (.inl ⟨k, hfault k he, execute_of_error hnone he⟩)
    | ok t => exact .inr (.inr ⟨t, hok t he, execute_of_ok hnone he⟩)

theorem exec_eq_next {i : Instr} {s t : State} (h : exec i s = .next t) :
    (∃ k, t = s.takeFault k ∧ (commonFault i s = some k ∨ 9 ≤ k.code)) ∨
      Commits (footprint i) s t := by
  obtain ⟨k, hk, he⟩ | ⟨k, hk, he⟩ | ⟨u, hu, he⟩ := exec_cases i s <;> cases h.symm.trans he
  · exact .inl ⟨k, rfl, .inl hk⟩
  · exact .inl ⟨k, rfl, .inr hk⟩
  · exact .inr hu

theorem exec_within {i : Instr} {s t : State} (h : exec i s = .next t) :
    Within (footprint i) s t := by
  obtain ⟨k, rfl, -⟩ | hc := exec_eq_next h
  · exact .takeFault _ s k
  · exact hc.toWithin

theorem exec_isNext (i : Instr) (s : State) : ∃ t, exec i s = .next t := by
  obtain ⟨k, -, h⟩ | ⟨k, -, h⟩ | ⟨t, -, h⟩ := exec_cases i s <;> exact ⟨_, h⟩

/-! ## Reading a footprint -/

theorem mem_footprint_written {i : Instr} {r : Reg} :
    r ∈ (footprint i).written ↔ r ∈ destRegs i ∨ (i.op = .ret ∧ r = .ret) := by
  unfold footprint
  split <;> simp_all

theorem footprint_movesEnd {i : Instr} (h : i.op ∉ [.push, .pop, .cal, .ret]) :
    (footprint i).movesEnd = false := by
  unfold footprint
  split <;> simp_all

theorem footprint_taken (i : Instr) : (footprint i).taken = if i.op = .read then 1 else 0 := by
  unfold footprint
  split <;> simp_all

theorem footprint_added (i : Instr) : (footprint i).added = if i.op = .print then 1 else 0 := by
  unfold footprint
  split <;> simp_all

theorem footprint_taken_le (i : Instr) : (footprint i).taken ≤ 1 := by
  rw [footprint_taken]; split <;> simp

theorem footprint_added_le (i : Instr) : (footprint i).added ≤ 1 := by
  rw [footprint_added]; split <;> simp

theorem Within.input_eq {f : Footprint} {s t : State} (h : Within f s t) (hf : f.taken = 0) :
    t.input = s.input := by
  obtain ⟨bs, hs, hlen⟩ := h.input
  have hnil : bs = [] := List.length_eq_zero_iff.mp (by omega)
  simpa [hnil] using hs.symm

theorem Within.output_eq {f : Footprint} {s t : State} (h : Within f s t) (hf : f.added = 0) :
    t.output = s.output := by
  obtain ⟨bs, ht, hlen⟩ := h.output
  have hnil : bs = [] := List.length_eq_zero_iff.mp (by omega)
  simpa [hnil] using ht

/-! ## Each common fault -/

/-- A slot that is no `D` slot with `$S_B` or `$S_E` is passed over. -/
theorem readOnlySlot_cons_of_ne {x : SlotKind × Operand} (hb : x ≠ (.dest, .reg .stackBase))
    (he : x ≠ (.dest, .reg .stackEnd)) (slot : Nat) (l : List (SlotKind × Operand)) :
    readOnlySlot slot (x :: l) = readOnlySlot (slot + 1) l := by
  rw [readOnlySlot] <;> assumption

/-- The lowest `D` slot with `$S_B` or `$S_E` is the one found. -/
theorem readOnlySlot_eq_some {l : List (SlotKind × Operand)} {n : Nat} {r : Reg} (slot : Nat)
    (hn : l[n]? = some (.dest, .reg r)) (hr : r = .stackBase ∨ r = .stackEnd)
    (hlow : ∀ m < n, ∀ q, l[m]? = some (.dest, .reg q) → q ≠ .stackBase ∧ q ≠ .stackEnd) :
    readOnlySlot slot l = some (slot + n) := by
  induction l generalizing n slot with
  | nil => simp at hn
  | cons x l ih =>
    cases n with
    | zero =>
      obtain rfl : x = (.dest, .reg r) := by simpa using hn
      obtain rfl | rfl := hr <;> rfl
    | succ n =>
      have hx (q : Reg) (hq : x = (.dest, .reg q)) : q ≠ .stackBase ∧ q ≠ .stackEnd :=
        hlow 0 n.succ_pos q (by simp [hq])
      rw [readOnlySlot_cons_of_ne (fun h => (hx _ h).1 rfl) (fun h => (hx _ h).2 rfl),
        ih (slot + 1) (by simpa using hn) fun m hm q hq =>
          hlow (m + 1) (Nat.succ_lt_succ hm) q (by simpa using hq)]
      congr 1
      omega

section
variable {i : Instr} {s : State}

theorem commonFault_pcOverflow (h : 2 ^ 64 ≤ s.pc.toNat + i.length) :
    commonFault i s = some .pcOverflow := if_pos h

theorem commonFault_readOnlyRegister {n : Nat} (hpc : s.pc.toNat + i.length < 2 ^ 64)
    (h : readOnlySlot 0 (operandSlots i) = some n) :
    commonFault i s = some (.readOnlyRegister n) := by
  rw [commonFault, if_neg (not_le.mpr hpc), h]

theorem commonFault_uninitializedRead {r : Reg} (hpc : s.pc.toNat + i.length < 2 ^ 64)
    (hb : .stackBase ∉ destRegs i) (he : .stackEnd ∉ destRegs i) (h : uninitRead i s = some r) :
    commonFault i s = some (.uninitializedRead r) := by
  have hslot : readOnlySlot 0 (operandSlots i) = none :=
    readOnlySlot_eq_none.mpr ⟨mem_destRegs.not.mp hb, mem_destRegs.not.mp he⟩
  rw [commonFault, if_neg (not_le.mpr hpc), hslot]
  simp only [h]

/-- Only an unwritten read that `uninitRead` finds is an `UninitializedRead`. -/
theorem uninitRead_of_commonFault {r : Reg} (h : commonFault i s = some (.uninitializedRead r)) :
    uninitRead i s = some r := by
  unfold commonFault at h
  split at h
  · cases h
  · split at h
    · cases h
    · split at h
      · next hu => cases h; exact hu
      · cases h

/-- Under policy `fault` the first undefined register that is read is the one found. -/
theorem uninitRead_eq_some {before after : List Reg} {r : Reg} (hp : s.uninitPolicy = .fault)
    (hreads : readRegs i = before ++ r :: after) (hbefore : ∀ q ∈ before, s.defined q = true)
    (hr : s.defined r = false) : uninitRead i s = some r := by
  have hskip : before.find? (fun q => !s.defined q) = none := by simpa using hbefore
  simp [uninitRead, hp, hreads, List.find?_append, hskip, hr]

theorem uninitRead_of_zero (hp : s.uninitPolicy = .zero) : uninitRead i s = none :=
  uninitRead_eq_none.mpr (by simp [hp])

end

/-! ## Fetch and decode -/

/-- A running state whose fetch answers a fault takes it (R212). -/
theorem step_of_fetch_eq_error {s : State} {k : FaultKind} (hs : s.status = .running)
    (hf : s.fetch = .error k) : step s = .next (s.takeFault k) := by
  simp [step, hs, hf]

/-- An ended run has no step (R233). -/
theorem step_of_not_running {s : State} (hs : s.status ≠ .running) :
    step s = .fault (.runEnded s.status) := by
  unfold step
  split
  · contradiction
  · rfl

/-- Fewer bytes than an identifier and a mode byte take are `Truncated` (spec/30_encoding.md R87). -/
theorem decodeBytesWith_of_length_lt (map : OpcodeMap) {bs : List Byte} (h : bs.length < 4) :
    decodeBytesWith map bs = .error .truncated := by
  unfold decodeBytesWith
  split
  · exact absurd h (by simp)
  · rfl

theorem decodeAtWith_of_length_le (map : OpcodeMap) {program : List Byte} {p : Nat}
    (h : program.length ≤ p) : decodeAtWith map program p = .error .pcOutOfRange := if_pos h

theorem decodeAtWith_of_length_lt (map : OpcodeMap) {program : List Byte} {p : Nat}
    (hp : p < program.length) (h : program.length < p + 4) :
    decodeAtWith map program p = .error .truncated := by
  have hbytes : (program.drop p).length < 4 := by rw [List.length_drop]; omega
  rw [decodeAtWith, if_neg (not_le.mpr hp), decodeBytesWith_of_length_lt map hbytes]

/-- A decoded instruction ends inside the program (spec/30_encoding.md R89). -/
theorem decodeAtWith_end_le {map : OpcodeMap} {program : List Byte} {p : Nat} {i : Instr} {L : Nat}
    (h : decodeAtWith map program p = .ok (i, L)) : p + L ≤ program.length := by
  unfold decodeAtWith at h
  split at h
  · cases h
  · split at h
    · cases h
    · cases h; omega

/-! ## The launch state -/

theorem State.launch_readReg (program input : List Byte) (base : Word) (capacity : Nat)
    (map : OpcodeMap) (policy : UninitPolicy) {r : Reg} (hb : r ≠ .stackBase) (he : r ≠ .stackEnd) :
    (State.launch program input base capacity map policy).readReg r = 0 := by
  cases r <;> first | rfl | contradiction

/-- A register without a cell is always defined (R41). -/
theorem State.defined_of_cell_eq_none {s : State} {r : Reg} (h : s.regs.cell r = none) :
    s.defined r = true := by
  simp [State.defined, h]

theorem RegFile.cell_eq_none {f : RegFile} {r : Reg} :
    f.cell r = none ↔ r = .zero ∨ r = .instruction ∨ r = .stackBase ∨ r = .stackEnd := by
  cases r <;> simp [RegFile.cell]

/-- At launch no cell has been written. -/
theorem RegFile.reset_cell {r : Reg} {c : RegCell} (h : RegFile.reset.cell r = some c) :
    c = .reset := by
  cases r <;> cases h <;> rfl

theorem State.launch_defined {program input : List Byte} {base : Word} {capacity : Nat}
    {map : OpcodeMap} {policy : UninitPolicy} {r : Reg} :
    (State.launch program input base capacity map policy).defined r = true ↔
      RegFile.reset.cell r = none := by
  refine ⟨fun h => ?_, fun h => State.defined_of_cell_eq_none h⟩
  cases hc : RegFile.reset.cell r with
  | none => rfl
  | some c =>
    rw [State.defined, State.launch, hc, RegFile.reset_cell hc] at h
    cases h

/-! ## Operand bytes (spec/30_encoding.md R79 to R81) -/

theorem reg_ofCode_eq_some {b : Byte} {r : Reg} : Reg.ofCode b = some r ↔ r.code = b := by
  constructor
  · intro h; simpa using List.find?_some h
  · rintro rfl; exact Reg.ofCode_code r

/-- The bytes that are register codes (R80). -/
theorem exists_reg_ofCode {b : Byte} :
    (∃ r, Reg.ofCode b = some r) ↔ b.toNat ≤ 9 ∨ (16 ≤ b.toNat ∧ b.toNat ≤ 19) := by
  constructor
  · rintro ⟨r, h⟩
    rw [← reg_ofCode_eq_some.mp h]
    cases r <;> decide
  · intro h
    cases hf : Reg.ofCode b with
    | some r => exact ⟨r, rfl⟩
    | none =>
      have hcodes := List.find?_eq_none.mp hf
      simp only [Reg.all, Reg.code, List.forall_mem_cons, beq_iff_eq] at hcodes
      bv_omega

/-- The `j`-th little-endian byte is the number divided by `256 ^ j`. -/
theorem leBytes_eq_map (k n : Nat) :
    leBytes k n = (List.range k).map fun j => BitVec.ofNat 8 (n / 256 ^ j) := by
  induction k generalizing n with
  | zero => rfl
  | succ k ih =>
    rw [leBytes, ih, List.range_succ_eq_map]
    simp [Function.comp_def, pow_succ', Nat.div_div_eq_div_mul]

/-! ## The statements about the state (spec/10_state.md) and its operands -/

/-- Settles O16: the lowest offending slot is the common fault; the stack base is a parameter of the run,
and the stack end lies outside the footprint of every other instruction. -/
theorem stackRegistersAreReadOnly : Obligations.StackRegistersAreReadOnly := by
  refine ⟨fun s => ⟨rfl, rfl⟩, fun i s n r hpc hn hr hlow => ?_, fun i s t h => ⟨?_, fun hop => ?_⟩⟩
  · have hslot : readOnlySlot 0 (operandSlots i) = some n := by
      simpa using readOnlySlot_eq_some 0 hn hr hlow
    exact exec_takesCommonFaults i s _ (commonFault_readOnlyRegister hpc hslot)
  · exact (exec_oneStackOp h).mem.start_capacity.1
  · exact (exec_within h).stackEnd (footprint_movesEnd hop)

/-- An instruction without `$E` in a `D` slot leaves `$E`. -/
theorem exec_err_of_not_mem {i : Instr} {s t : State} (h : exec i s = .next t)
    (hd : .error ∉ destRegs i) : t.regs.err = s.regs.err := by
  have hw : Reg.error ∉ (footprint i).written := by simpa [mem_footprint_written] using hd
  exact Option.some.inj ((exec_within h).cell .error hw)

/-- A running state that an instruction faults has taken that fault: no committed effect is a fault. -/
theorem exec_eq_takeFault {i : Instr} {s t : State} {k : FaultKind} (hs : s.status = .running)
    (h : exec i s = .next t) (hk : t.status = .faulted k) :
    t = s.takeFault k ∧ (commonFault i s = some k ∨ 9 ≤ k.code) := by
  obtain ⟨k', rfl, hk'⟩ | hc := exec_eq_next h
  · cases hk; exact ⟨rfl, hk'⟩
  · cases hs.symm.trans (hc.status k hk)

/-- Settles O17: `$E` is in the footprint only through a `D` slot, and a fault discards the effect. -/
theorem errorRegisterIsAdvisory : Obligations.ErrorRegisterIsAdvisory := by
  refine ⟨⟨rfl, rfl, rfl, rfl⟩, fun s t h => ?_⟩
  obtain ⟨hs, ⟨k, -, rfl⟩ | ⟨i, L, hfetch, hexec⟩⟩ := step_eq_next h
  · exact ⟨fun _ => rfl, fun _ _ => rfl⟩
  · refine ⟨fun hd => exec_err_of_not_mem hexec (hd i L hfetch), fun k hk => ?_⟩
    rw [(exec_eq_takeFault hs hexec hk).1, State.takeFault_regs]

/-- Settles O18: the launch and always-defined clauses by the cells, the policy clauses by what
`uninitRead` finds and by the numbers of an effect's own faults, the last one by the footprint. -/
theorem uninitializedReadPolicy : Obligations.UninitializedReadPolicy := by
  refine ⟨fun _ _ _ _ _ _ r => State.launch_defined.trans RegFile.cell_eq_none,
    fun s r h => State.defined_of_cell_eq_none (RegFile.cell_eq_none.mpr h),
    fun i s before after r hp hpc hb he hreads hbefore hr => ?_,
    fun i s t r hp hs h hk => ?_, rfl, fun i s t h => ?_⟩
  · have hread := uninitRead_eq_some hp hreads hbefore hr
    exact exec_takesCommonFaults i s _ (commonFault_uninitializedRead hpc hb he hread)
  · obtain ⟨-, hcommon | hown⟩ := exec_eq_takeFault hs h hk
    · cases (uninitRead_of_zero hp).symm.trans (uninitRead_of_commonFault hcommon)
    · simp [FaultKind.code] at hown
  · obtain ⟨k, rfl, -⟩ | hc := exec_eq_next h
    · exact .inl ⟨k, rfl⟩
    · exact .inr fun r => (hc.defined r).trans (or_congr_right mem_footprint_written)

/-- Settles O19: the overflow is the first common fault, and a decoded instruction ends inside its
program. -/
theorem pcOverflowComesBeforeExecution : Obligations.PcOverflowComesBeforeExecution := by
  refine ⟨fun i s h => exec_takesCommonFaults i s _ (commonFault_pcOverflow h), ?_⟩
  intro map program p i L hlen h
  exact (decodeAtWith_end_le h).trans_lt hlen

/-- Settles O27: a decode fault leaves the streams, and an instruction stays within its footprint. -/
theorem streamsOnlyMoveForward : Obligations.StreamsOnlyMoveForward := by
  refine ⟨fun s t h => ?_, fun i s t h => ⟨fun hop => ?_, fun hop => ?_⟩⟩
  · obtain ⟨-, ⟨k, -, rfl⟩ | ⟨i, L, -, hexec⟩⟩ := step_eq_next h
    · exact ⟨⟨[], by simp⟩, [], by simp⟩
    · obtain ⟨taken, hin, htaken⟩ := (exec_within hexec).input
      obtain ⟨added, hout, hadded⟩ := (exec_within hexec).output
      exact ⟨⟨taken, hin, htaken.trans (footprint_taken_le i)⟩, added, hout,
        hadded.trans (footprint_added_le i)⟩
  · exact (exec_within h).input_eq (by rw [footprint_taken, if_neg hop])
  · exact (exec_within h).output_eq (by rw [footprint_added, if_neg hop])

/-- Settles O28: every fault, of the fetch or of the instruction, is a next state (R212). -/
theorem runningStatesStepEndedOnesDoNot : Obligations.RunningStatesStepEndedOnesDoNot := by
  refine ⟨fun s hs => ?_, fun s => step_of_not_running, exec_isNext⟩
  cases hf : s.fetch with
  | error k => exact ⟨_, step_of_fetch_eq_error hs hf⟩
  | ok x => rw [step_of_fetch_eq_ok hs hf]; exact exec_isNext x.1 s

/-- Settles O4: a byte names the register it is the code of, and an immediate is its base-256 digits. -/
theorem operandBytesRoundTrip : Obligations.OperandBytesRoundTrip := by
  refine ⟨by decide, fun _ => exists_reg_ofCode, fun _ _ => reg_ofCode_eq_some, fun _ => rfl,
    fun slot b bs h => ?_, fun v => ⟨leBytes_eq_map 8 v.toNat, readImm_encode v⟩⟩
  simp [readRegByte, h]

/-- Settles O14, field by field. -/
theorem launchStateIsTheResetState : Obligations.LaunchStateIsTheResetState := by
  refine ⟨fun program input base capacity map policy => ?_, rfl⟩
  exact ⟨fun _ => State.launch_readReg _ _ _ _ _ _, rfl, rfl, rfl, rfl, rfl, rfl, rfl, rfl, rfl,
    toMap_ofMap map, rfl⟩

/-- Settles O15, by the laws of the zero register. -/
theorem zeroRegisterReadsZero : Obligations.ZeroRegisterReadsZero :=
  fun s v => ⟨s.readReg_zero, s.writeReg_zero v⟩

/-- Settles O30: the last two clauses are the first on the fault that decoding answers there. -/
theorem stepTakesDecodeFaults : Obligations.StepTakesDecodeFaults := by
  refine ⟨fun s k hs h => step_of_fetch_eq_error hs h, fun s hs h => ?_, fun s hs hpc h => ?_⟩
  · exact step_of_fetch_eq_error hs (decodeAtWith_of_length_le _ h)
  · exact step_of_fetch_eq_error hs (decodeAtWith_of_length_lt _ hpc h)

end Sys2Proof.Machine

/-! SUPPORT. Where the bytes of the stack stand (spec/20_memory.md R53): every contained address is one
byte of one word, and what a read, a write, a push or a pop does to a byte is said at that place. -/

namespace Sys2Proof.Machine

/-! ## The place of a byte -/

/-- The address `a` is byte `j` of the word `w` at index `k` (spec/20_memory.md R53). -/
structure Memory.Locates (m : Memory) (a : Word) (k j : Nat) (w : Word) : Prop where
  offset_lt : j < 8
  word : m.words[k]? = some w
  address : a.toNat = m.stackEnd.toNat + 8 * k + j

/-- The two names of a word's bytes, by its bits and by its number, agree. -/
theorem wordByte_eq_byteOf (w : Word) (j : Nat) : wordByte w j = byteOf w j := by
  have hpow : (256 : Nat) ^ j = 2 ^ (8 * j) := by norm_num [pow_mul]
  apply BitVec.eq_of_toNat_eq
  simp [wordByte, byteOf, BitVec.extractLsb'_toNat, Nat.shiftRight_eq_div_pow, hpow]

section
variable {m m' : Memory} {a c w v : Word} {k j : Nat}

theorem Memory.contains_iff :
    m.contains a = true ↔ m.stackEnd.toNat ≤ a.toNat ∧ a.toNat < m.start.toNat := by
  simp [Memory.contains]

namespace Memory.Locates

theorem index_lt (h : m.Locates a k j w) : k < m.words.length :=
  (List.getElem?_eq_some_iff.1 h.word).1

theorem contains (h : m.Locates a k j w) (hm : m.wf) : m.contains a = true := by
  obtain ⟨hend, -, -⟩ := hm
  have hj := h.offset_lt
  have ha := h.address
  have hk := h.index_lt
  exact contains_iff.2 (by omega)

theorem wordIndex (h : m.Locates a k j w) : m.wordIndex a = k := by
  have hj := h.offset_lt
  have ha := h.address
  rw [Memory.wordIndex]
  omega

theorem byteOffset (h : m.Locates a k j w) : m.byteOffset a = j := by
  have hj := h.offset_lt
  have ha := h.address
  rw [Memory.byteOffset]
  omega

/-- All bytes of a word stand at the addresses that follow the word's own. -/
theorem of_add (h : m.Locates a k 0 w) (hj : j < 8) (hc : c.toNat = a.toNat + j) :
    m.Locates c k j w :=
  ⟨hj, h.word, by rw [hc, h.address, Nat.add_zero]⟩

end Memory.Locates

theorem Memory.exists_locates (hm : m.wf) (ha : m.contains a = true) :
    ∃ k j w, m.Locates a k j w := by
  obtain ⟨hend, -, -⟩ := hm
  obtain ⟨hge, hlt⟩ := contains_iff.1 ha
  have hk : m.wordIndex a < m.words.length := by rw [Memory.wordIndex]; omega
  refine ⟨m.wordIndex a, m.byteOffset a, _, ?_, List.getElem?_eq_getElem hk, ?_⟩
  · exact Nat.mod_lt _ (by decide)
  · rw [Memory.wordIndex, Memory.byteOffset]; omega

theorem Memory.exists_locates_aligned (hm : m.wf) (ha : m.contains a = true)
    (h0 : m.byteOffset a = 0) : ∃ k w, m.Locates a k 0 w := by
  obtain ⟨k, j, w, h⟩ := exists_locates hm ha
  obtain rfl : j = 0 := h.byteOffset.symm.trans h0
  exact ⟨k, w, h⟩

/-! ## Accesses at a place -/

namespace Memory.Locates

theorem wordAt (h : m.Locates a k j w) (hm : m.wf) : m.wordAt a = .ok w := by
  simp [Memory.wordAt, h.contains hm, h.wordIndex, h.word]

theorem readByte (h : m.Locates a k j w) (hm : m.wf) : m.readByte a = .ok (wordByte w j) := by
  simp [Memory.readByte, h.wordAt hm, h.byteOffset]

theorem readWord (h : m.Locates a k j w) (hm : m.wf) :
    m.readWord a = if j = 0 then .ok w else .error (.misalignedWordAccess a) := by
  simp [Memory.readWord, h.wordAt hm, h.byteOffset]

theorem writeByte (h : m.Locates a k j w) (hm : m.wf) (b : Byte) :
    m.writeByte a b = .ok (m.setWord k (setWordByte w j b)) := by
  simp [Memory.writeByte, h.wordAt hm, h.wordIndex, h.byteOffset]

theorem writeWord (h : m.Locates a k j w) (hm : m.wf) (v : Word) :
    m.writeWord a v =
      if j = 0 then .ok (m.setWord k v) else .error (.misalignedWordAccess a) := by
  simp [Memory.writeWord, h.wordAt hm, h.wordIndex, h.byteOffset]

end Memory.Locates

theorem Memory.wordAt_of_not_contains (h : m.contains a = false) :
    m.wordAt a = .error (.memoryOutOfBounds a) := by
  simp [Memory.wordAt, h]

theorem Memory.readByte_of_not_contains (h : m.contains a = false) :
    m.readByte a = .error (.memoryOutOfBounds a) := by
  simp [Memory.readByte, wordAt_of_not_contains h]

theorem Memory.readWord_of_not_contains (h : m.contains a = false) :
    m.readWord a = .error (.memoryOutOfBounds a) := by
  simp [Memory.readWord, wordAt_of_not_contains h]

theorem Memory.writeByte_of_not_contains (h : m.contains a = false) (b : Byte) :
    m.writeByte a b = .error (.memoryOutOfBounds a) := by
  simp [Memory.writeByte, wordAt_of_not_contains h]

theorem Memory.writeWord_of_not_contains (h : m.contains a = false) (v : Word) :
    m.writeWord a v = .error (.memoryOutOfBounds a) := by
  simp [Memory.writeWord, wordAt_of_not_contains h]

/-! ## Frames -/

/-- An address reads as before when it stays out of bounds, or reads the byte that stood there. -/
theorem Memory.readByte_eq_of_locates (hm : m.wf)
    (hout : m.contains a = false → m'.contains a = false)
    (hin : ∀ k j w, m.Locates a k j w → m'.readByte a = .ok (wordByte w j)) :
    m'.readByte a = m.readByte a := by
  cases ha : m.contains a with
  | false => rw [readByte_of_not_contains ha, readByte_of_not_contains (hout ha)]
  | true =>
    obtain ⟨k, j, w, h⟩ := exists_locates hm ha
    rw [hin k j w h, h.readByte hm]

theorem Memory.Locates.setWord_self (h : m.Locates a k j w) (v : Word) :
    (m.setWord k v).Locates a k j v :=
  ⟨h.offset_lt, List.getElem?_set_self h.index_lt, h.address⟩

theorem Memory.Locates.setWord_of_ne {n : Nat} (h : m.Locates a k j w) (hn : n ≠ k) (v : Word) :
    (m.setWord n v).Locates a k j w :=
  ⟨h.offset_lt, (List.getElem?_set_ne hn).trans h.word, h.address⟩

/-- Replacing a word leaves every address that is no byte of it, and every byte that the two words have
in common. -/
theorem Memory.readByte_setWord_eq (hm : m.wf)
    (hv : ∀ j w, m.Locates a k j w → wordByte v j = wordByte w j) :
    (m.setWord k v).readByte a = m.readByte a := by
  have hm' : (m.setWord k v).wf := wf_setWord k v hm
  refine readByte_eq_of_locates hm id fun n j w h => ?_
  by_cases hn : k = n
  · subst hn
    rw [(h.setWord_self v).readByte hm', hv j w h]
  · exact (h.setWord_of_ne hn v).readByte hm'

theorem Memory.readByte_setWord_setWordByte_of_ne {b : Byte} (hm : m.wf) (h : m.Locates a k j w)
    (hc : c ≠ a) : (m.setWord k (setWordByte w j b)).readByte c = m.readByte c := by
  refine readByte_setWord_eq hm fun i u hu => ?_
  obtain rfl : u = w := Option.some.inj (hu.word.symm.trans h.word)
  have hij : i ≠ j := by
    rintro rfl
    exact hc (BitVec.eq_of_toNat_eq (hu.address.trans h.address.symm))
  exact wordByte_setWordByte_of_ne u i j hu.offset_lt h.offset_lt hij b

theorem Memory.readByte_setWord_of_not_inBytes (hm : m.wf) (h : m.Locates a k 0 w)
    (hc : ¬ InBytes a 8 c) : (m.setWord k v).readByte c = m.readByte c := by
  refine readByte_setWord_eq hm fun i u hu => absurd ?_ hc
  have hi := hu.offset_lt
  have hcaddr := hu.address
  have haddr := h.address
  constructor <;> omega

/-! ## Push and pop -/

theorem Memory.push_of_full (h : m.words.length = m.capacity) :
    m.push v = .error .sizeLimitReached := by
  simp [Memory.push, h]

theorem Memory.push_of_room (h : m.words.length ≠ m.capacity) :
    m.push v = .ok { m with words := v :: m.words, stackEnd := m.stackEnd - 8 } := by
  simp [Memory.push, h]

theorem Memory.pop_of_nil (h : m.words = []) : m.pop = .error .stackUnderflow := by
  simp [Memory.pop, h]

theorem Memory.pop_of_cons {ws : List Word} (h : m.words = w :: ws) :
    m.pop = .ok (w, { m with words := ws, stackEnd := m.stackEnd + 8 }) := by
  simp [Memory.pop, h]

theorem Memory.push_start (hp : m.push v = .ok m') : m'.start = m.start := by
  obtain ⟨-, rfl⟩ := push_eq_ok hp
  rfl

/-- Within the stack invariant a push does not wrap the stack end around. -/
theorem Memory.stackEnd_toNat_push (hm : m.wf) (hp : m.push v = .ok m') :
    m.stackEnd.toNat = m'.stackEnd.toNat + 8 := by
  have hwords : m'.words.length = m.words.length + 1 := by
    obtain ⟨-, rfl⟩ := push_eq_ok hp
    rfl
  obtain ⟨hend', -, -⟩ := wf_push hm hp
  obtain ⟨hend, -, -⟩ := hm
  rw [push_start hp, hwords] at hend'
  omega

theorem Memory.locates_push (hp : m.push v = .ok m') (hj : j < 8)
    (ha : a.toNat = m'.stackEnd.toNat + j) : m'.Locates a 0 j v := by
  obtain ⟨-, rfl⟩ := push_eq_ok hp
  exact ⟨hj, rfl, ha⟩

/-- A push moves every word's index up by one and leaves its bytes where they stand. -/
theorem Memory.Locates.push (h : m.Locates a k j w) (hm : m.wf) (hp : m.push v = .ok m') :
    m'.Locates a (k + 1) j w := by
  have hend := stackEnd_toNat_push hm hp
  have ha := h.address
  refine ⟨h.offset_lt, ?_, by omega⟩
  obtain ⟨-, rfl⟩ := push_eq_ok hp
  exact h.word

theorem Memory.readByte_push_of_not_inBytes (hm : m.wf) (hp : m.push v = .ok m')
    (ha : ¬ InBytes m'.stackEnd 8 a) : m'.readByte a = m.readByte a := by
  refine readByte_eq_of_locates hm (fun hout => ?_) fun k j w h =>
    (h.push hm hp).readByte (wf_push hm hp)
  have hend := stackEnd_toNat_push hm hp
  rw [← Bool.not_eq_true, contains_iff] at hout ⊢
  rw [push_start hp]
  omega

theorem Memory.pop_push (hp : m.push v = .ok m') : m'.pop = .ok (v, m) := by
  obtain ⟨-, rfl⟩ := push_eq_ok hp
  rw [pop_of_cons rfl, BitVec.sub_add_cancel]

/-- Within the stack invariant the popped word can be pushed back, so what a pop frees and keeps is what
that push occupies and keeps. -/
theorem Memory.push_pop (hm : m.wf) (hp : m.pop = .ok (w, m')) : m'.push w = .ok m := by
  obtain ⟨hwords, hm'⟩ := pop_eq_ok hp
  obtain ⟨-, hlen, -⟩ := hm
  have hcap : m'.capacity = m.capacity := by rw [hm']
  have hroom : m'.words.length ≠ m'.capacity := by
    rw [hwords, List.length_cons] at hlen
    omega
  have hend : m'.stackEnd - 8 = m.stackEnd := by rw [hm', BitVec.add_sub_cancel]
  have hstart : m'.start = m.start := by rw [hm']
  rw [push_of_room hroom, ← hwords, hend, hstart, hcap]

theorem Memory.readByte_pop_of_inBytes (hm : m.wf) (hp : m.pop = .ok (w, m'))
    (ha : InBytes m.stackEnd 8 a) : m'.readByte a = .error (.memoryOutOfBounds a) := by
  apply readByte_of_not_contains
  have hend := stackEnd_toNat_push (wf_pop hm hp) (push_pop hm hp)
  rw [← Bool.not_eq_true, contains_iff]
  omega

theorem Memory.readByte_pop_of_not_inBytes (hm : m.wf) (hp : m.pop = .ok (w, m'))
    (ha : ¬ InBytes m.stackEnd 8 a) : m'.readByte a = m.readByte a :=
  (readByte_push_of_not_inBytes (wf_pop hm hp) (push_pop hm hp) ha).symm

end

/-! ## The statements about memory (spec/20_memory.md) -/

/-- Settles O20: a contained address is one byte of one word, and is read there. -/
theorem memoryReads : Obligations.MemoryReads := by
  intro m a hm
  refine ⟨fun k j w hj hw ha => ?_, Memory.contains_iff, fun ha => ?_, fun hnil => ?_,
    fun ha h0 j hj c hc => ?_,
    fun ha => ⟨Memory.readByte_of_not_contains ha, Memory.readWord_of_not_contains ha⟩⟩
  · have h : m.Locates a k j w := ⟨hj, hw, ha⟩
    exact ⟨h.contains hm, h.wordIndex, h.byteOffset, wordByte_eq_byteOf w j ▸ h.readByte hm,
      h.readWord hm⟩
  · obtain ⟨k, j, w, h⟩ := Memory.exists_locates hm ha
    exact ⟨k, j, w, h.offset_lt, h.word, h.address⟩
  · rw [← Bool.not_eq_true]
    intro ha
    obtain ⟨k, j, w, h⟩ := Memory.exists_locates hm ha
    simpa [hnil] using h.word
  · obtain ⟨k, w, h⟩ := Memory.exists_locates_aligned hm ha h0
    exact (h.of_add hj hc).contains hm

/-- Settles O21: a write replaces the word its address lies in, and the frame is the bytes that the old
and the new word have in common. -/
theorem memoryWrites : Obligations.MemoryWrites := by
  intro m a hm
  refine ⟨fun ha b => ?_, fun ha h0 v => ?_, fun ha h0 v => ?_, fun ha b v =>
    ⟨Memory.writeByte_of_not_contains ha b, Memory.writeWord_of_not_contains ha v⟩⟩
  · obtain ⟨k, j, w, h⟩ := Memory.exists_locates hm ha
    refine ⟨_, h.writeByte hm b, rfl, rfl, List.length_set, rfl, ?_, fun c hc =>
      Memory.readByte_setWord_setWordByte_of_ne hm h hc⟩
    rw [(h.setWord_self _).readByte (Memory.wf_setWord _ _ hm),
      wordByte_setWordByte_self w j h.offset_lt b]
  · obtain ⟨k, w, h⟩ := Memory.exists_locates_aligned hm ha h0
    have hm' : (m.setWord k v).wf := Memory.wf_setWord k v hm
    have h' : (m.setWord k v).Locates a k 0 v := h.setWord_self v
    refine ⟨m.setWord k v, h.writeWord hm v, by rw [h.wordIndex]; rfl, h'.readWord hm',
      fun j hj c hc => ?_, fun c hc => Memory.readByte_setWord_of_not_inBytes hm h hc⟩
    rw [(h'.of_add hj hc).readByte hm', wordByte_eq_byteOf]
  · obtain ⟨k, j, w, h⟩ := Memory.exists_locates hm ha
    rw [h.writeWord hm v, if_neg (h.byteOffset ▸ h0)]

/-- Settles O22: the pushed word is the one at index 0, and every other word's index moves up by one. -/
theorem pushGrowsTheStackDown : Obligations.PushGrowsTheStackDown := by
  refine fun m v => ⟨Memory.push_of_full, fun hroom => ?_⟩
  have hp := Memory.push_of_room (v := v) hroom
  refine ⟨_, hp, rfl, rfl, rfl, rfl, fun hm => ⟨fun j hj a ha => ?_, fun a ha =>
    Memory.readByte_push_of_not_inBytes hm hp ha⟩⟩
  rw [(Memory.locates_push hp hj ha).readByte (Memory.wf_push hm hp), wordByte_eq_byteOf]

/-- Settles O23: a pop is the inverse of a push, so its frame is that of the push it undoes. -/
theorem popUndoesPush : Obligations.PopUndoesPush := by
  refine fun m => ⟨Memory.pop_of_nil, fun w ws hw => ?_, fun v m' => Memory.pop_push⟩
  have hp := Memory.pop_of_cons hw
  refine ⟨_, hp, rfl, rfl, rfl, rfl, fun hm => ⟨?_, fun a => Memory.readByte_pop_of_inBytes hm hp,
    fun a => Memory.readByte_pop_of_not_inBytes hm hp⟩⟩
  obtain ⟨hend, -, -⟩ := Memory.wf_pop hm hp
  exact Nat.le.intro hend

end Sys2Proof.Machine

/-! SUPPORT. The decoder as one loop over the slots of a schema (spec/30_encoding.md R85, R87): the
reader of each operand shape is that loop on its schema, and what the loop accepts is exactly a list
that fits the schema, with the mode bits and the bytes of its operands. The statements about the
codec are read off these two facts. -/

namespace Sys2Proof

open Machine

/-! ## What the schema grants an instruction -/

theorem Instr.schema_statement (i : Instr) : Laws.Schema.Statement i := by
  cases i
  exacts [Laws.Schema.addts .., Laws.Schema.addtu .., Laws.Schema.addis .., Laws.Schema.addiu ..,
    Laws.Schema.subts .., Laws.Schema.subtu .., Laws.Schema.subis .., Laws.Schema.subiu ..,
    Laws.Schema.lshlt .., Laws.Schema.lshli .., Laws.Schema.lshrt .., Laws.Schema.lshri ..,
    Laws.Schema.ashrt .., Laws.Schema.ashri .., Laws.Schema.andt .., Laws.Schema.andi ..,
    Laws.Schema.ort .., Laws.Schema.ori .., Laws.Schema.xort .., Laws.Schema.xori ..,
    Laws.Schema.nott .., Laws.Schema.noi .., Laws.Schema.mults_e .., Laws.Schema.mulis_e ..,
    Laws.Schema.multu_e .., Laws.Schema.muliu_e .., Laws.Schema.divts_e .., Laws.Schema.divtu_e ..,
    Laws.Schema.jmp .., Laws.Schema.jmpeq .., Laws.Schema.jmpne .., Laws.Schema.jmpgts ..,
    Laws.Schema.jmpges .., Laws.Schema.jmplts .., Laws.Schema.jmples .., Laws.Schema.jmpgtu ..,
    Laws.Schema.jmpgeu .., Laws.Schema.jmpltu .., Laws.Schema.jmpleu .., Laws.Schema.cal ..,
    Laws.Schema.ret .., Laws.Schema.mov .., Laws.Schema.load .., Laws.Schema.loado ..,
    Laws.Schema.loadb .., Laws.Schema.loadbo .., Laws.Schema.stor .., Laws.Schema.storo ..,
    Laws.Schema.storb .., Laws.Schema.storbo .., Laws.Schema.push .., Laws.Schema.pop ..,
    Laws.Schema.halt, Laws.Schema.exit .., Laws.Schema.print .., Laws.Schema.read ..,
    Laws.Schema.dump, Laws.Schema.nop]

@[simp] theorem Instr.toRaw_op (i : Instr) : i.toRaw.op = i.op := rfl
@[simp] theorem Instr.toRaw_operands (i : Instr) : i.toRaw.operands = i.operands := rfl

theorem Instr.wellFormed_toRaw (i : Instr) : i.toRaw.wellFormed = true := i.schema_statement.1

theorem Instr.fitsSchema_operands (i : Instr) : fitsSchema i.op.schema i.operands = true :=
  i.wellFormed_toRaw

theorem Instr.ofRaw_toRaw (i : Instr) : Instr.ofRaw i.toRaw = some i := i.schema_statement.2.1

theorem Instr.toRaw_injective {i j : Instr} (h : i.toRaw = j.toRaw) : i = j := by
  rw [← Option.some_inj, ← i.ofRaw_toRaw, h, j.ofRaw_toRaw]

/-- The bounds of R89. -/
theorem Instr.length_bounds (i : Instr) : 4 ≤ i.length ∧ i.length ≤ 28 := by
  have hrow : 4 ≤ i.op.minLength ∧ i.op.maxLength ≤ 28 := by cases i.op <;> decide
  obtain ⟨-, -, hmin, hmax⟩ := i.schema_statement
  omega

/-! ## Identifiers -/

theorem identEncode_identDecode (b0 b1 b2 : Byte) :
    identEncode (identDecode b0 b1 b2) = [b0, b1, b2] := by
  simp only [identEncode, identDecode, List.cons.injEq, and_true]
  refine ⟨?_, ?_, BitVec.extractLsb'_append_extractLsb'⟩
  · exact BitVec.extractLsb'_append_eq_right
  · exact BitVec.extractLsb'_append_eq_left

/-- The numbers of the three bytes of an identifier (R71). -/
theorem identEncode_toNat (id : Ident) :
    (id.code.setWidth 8).toNat = id.code.toNat % 256 ∧
      ((id.code >>> 8).setWidth 8).toNat = id.code.toNat / 256 ∧
      (id.type ++ id.group).toNat = 16 * id.type.toNat + id.group.toNat := by
  have hcode := id.code.isLt
  have hgroup := id.group.isLt
  refine ⟨BitVec.toNat_setWidth .., ?_, ?_⟩
  · rw [BitVec.toNat_setWidth, BitVec.toNat_ushiftRight, Nat.shiftRight_eq_div_pow]
    omega
  · rw [BitVec.toNat_append, ← Nat.shiftLeft_add_eq_or_of_lt hgroup, Nat.shiftLeft_eq]
    omega

theorem OpcodeMap.apply_of_lookup {map : OpcodeMap} {id : Ident} {o : Op}
    (h : map.lookup id = some o) : map o = id := by
  simpa using List.find?_some h

/-- A triple of no mnemonic is unassigned (R94). -/
theorem OpcodeMap.lookup_eq_none {map : OpcodeMap} {id : Ident} (h : ∀ o, map o ≠ id) :
    map.lookup id = none :=
  List.find?_eq_none.mpr fun o _ => by simpa using h o

/-- The columns of R83 and R84 that a mnemonic's row of the default map shares with its family. -/
theorem opcodeMap_fields (o : Op) :
    (opcodeMap o).group = o.group.number ∧ (opcodeMap o).type.getLsbD 1 = o.inPlace ∧
      1 ≤ (opcodeMap o).code.toNat ∧ (opcodeMap o).code.toNat ≤ 31 := by
  cases o <;> decide

theorem lookup_opcodeMap (o : Op) : opcodeMap.lookup (opcodeMap o) = some o := by
  cases o <;> rfl

/-! ## Mode bytes -/

/-- The eight flags of a mode byte are all of it (R75). -/
theorem mode_ext {a b : Byte} (h : ∀ slot < 8, modeFlag a slot = modeFlag b slot) : a = b := by
  refine BitVec.eq_of_getLsbD_eq fun j hj => ?_
  have hflag := h (7 - j) (by omega)
  rwa [modeFlag, modeFlag, Nat.sub_sub_self (by omega)] at hflag

theorem modeFlag_modeDecode (mode : Byte) {slot : Nat} (h : slot < 8) :
    (modeDecode mode).getD slot false = modeFlag mode slot := by
  simp [modeDecode, h]

theorem modeEncode_modeDecode (mode : Byte) : modeEncode (modeDecode mode) = mode :=
  mode_ext fun slot h => by rw [modeFlag_modeEncode _ h, modeFlag_modeDecode mode h]

/-- Up to eight flags are read back from the mode byte that holds them. -/
theorem map_modeFlag_modeEncode {flags : List Bool} (h : flags.length ≤ 8) :
    (List.range' 0 flags.length).map (modeFlag (modeEncode flags)) = flags := by
  refine List.ext_getElem (by simp) fun slot hslot hslot' => ?_
  rw [List.getElem_map, List.getElem_range', modeFlag_modeEncode flags (by omega),
    List.getD_eq_getElem _ _ (by omega)]
  simp

theorem modeDecode_modeEncode {flags : List Bool} (h : flags.length = 8) :
    modeDecode (modeEncode flags) = flags := by
  have hflags := map_modeFlag_modeEncode h.le
  rwa [h, ← List.range_eq_range'] at hflags

/-- The mode byte announces these operands in the slots from `slot` on: its flags there are
theirs. -/
def Announces (mode : Byte) (slot : Nat) (os : List Operand) : Prop :=
  os.map Operand.isImm = (List.range' slot os.length).map (modeFlag mode)

@[simp] theorem announces_nil (mode : Byte) (slot : Nat) : Announces mode slot [] := rfl

@[simp] theorem announces_cons {mode : Byte} {slot : Nat} {o : Operand} {os : List Operand} :
    Announces mode slot (o :: os) ↔
      modeFlag mode slot = o.isImm ∧ Announces mode (slot + 1) os := by
  simp [Announces, List.range'_succ, eq_comm]

/-- The mode byte that the encoder writes announces the operands (R90). -/
theorem announces_modeEncode {os : List Operand} (h : os.length ≤ 8) :
    Announces (modeEncode (os.map Operand.isImm)) 0 os := by
  have hflags := map_modeFlag_modeEncode (flags := os.map Operand.isImm) (by rwa [List.length_map])
  rw [List.length_map] at hflags
  exact hflags.symm

theorem modeFlag_clearUnused (arity : Nat) (mode : Byte) {slot : Nat} (h : slot < 8) :
    modeFlag (clearUnused arity mode) slot = (decide (slot < arity) && modeFlag mode slot) := by
  have hones : (0xFF#8).getLsbD (arity + (7 - slot)) = !decide (slot < arity) := by
    rw [show 0xFF#8 = BitVec.allOnes 8 from rfl, BitVec.getLsbD_allOnes, ← decide_not,
      decide_eq_decide]
    omega
  simp [modeFlag, clearUnused, hones, show 7 - slot < 8 by omega, Bool.and_comm]

theorem clearUnused_eq_self {arity : Nat} {mode : Byte} :
    clearUnused arity mode = mode ↔
      ∀ slot, arity ≤ slot → slot < 8 → modeFlag mode slot = false := by
  constructor
  · intro h slot harity hslot
    rw [← h, modeFlag_clearUnused arity mode hslot, decide_eq_false harity.not_gt, Bool.false_and]
  · intro h
    refine mode_ext fun slot hslot => ?_
    rw [modeFlag_clearUnused arity mode hslot]
    by_cases harity : slot < arity
    · simp [harity]
    · simp [harity, h slot (not_lt.mp harity) hslot]

/-- The mode byte the encoder writes for the operands that a mode byte announced (R78, R93). -/
theorem Announces.modeEncode_eq {mode : Byte} {os : List Operand} (h : Announces mode 0 os) :
    modeEncode (os.map Operand.isImm) = clearUnused os.length mode := by
  refine mode_ext fun slot hslot => ?_
  rw [modeFlag_modeEncode _ hslot, modeFlag_clearUnused os.length mode hslot, h]
  by_cases hpresent : slot < os.length <;> simp [hpresent]

/-! ## Lengths and little-endian bytes -/

@[simp] theorem Operand.length_encode (o : Operand) : o.encode.length = o.length := by
  cases o <;> rfl

theorem length_flatMap_encode (os : List Operand) :
    (os.flatMap Operand.encode).length = operandsLength os := by
  induction os with
  | nil => rfl
  | cons o os ih => simp [operandsLength, ih]

/-- The encoded length of R82. -/
theorem length_encodeWith (map : OpcodeMap) (r : RawInstr) :
    (encodeWith map r).length = 4 + operandsLength r.operands := by
  rw [encodeWith, List.length_append, List.length_cons, length_flatMap_encode, identEncode]
  simp only [List.length_cons, List.length_nil]
  omega

theorem leNat_lt (bs : List Byte) : leNat bs < 256 ^ bs.length := by
  induction bs with
  | nil => simp [leNat]
  | cons b bs ih =>
    have hb : b.toNat < 256 := b.isLt
    simp only [leNat, List.length_cons, pow_succ]
    omega

theorem leBytes_leNat (bs : List Byte) : leBytes bs.length (leNat bs) = bs := by
  induction bs with
  | nil => rfl
  | cons b bs ih =>
    have hb : b.toNat < 256 := b.isLt
    have hdiv : (b.toNat + 256 * leNat bs) / 256 = leNat bs := by omega
    have hmod : BitVec.ofNat 8 (b.toNat + 256 * leNat bs) = b := by bv_omega
    rw [leNat, List.length_cons, leBytes, hdiv, hmod, ih]

/-! ## Operand readers -/

section
variable {α β γ : Type}

@[simp] theorem Decoded.andThen_assoc (x : Decoded α) (f : α → List Byte → Decoded β)
    (g : β → List Byte → Decoded γ) :
    (x.andThen f).andThen g = x.andThen fun a bs => (f a bs).andThen g := by
  rcases x with k | ⟨a, bs⟩ <;> rfl

theorem Decoded.andThen_eq_ok_iff {x : Decoded α} {f : α → List Byte → Decoded β}
    {y : β × List Byte} :
    x.andThen f = .ok y ↔ ∃ a bs, x = .ok (a, bs) ∧ f a bs = .ok y := by
  rcases x with k | ⟨a, bs⟩ <;> simp [Decoded.andThen]

@[simp] theorem Decoded.error_andThen (k : FaultKind) (f : α → List Byte → Decoded β) :
    Decoded.andThen (.error k) f = .error k := rfl

theorem Decoded.map_andThen_ok (x : Decoded α) (f : α → β) (g : β × List Byte → γ) :
    (x.andThen fun a bs => .ok (f a, bs)).map g = x.map fun y => g (f y.1, y.2) := by
  rcases x with k | ⟨a, bs⟩ <;> rfl

end

section
variable {mode : Byte} {slot : Nat} {bs rest : List Byte}

theorem readRegByte_eq_ok_iff {r : Reg} :
    readRegByte slot bs = .ok (r, rest) ↔ bs = (Operand.reg r).encode ++ rest := by
  refine ⟨fun h => ?_, fun h => h ▸ readRegByte_encode slot r rest⟩
  unfold readRegByte at h
  split at h
  · cases h
  · split at h
    · next hr => cases h; rw [← reg_ofCode_eq_some.mp hr]; rfl
    · cases h

/-- `readImm` by the number of bytes there are (R87). -/
theorem readImm_eq_ite : ∀ bs : List Byte,
    readImm bs = if bs.length < 8 then .error .truncated
      else .ok (BitVec.ofNat 64 (leNat (bs.take 8)), bs.drop 8)
  | _ :: _ :: _ :: _ :: _ :: _ :: _ :: _ :: _ => by simp [readImm]
  | [] | [_] | [_, _] | [_, _, _] | [_, _, _, _] | [_, _, _, _, _] | [_, _, _, _, _, _]
  | [_, _, _, _, _, _, _] => rfl

theorem readImm_eq_ok_iff {v : Word} :
    readImm bs = .ok (v, rest) ↔ bs = (Operand.imm v).encode ++ rest := by
  refine ⟨fun h => ?_, fun h => h ▸ readImm_encode v rest⟩
  rw [readImm_eq_ite] at h
  split at h
  · cases h
  · next hlen =>
    cases h
    have htake : (bs.take 8).length = 8 := List.length_take_of_le (not_lt.mp hlen)
    have hlt : leNat (bs.take 8) < 256 ^ (bs.take 8).length := leNat_lt _
    have hbytes := leBytes_leNat (bs.take 8)
    rw [htake] at hlt hbytes
    rw [Operand.encode, BitVec.toNat_ofNat, Nat.mod_eq_of_lt (show _ < 2 ^ 64 from hlt), hbytes,
      List.take_append_drop]

/-- What a source slot accepts: the operand its flag announces. -/
theorem readSrcSlot_eq_ok_iff {o : Operand} :
    readSrcSlot mode slot bs = .ok (o, rest) ↔
      modeFlag mode slot = o.isImm ∧ bs = o.encode ++ rest := by
  refine ⟨fun h => ?_, fun ⟨hflag, hbs⟩ => hbs ▸ readSrcSlot_encode o rest hflag⟩
  unfold readSrcSlot at h
  split at h
  · next hflag =>
    obtain ⟨v, bs', hv, h⟩ := Decoded.andThen_eq_ok_iff.mp h
    cases h
    exact ⟨hflag, readImm_eq_ok_iff.mp hv⟩
  · next hflag =>
    obtain ⟨r, bs', hr, h⟩ := Decoded.andThen_eq_ok_iff.mp h
    cases h
    exact ⟨by simpa using hflag, readRegByte_eq_ok_iff.mp hr⟩

end

/-! ## The loop over the slots -/

/-- Whether a slot of this kind refuses this mode flag (R87). -/
def SlotKind.refuses : SlotKind → Bool → Bool
  | .dest, flag => flag
  | .addr, flag => flag
  | .target, flag => !flag
  | .src, _ => false

theorem SlotKind.refuses_isImm (k : SlotKind) (o : Operand) : k.refuses o.isImm = !k.accepts o := by
  cases k <;> cases o <;> rfl

/-- One slot: its kind first, then the operand that its flag announces. -/
def readSlot (mode : Byte) (slot : Nat) (k : SlotKind) (bs : List Byte) : Decoded Operand :=
  if k.refuses (modeFlag mode slot) then .error (.operandKindMismatch slot mode)
  else readSrcSlot mode slot bs

/-- The slots of a schema, in slot order. -/
def readSlots (mode : Byte) : Nat → List SlotKind → List Byte → Decoded (List Operand)
  | _, [], bs => .ok ([], bs)
  | slot, k :: ks, bs =>
    (readSlot mode slot k bs).andThen fun o bs =>
    (readSlots mode (slot + 1) ks bs).andThen fun os bs => .ok (o :: os, bs)

section
variable (mode : Byte) (slot : Nat) (bs : List Byte)

theorem readSlot_dest : readSlot mode slot .dest bs =
    (readRegSlot mode slot bs).andThen fun r bs => .ok (.reg r, bs) := by
  cases h : modeFlag mode slot <;> simp [readSlot, SlotKind.refuses, readRegSlot, readSrcSlot, h]

theorem readSlot_addr : readSlot mode slot .addr bs =
    (readRegSlot mode slot bs).andThen fun r bs => .ok (.reg r, bs) :=
  readSlot_dest mode slot bs

theorem readSlot_target : readSlot mode slot .target bs =
    (readTargetSlot mode slot bs).andThen fun v bs => .ok (.imm v, bs) := by
  cases h : modeFlag mode slot <;> simp [readSlot, SlotKind.refuses, readTargetSlot, readSrcSlot, h]

theorem readSlot_src : readSlot mode slot .src bs = readSrcSlot mode slot bs := rfl

end

/-- The reader of every mnemonic is the loop on its schema. -/
theorem readOperands_eq_readSlots (mode : Byte) (bs : List Byte) (o : Op) :
    (readOperands mode bs o).andThen (fun i rest => .ok (i.toRaw, rest)) =
      (readSlots mode 0 o.schema bs).andThen fun os rest => .ok (⟨o, os⟩, rest) := by
  cases o <;>
    simp [readOperands, readNone, readD, readS, readT, readDS, readDSS, readDDSS, readTSS, readDA,
      readDAS, readSA, readSAS, Op.schema, readSlots, readSlot_dest, readSlot_addr, readSlot_target,
      readSlot_src, Instr.toRaw, Instr.op, Instr.operands]

section
variable {mode : Byte} {slot : Nat} {bs rest : List Byte}

theorem readSlot_eq_ok_iff {k : SlotKind} {o : Operand} :
    readSlot mode slot k bs = .ok (o, rest) ↔
      k.accepts o = true ∧ modeFlag mode slot = o.isImm ∧ bs = o.encode ++ rest := by
  rw [readSlot]
  split
  · next hrefuses =>
    refine iff_of_false nofun fun ⟨haccepts, hflag, _⟩ => ?_
    rw [hflag, k.refuses_isImm, haccepts] at hrefuses
    cases hrefuses
  · next hrefuses =>
    rw [readSrcSlot_eq_ok_iff, iff_and_self]
    rintro ⟨hflag, -⟩
    rw [hflag, k.refuses_isImm] at hrefuses
    simpa using hrefuses

/-- What the loop accepts: a list that fits the schema, with its operands' flags and bytes. -/
theorem readSlots_eq_ok_iff {ks : List SlotKind} {os : List Operand} :
    readSlots mode slot ks bs = .ok (os, rest) ↔
      fitsSchema ks os = true ∧ Announces mode slot os ∧
        bs = os.flatMap Operand.encode ++ rest := by
  induction ks generalizing slot bs rest os with
  | nil => cases os <;> simp [readSlots, fitsSchema]
  | cons k ks ih =>
    simp only [readSlots, Decoded.andThen_eq_ok_iff, readSlot_eq_ok_iff, ih]
    cases os with
    | nil => simp [fitsSchema]
    | cons o os =>
      constructor
      · rintro ⟨_, _, ⟨hk, hflag, rfl⟩, _, _, ⟨hks, hflags, rfl⟩, ⟨⟩⟩
        simp [fitsSchema, hk, hks, hflag, hflags]
      · simp only [fitsSchema, announces_cons, Bool.and_eq_true, List.flatMap_cons,
          List.append_assoc]
        rintro ⟨⟨hk, hks⟩, ⟨hflag, hflags⟩, rfl⟩
        exact ⟨o, _, ⟨hk, hflag, rfl⟩, os, _, ⟨hks, hflags, rfl⟩, rfl⟩

end

/-! ## What the decoder accepts -/

section
variable {map : OpcodeMap} {mode : Byte} {bs rest : List Byte} {i : Instr}

theorem readOperands_eq_ok_iff {o : Op} :
    readOperands mode bs o = .ok (i, rest) ↔ i.op = o ∧ Announces mode 0 i.operands ∧
      bs = i.operands.flatMap Operand.encode ++ rest := by
  have hraw : readOperands mode bs o = .ok (i, rest) ↔
      (readOperands mode bs o).andThen (fun i rest => .ok (i.toRaw, rest)) =
        .ok (i.toRaw, rest) := by
    rw [Decoded.andThen_eq_ok_iff]
    refine ⟨fun h => ⟨i, rest, h, rfl⟩, fun ⟨j, rest', h, hj⟩ => ?_⟩
    obtain ⟨hop, rfl⟩ := Prod.mk.inj (Except.ok.inj hj)
    rwa [← Instr.toRaw_injective hop]
  rw [hraw, readOperands_eq_readSlots, Decoded.andThen_eq_ok_iff]
  simp only [readSlots_eq_ok_iff, Instr.toRaw]
  constructor
  · rintro ⟨os, _, ⟨-, hflags, hbs⟩, heq⟩
    cases heq
    exact ⟨rfl, hflags, hbs⟩
  · rintro ⟨rfl, hflags, hbs⟩
    exact ⟨_, _, ⟨i.fitsSchema_operands, hflags, hbs⟩, rfl⟩

/-- A decoded instruction is its identifier, a mode byte with the flags of its operands, and their
bytes. -/
theorem decodeBytesWith_eq_ok_iff :
    decodeBytesWith map bs = .ok (i, rest) ↔ ∃ b0 b1 b2 mode,
      map.lookup (identDecode b0 b1 b2) = some i.op ∧ Announces mode 0 i.operands ∧
      bs = b0 :: b1 :: b2 :: mode :: (i.operands.flatMap Operand.encode ++ rest) := by
  constructor
  · intro h
    unfold decodeBytesWith at h
    split at h
    · next b0 b1 b2 mode bs =>
      split at h
      · cases h
      · next hlookup =>
        obtain ⟨rfl, hflags, rfl⟩ := readOperands_eq_ok_iff.mp h
        exact ⟨b0, b1, b2, mode, hlookup, hflags, rfl⟩
    · cases h
  · rintro ⟨b0, b1, b2, mode, hlookup, hflags, rfl⟩
    simp only [decodeBytesWith, hlookup]
    exact readOperands_eq_ok_iff.mpr ⟨rfl, hflags, rfl⟩

theorem decodeBytesWith_length (h : decodeBytesWith map bs = .ok (i, rest)) :
    bs.length = i.length + rest.length := by
  obtain ⟨b0, b1, b2, mode, -, -, rfl⟩ := decodeBytesWith_eq_ok_iff.mp h
  simp only [List.length_cons, List.length_append, length_flatMap_encode, Instr.length]
  omega

/-- Decoding looks at the bytes of the instruction alone. -/
theorem decodeBytesWith_take_append (h : decodeBytesWith map bs = .ok (i, rest))
    (post : List Byte) : decodeBytesWith map (bs.take i.length ++ post) = .ok (i, post) := by
  obtain ⟨b0, b1, b2, mode, hlookup, hflags, rfl⟩ := decodeBytesWith_eq_ok_iff.mp h
  refine decodeBytesWith_eq_ok_iff.mpr ⟨b0, b1, b2, mode, hlookup, hflags, ?_⟩
  rw [Instr.length, ← length_flatMap_encode, Nat.add_comm]
  simp

theorem decodeAtWith_eq_ok_iff {program : List Byte} {p L : Nat} :
    decodeAtWith map program p = .ok (i, L) ↔
      L = i.length ∧ ∃ rest, decodeBytesWith map (program.drop p) = .ok (i, rest) := by
  have hlength {rest : List Byte} (h : decodeBytesWith map (program.drop p) = .ok (i, rest)) :
      program.length - p - rest.length = i.length := by
    rw [← List.length_drop, decodeBytesWith_length h, Nat.add_sub_cancel]
  unfold decodeAtWith
  split
  · next hp => simp [List.drop_eq_nil_of_le hp, decodeBytesWith]
  · split
    · next h => simp [h]
    · next j rest h =>
      constructor
      · rintro ⟨⟩
        exact ⟨hlength h, rest, h⟩
      · rintro ⟨rfl, rest', h'⟩
        cases h.symm.trans h'
        rw [hlength h]

end

/-! ## The pseudocode of R87 -/

theorem drop_eq_getD_cons {program : List Byte} {q : Nat} (h : q < program.length) :
    program.drop q = program.getD q 0 :: program.drop (q + 1) := by
  rw [List.drop_eq_getElem_cons h, List.getD_eq_getElem _ _ h]

theorem drop_eq_header_cons {program : List Byte} {p : Nat} (h : p + 4 ≤ program.length) :
    program.drop p = program.getD p 0 :: program.getD (p + 1) 0 :: program.getD (p + 2) 0 ::
      program.getD (p + 3) 0 :: program.drop (p + 4) := by
  rw [drop_eq_getD_cons (by omega), drop_eq_getD_cons (by omega), drop_eq_getD_cons (by omega),
    drop_eq_getD_cons (by omega)]

/-- One turn of the pseudocode's loop, its two checks of the slot's kind as one. -/
theorem decodeSlots_cons (program : List Byte) (mode : Byte) (slot q : Nat) (k : SlotKind)
    (ks : List SlotKind) :
    decodeSlots program mode slot q (k :: ks) =
      if k.refuses (modeFlag mode slot) then .error (.operandKindMismatch slot mode)
      else decodeSlots program mode slot q (.src :: ks) := by
  cases h : modeFlag mode slot <;> cases k <;> simp [decodeSlots, SlotKind.refuses, h]

/-- The pseudocode's cursor is the number of bytes that the loop has left behind. -/
theorem decodeSlots_eq_readSlots {program : List Byte} (mode : Byte) (slot : Nat) {q : Nat}
    (ks : List SlotKind) (hq : q ≤ program.length) :
    decodeSlots program mode slot q ks =
      (readSlots mode slot ks (program.drop q)).map fun x =>
        (x.1, program.length - x.2.length) := by
  induction ks generalizing slot q with
  | nil => simp [decodeSlots, readSlots, Except.map, Nat.sub_sub_self hq]
  | cons k ks ih =>
    have htail (o : Operand) {q' : Nat} (hq' : q' ≤ program.length) :
        (decodeSlots program mode (slot + 1) q' ks).map (fun x => (o :: x.1, x.2)) =
          ((readSlots mode (slot + 1) ks (program.drop q')).andThen fun os rest =>
            .ok (o :: os, rest)).map fun x => (x.1, program.length - x.2.length) := by
      rw [ih (slot + 1) hq', Decoded.map_andThen_ok]
      cases readSlots mode (slot + 1) ks (program.drop q') <;> rfl
    rw [decodeSlots_cons, readSlots, readSlot]
    split
    · rfl
    · cases hflag : modeFlag mode slot with
      | true =>
        by_cases hlen : program.length < q + 8
        · have hshort : program.length - q < 8 := by omega
          simp [decodeSlots, readSrcSlot, readImm_eq_ite, hflag, hlen, hshort, Except.map]
        · have hroom : ¬ program.length - q < 8 := by omega
          simp [decodeSlots, readSrcSlot, readImm_eq_ite, hflag, hlen, hroom,
            htail _ (not_lt.mp hlen)]
      | false =>
        by_cases hlen : program.length < q + 1
        · have hnil : program.drop q = [] := List.drop_eq_nil_of_le (by omega)
          simp [decodeSlots, readSrcSlot, readRegByte, hflag, hlen, hnil, Except.map]
        · rw [drop_eq_getD_cons (by omega), decodeSlots]
          generalize program.getD q 0 = b
          cases hcode : Reg.ofCode b with
          | none => simp [readSrcSlot, readRegByte, hflag, hlen, hcode, Except.map]
          | some r => simp [readSrcSlot, readRegByte, hflag, hlen, hcode, htail _ (not_lt.mp hlen)]

/-- The model's reader of a mnemonic's operands is the pseudocode's loop on its schema, and both
count the same length for an instruction that starts at `p`. -/
theorem readOperands_map_eq_decodeSlots {program : List Byte} (mode : Byte) (p : Nat) {q : Nat}
    (o : Op) (hq : q ≤ program.length) :
    (readOperands mode (program.drop q) o).map
        (fun x => (x.1.toRaw, program.length - p - x.2.length)) =
      (decodeSlots program mode 0 q o.schema).map fun x => (⟨o, x.1⟩, x.2 - p) := by
  have h := congrArg (Except.map fun x => (x.1, program.length - p - x.2.length))
    (readOperands_eq_readSlots mode (program.drop q) o)
  rw [Decoded.map_andThen_ok, Decoded.map_andThen_ok] at h
  rw [h, decodeSlots_eq_readSlots mode 0 o.schema hq]
  cases readSlots mode 0 o.schema (program.drop q) with
  | error k => rfl
  | ok x => simp [Except.map, Nat.sub_right_comm]

/-! ## The encoder on what was decoded -/

theorem operandsLength_eq_sum (os : List Operand) :
    operandsLength os = (os.map fun o => if o.isImm then 8 else 1).sum := by
  induction os with
  | nil => rfl
  | cons o os ih => cases o <;> simp [operandsLength, Operand.length, ih]

theorem encodeWith_of_lookup {map : OpcodeMap} {b0 b1 b2 mode : Byte} {i : Instr}
    (hlookup : map.lookup (identDecode b0 b1 b2) = some i.op)
    (hflags : Announces mode 0 i.operands) :
    encodeWith map i.toRaw = b0 :: b1 :: b2 :: clearUnused i.operands.length mode ::
      i.operands.flatMap Operand.encode := by
  rw [encodeWith, Instr.toRaw_op, Instr.toRaw_operands, OpcodeMap.apply_of_lookup hlookup,
    identEncode_identDecode, hflags.modeEncode_eq]
  rfl

/-! ## Well-formed lists -/

theorem length_eq_of_fitsSchema {ks : List SlotKind} {os : List Operand}
    (h : fitsSchema ks os = true) : os.length = ks.length := by
  induction ks generalizing os with
  | nil => cases os with
    | nil => rfl
    | cons o os => cases h
  | cons k ks ih => cases os with
    | nil => cases h
    | cons o os =>
      obtain ⟨-, hks⟩ := (Bool.and_eq_true _ _).mp h
      rw [List.length_cons, List.length_cons, ih hks]

/-- A well-formed list is an instruction's: the one that the decoder reads from the mode byte and
the bytes of the list. -/
theorem RawInstr.exists_instr {r : RawInstr} (h : r.wellFormed = true) :
    ∃ i : Instr, i.toRaw = r := by
  obtain ⟨o, os⟩ := r
  have harity : o.schema.length ≤ 8 := by cases o <;> decide
  have hflags := announces_modeEncode ((length_eq_of_fitsSchema h).trans_le harity)
  have hread := (readOperands_eq_readSlots (modeEncode (os.map Operand.isImm))
    (os.flatMap Operand.encode ++ []) o).trans
      (Decoded.andThen_eq_ok_iff.mpr ⟨os, [], readSlots_eq_ok_iff.mpr ⟨h, hflags, rfl⟩, rfl⟩)
  obtain ⟨i, _, -, hi⟩ := Decoded.andThen_eq_ok_iff.mp hread
  exact ⟨i, congrArg Prod.fst (Except.ok.inj hi)⟩

theorem encodeChecked_eq_error_iff (map : OpcodeMap) (r : RawInstr) :
    encodeChecked map r = .error .encodingError ↔ r.wellFormed = false := by
  cases h : r.wellFormed <;> simp [encodeChecked, h]

/-! ## The statements about the codec (spec/30_encoding.md) -/

/-- Settles O6: the bytes are the encoder's, so the round trip of R92 applies, and the length is
counted operand by operand. -/
theorem decodeOfEncode : Obligations.DecodeOfEncode := by
  intro map hinj i pre post
  exact ⟨if_pos i.wellFormed_toRaw, decodeAtWith_encodeWith hinj i pre post,
    length_encodeWith map i.toRaw, congrArg (4 + ·) (operandsLength_eq_sum i.operands)⟩

/-- Settles O7: of the decoded bytes, the mode byte alone can be another than the encoder writes. -/
theorem encodeOfDecode : Obligations.EncodeOfDecode := by
  intro map b0 b1 b2 mode rest i L h
  obtain ⟨rfl, rest', hbytes⟩ := decodeAtWith_eq_ok_iff.mp h
  obtain ⟨_, _, _, _, hlookup, hflags, heq⟩ := decodeBytesWith_eq_ok_iff.mp hbytes
  obtain ⟨rfl, rfl, rfl, rfl, rfl⟩ : b0 = _ ∧ b1 = _ ∧ b2 = _ ∧ mode = _ ∧ rest = _ := by
    simpa using heq
  have hL : i.length = (i.operands.flatMap Operand.encode).length + 4 := by
    rw [length_flatMap_encode, Instr.length, Nat.add_comm]
  rw [encodeWith_of_lookup hlookup hflags, hL, ← clearUnused_eq_self]
  simp

/-- Settles O8: both read a slot as its kind, its byte count and its register code, in this order,
and the pseudocode's cursor is what the model's reader has left behind. -/
theorem decodeFollowsItsPseudocode : Obligations.DecodeFollowsItsPseudocode := by
  intro map program p
  rw [decodeReading]
  split
  · next hp => rw [decodeAtWith_of_length_le map hp]; rfl
  · next hp =>
    split
    · next hlen => rw [decodeAtWith_of_length_lt map (not_le.mp hp) hlen]; rfl
    · next hlen =>
      rw [decodeAtWith, if_neg hp, drop_eq_header_cons (not_lt.mp hlen)]
      simp only [decodeBytesWith]
      cases map.lookup (identDecode (program.getD p 0) (program.getD (p + 1) 0)
        (program.getD (p + 2) 0)) with
      | none => rfl
      | some o =>
        dsimp only
        refine Eq.trans ?_ (readOperands_map_eq_decodeSlots _ p o (not_lt.mp hlen))
        cases readOperands (program.getD (p + 3) 0) (program.drop (p + 4)) o <;> rfl

/-- Settles O10: another program with the same bytes there has other bytes after the instruction
only, and decoding does not look at them. -/
theorem decodeStaysInsideTheProgram : Obligations.DecodeStaysInsideTheProgram := by
  intro map program p i L h
  have hend := decodeAtWith_end_le h
  obtain ⟨rfl, rest, hbytes⟩ := decodeAtWith_eq_ok_iff.mp h
  obtain ⟨hmin, hmax⟩ := i.length_bounds
  refine ⟨rfl, hmin, hmax, hend, fun other hother => ?_⟩
  have hdrop : other.drop p = (program.drop p).take i.length ++ other.drop (p + i.length) := by
    have hle : p ≤ (other.take (p + i.length)).length := by
      rw [hother, List.length_take_of_le hend]
      exact Nat.le_add_right p i.length
    calc other.drop p = (other.take (p + i.length) ++ other.drop (p + i.length)).drop p := by
          rw [List.take_append_drop]
      _ = _ := by
          rw [List.drop_append_of_le_length hle, hother, List.drop_take, Nat.add_sub_cancel_left]
  exact decodeAtWith_eq_ok_iff.mpr ⟨rfl, _, hdrop ▸ decodeBytesWith_take_append hbytes _⟩

/-- Settles O5: the decoder finds the instruction of a well-formed list; the rest is the schema that
every instruction is granted. -/
theorem wellFormedListsAreInstructions : Obligations.WellFormedListsAreInstructions := by
  refine ⟨by decide, fun r => ⟨RawInstr.exists_instr, ?_⟩, encodeChecked_eq_error_iff,
    Instr.ofRaw_toRaw⟩
  rintro ⟨i, rfl⟩
  exact i.wellFormed_toRaw

/-- Settles O9: the lookup finds no row; the rows of the default map have codes 1 to 31 and groups
0 to 6. -/
theorem unassignedIdentifiersFault : Obligations.UnassignedIdentifiersFault := by
  refine ⟨fun map b0 b1 b2 mode pre rest h => ?_, ?_, ?_, ?_, ?_⟩
  · have hinside : ¬ (pre ++ b0 :: b1 :: b2 :: mode :: rest).length ≤ pre.length := by simp
    rw [decodeAtWith, if_neg hinside, List.drop_left]
    simp [decodeBytesWith, OpcodeMap.lookup_eq_none h]
  · rintro _ h o rfl
    obtain ⟨hgroup, -, hmin, hmax⟩ := opcodeMap_fields o
    have hnumber : o.group.number.toNat < 7 := by cases o.group <;> decide
    rw [hgroup] at h
    obtain h | h | h := h
    · rw [h] at hmin
      exact absurd hmin (by decide)
    · omega
    · omega
  · rintro _ h o rfl
    exact (h o rfl).elim (· rfl) (· rfl)
  · intro o; cases o <;> decide
  · intro o; cases o <;> decide

/-- Settles O1: the lookup finds each row, so no two rows agree. -/
theorem opcodeMapIsUnambiguous : Obligations.OpcodeMapIsUnambiguous := by
  refine ⟨fun o o' h => ?_, lookup_opcodeMap, opcodeMap_fields⟩
  rw [← Option.some_inj, ← lookup_opcodeMap o, h, lookup_opcodeMap o']

/-- Settles O2: the three bytes are disjoint fields of the triple, and 4 bits hold the numbers up
to 15. -/
theorem identifierCodecRoundTrip : Obligations.IdentifierCodecRoundTrip := by
  refine ⟨fun id => ⟨_, _, _, rfl, identDecode_identEncode id, identEncode_toNat id⟩,
    identEncode_identDecode, fun code type group => ?_⟩
  by_cases h : type ≤ 15 ∧ group ≤ 15 <;> simp [identOfNats, h]

/-- Settles O3: both directions compare the eight flags one by one. -/
theorem modeByteRoundTrip : Obligations.ModeByteRoundTrip :=
  ⟨modeEncode_modeDecode, fun flags h =>
    ⟨modeDecode_modeEncode h, fun _ => modeFlag_modeEncode flags⟩⟩

/-- Settles O11, each word by running the decoder on it. -/
theorem decodedWordsAreRight : Obligations.DecodedWordsAreRight :=
  ⟨rfl, rfl, rfl, rfl, rfl, rfl, rfl, rfl, rfl, rfl, rfl, rfl, rfl, rfl⟩

end Sys2Proof

/-! SUPPORT. The assembler's two passes, said once (spec/30_encoding.md R97 to R101): what one
element encodes as, what the elements of a program encode as together, and where a label stands. The
statements about the assembler are read off these. -/

namespace Sys2Proof.Machine

/-! ## Assembler operands -/

@[simp] theorem AsmOperand.length_ofOperand (o : Operand) : (ofOperand o).length = o.length := by
  cases o <;> rfl

theorem acceptsAsm_ofOperand (k : SlotKind) (o : Operand) :
    acceptsAsm k (.ofOperand o) = k.accepts o := by
  cases k <;> cases o <;> rfl

theorem fitsAsm_ofOperand (ks : List SlotKind) (os : List Operand) :
    fitsAsm ks (os.map AsmOperand.ofOperand) = fitsSchema ks os := by
  induction ks generalizing os with
  | nil => cases os <;> rfl
  | cons k ks ih =>
    cases os with
    | nil => rfl
    | cons o os => rw [List.map_cons, fitsAsm, fitsSchema, acceptsAsm_ofOperand, ih]

theorem AsmOperand.eq_label_or_ofOperand (o : AsmOperand) :
    (∃ name, o = .label name) ∨ ∃ v, o = ofOperand v := by
  cases o with
  | reg r => exact .inr ⟨.reg r, rfl⟩
  | imm v => exact .inr ⟨.imm v, rfl⟩
  | label name => exact .inl ⟨name, rfl⟩

theorem exists_eq_map_ofOperand {os : List AsmOperand} (h : ∀ name, AsmOperand.label name ∉ os) :
    ∃ vs : List Operand, os = vs.map AsmOperand.ofOperand := by
  induction os with
  | nil => exact ⟨[], rfl⟩
  | cons o os ih =>
    obtain ⟨vs, rfl⟩ := ih fun name hmem => h name (List.mem_cons_of_mem o hmem)
    obtain ⟨name, rfl⟩ | ⟨v, rfl⟩ := o.eq_label_or_ofOperand
    · exact absurd List.mem_cons_self (h name)
    · exact ⟨v :: vs, rfl⟩

/-- A label reference stands in a `T` slot only (R97). -/
theorem target_mem_of_label_mem {ks : List SlotKind} {os : List AsmOperand} {name : String}
    (hfits : fitsAsm ks os = true) (hmem : .label name ∈ os) : .target ∈ ks := by
  induction ks generalizing os with
  | nil => cases os with
    | nil => cases hmem
    | cons o os => cases hfits
  | cons k ks ih => cases os with
    | nil => cases hmem
    | cons o os =>
      rw [fitsAsm, Bool.and_eq_true] at hfits
      obtain ⟨hk, hks⟩ := hfits
      obtain rfl | hmem := List.mem_cons.mp hmem
      · cases k with
        | target => exact List.mem_cons_self
        | dest | addr | src => cases hk
      · exact List.mem_cons_of_mem k (ih hks hmem)

/-- The only `T` slot a schema can have is slot 0 (R84). -/
theorem target_not_mem_schema_tail (o : Op) : .target ∉ o.schema.tail := by cases o <;> decide

theorem operands_of_label_mem {op : Op} {operands : List AsmOperand} {name : String}
    (hfits : fitsAsm op.schema operands = true) (hmem : .label name ∈ operands) :
    ∃ rest : List Operand, operands = .label name :: rest.map AsmOperand.ofOperand := by
  have htail := target_not_mem_schema_tail op
  cases operands with
  | nil => cases hmem
  | cons o os =>
    cases hschema : op.schema with
    | nil => rw [hschema] at hfits; cases hfits
    | cons k ks =>
      rw [hschema, List.tail_cons] at htail
      rw [hschema, fitsAsm, Bool.and_eq_true] at hfits
      have hnone (name : String) : AsmOperand.label name ∉ os :=
        fun h => htail (target_mem_of_label_mem hfits.2 h)
      obtain ⟨rest, rfl⟩ := exists_eq_map_ofOperand hnone
      obtain rfl := (List.mem_cons.mp hmem).resolve_right (hnone name)
      exact ⟨rest, rfl⟩

/-! ## Resolution (R99, R100) -/

section
variable {defs : List (String × Nat)}

theorem resolve_ofOperand (o : Operand) : (AsmOperand.ofOperand o).resolve defs = .ok o := by
  cases o <;> rfl

theorem resolve_label_eq_ok {name : String} {v : Operand}
    (h : (AsmOperand.label name).resolve defs = .ok v) :
    ∃ q, (name, q) ∈ defs ∧ v = .imm (BitVec.ofNat 64 q) := by
  rw [AsmOperand.resolve] at h
  split at h
  · next d hd =>
    cases h
    have hname : d.1 = name := by simpa using List.find?_some hd
    exact ⟨d.2, hname ▸ List.mem_of_find?_eq_some hd, rfl⟩
  · cases h

theorem resolve_label_eq_error {name : String} (h : ∀ q, (name, q) ∉ defs) :
    (AsmOperand.label name).resolve defs = .error (.undefinedLabel name) := by
  have hnone : (defs.find? fun d => d.1 == name) = none := by
    refine List.find?_eq_none.mpr fun d hd hname => ?_
    rw [beq_iff_eq] at hname
    exact h d.2 (hname ▸ hd)
  rw [AsmOperand.resolve, hnone]

theorem resolve_length {o : AsmOperand} {v : Operand} (h : o.resolve defs = .ok v) :
    v.length = o.length := by
  obtain ⟨name, rfl⟩ | ⟨u, rfl⟩ := o.eq_label_or_ofOperand
  · obtain ⟨q, -, rfl⟩ := resolve_label_eq_ok h
    rfl
  · rw [resolve_ofOperand] at h
    cases h
    exact (AsmOperand.length_ofOperand _).symm

theorem resolveAll_cons_eq_ok_iff {o : AsmOperand} {os : List AsmOperand} {vs : List Operand} :
    resolveAll defs (o :: os) = .ok vs ↔
      ∃ v ws, o.resolve defs = .ok v ∧ resolveAll defs os = .ok ws ∧ vs = v :: ws := by
  rw [resolveAll]
  cases o.resolve defs with
  | error e => simp
  | ok v => cases resolveAll defs os <;> simp [Except.map, eq_comm]

theorem resolveAll_ofOperand (os : List Operand) :
    resolveAll defs (os.map AsmOperand.ofOperand) = .ok os := by
  induction os with
  | nil => rfl
  | cons o os ih => exact resolveAll_cons_eq_ok_iff.mpr ⟨o, os, resolve_ofOperand o, ih, rfl⟩

theorem resolveAll_length {os : List AsmOperand} {vs : List Operand}
    (h : resolveAll defs os = .ok vs) : operandsLength vs = (os.map AsmOperand.length).sum := by
  induction os generalizing vs with
  | nil => cases h; rfl
  | cons o os ih =>
    obtain ⟨v, ws, hv, hws, rfl⟩ := resolveAll_cons_eq_ok_iff.mp h
    rw [operandsLength, resolve_length hv, ih hws, List.map_cons, List.sum_cons]

end

/-! ## Label definitions (R98) -/

theorem labelOffsets_append (p : Nat) (a b : List ProgramElement) :
    labelOffsets p (a ++ b) =
      labelOffsets p a ++ labelOffsets (p + (a.map ProgramElement.length).sum) b := by
  induction a generalizing p with
  | nil => rfl
  | cons e a ih =>
    cases e with
    | label name => simp [labelOffsets, ih, ProgramElement.length]
    | instr op operands => simp [labelOffsets, ih, Nat.add_assoc]

theorem exists_label_of_mem_labelOffsets {p q : Nat} {es : List ProgramElement} {name : String}
    (h : (name, q) ∈ labelOffsets p es) : ∃ before after,
      es = before ++ .label name :: after ∧ q = p + (before.map ProgramElement.length).sum := by
  induction es generalizing p with
  | nil => cases h
  | cons e es ih =>
    cases e with
    | label name' =>
      obtain heq | h := List.mem_cons.mp h
      · cases heq
        exact ⟨[], es, rfl, rfl⟩
      · obtain ⟨before, after, rfl, rfl⟩ := ih h
        exact ⟨.label name' :: before, after, rfl, by simp [ProgramElement.length]⟩
    | instr op operands =>
      obtain ⟨before, after, rfl, rfl⟩ := ih h
      exact ⟨.instr op operands :: before, after, rfl, by simp [Nat.add_assoc]⟩

/-! ## One element -/

section
variable {map : OpcodeMap} {defs : List (String × Nat)}

/-- An element that encodes is an instruction once its labels are resolved. -/
theorem encodeElement_instr_eq_ok_iff {op : Op} {operands : List AsmOperand} {bytes : List Byte} :
    encodeElement map defs (.instr op operands) = .ok bytes ↔
      fitsAsm op.schema operands = true ∧ ∃ i : Instr, i.op = op ∧
        resolveAll defs operands = .ok i.operands ∧ bytes = encodeWith map i.toRaw := by
  constructor
  · intro h
    rw [encodeElement] at h
    split at h
    · next hfits =>
      split at h
      · cases h
      · next vs hvs =>
        rw [encodeChecked] at h
        split at h
        · next hwf =>
          obtain ⟨i, hi⟩ := RawInstr.exists_instr hwf
          cases h
          obtain ⟨hop, hoperands⟩ := RawInstr.mk.inj hi
          exact ⟨hfits, i, hop, hoperands ▸ hvs, by rw [hi]⟩
        · cases h
    · cases h
  · rintro ⟨hfits, i, rfl, hres, rfl⟩
    rw [encodeElement, if_pos hfits, hres]
    exact if_pos i.wellFormed_toRaw

theorem encodeElement_ofInstr (i : Instr) :
    encodeElement map defs (.ofInstr i) = .ok (encodeWith map i.toRaw) :=
  encodeElement_instr_eq_ok_iff.mpr ⟨(fitsAsm_ofOperand _ _).trans i.fitsSchema_operands, i, rfl,
    resolveAll_ofOperand i.operands, rfl⟩

theorem encodeElement_length {e : ProgramElement} {bytes : List Byte}
    (h : encodeElement map defs e = .ok bytes) : bytes.length = e.length := by
  cases e with
  | label name =>
    rw [encodeElement] at h
    split at h
    · cases h; rfl
    · cases h
  | instr op operands =>
    obtain ⟨-, i, -, hres, rfl⟩ := encodeElement_instr_eq_ok_iff.mp h
    rw [length_encodeWith, Instr.toRaw_operands, resolveAll_length hres, ProgramElement.length]

theorem encodeElement_duplicate {name : String}
    (h : 2 ≤ (defs.filter fun d => d.1 == name).length) :
    encodeElement map defs (.label name) = .error (.duplicateLabel name) :=
  if_neg (by omega)

/-- An instruction whose label nothing defines is an error: the `LabelError` once its operands fit,
an `EncodingError` before (R100; log 9). -/
theorem encodeElement_undefined {op : Op} {operands : List AsmOperand} {name : String}
    (hmem : .label name ∈ operands) (h : ∀ q, (name, q) ∉ defs) :
    encodeElement map defs (.instr op operands) = .error
      (if fitsAsm op.schema operands then .undefinedLabel name else .encodingError) := by
  rw [encodeElement]
  split
  · next hfits =>
    obtain ⟨rest, rfl⟩ := operands_of_label_mem hfits hmem
    rw [resolveAll, resolve_label_eq_error h]
  · rfl

/-! ## The elements of a program -/

theorem encodeElements_append (index : Nat) (a b : List ProgramElement) :
    encodeElements map defs index (a ++ b) =
      ((encodeElements map defs index a).1 ++ (encodeElements map defs (index + a.length) b).1,
        (encodeElements map defs index a).2 ++
          (encodeElements map defs (index + a.length) b).2) := by
  induction a generalizing index with
  | nil => rfl
  | cons e a ih =>
    rw [List.cons_append, encodeElements, encodeElements, ih, List.length_cons, Nat.add_assoc,
      Nat.add_comm 1]
    cases encodeElement map defs e <;> simp

theorem encodeElements_length {index : Nat} {es : List ProgramElement}
    (h : (encodeElements map defs index es).1 = []) :
    (encodeElements map defs index es).2.length = (es.map ProgramElement.length).sum := by
  induction es generalizing index with
  | nil => rfl
  | cons e es ih =>
    rw [encodeElements] at h ⊢
    cases he : encodeElement map defs e with
    | error k => simp [he] at h
    | ok bytes =>
      rw [he] at h
      simp [encodeElement_length he, ih h]

theorem encodeElements_ofInstr (index : Nat) (is : List Instr) :
    encodeElements map defs index (is.map .ofInstr) =
      ([], is.flatMap fun i => encodeWith map i.toRaw) := by
  induction is generalizing index with
  | nil => rfl
  | cons i is ih => rw [List.map_cons, encodeElements, encodeElement_ofInstr, ih, List.flatMap_cons]

theorem assembleWith_eq_ok_iff {es : List ProgramElement} {bytes : List Byte} :
    assembleWith map es = .ok bytes ↔
      encodeElements map (labelOffsets 0 es) 0 es = ([], bytes) := by
  rw [assembleWith]
  rcases encodeElements map (labelOffsets 0 es) 0 es with ⟨_ | ⟨e, errors⟩, bytes'⟩ <;> simp

/-- The error of any one element is among those that stop assembly (R108). -/
theorem assembleWith_eq_error {a b : List ProgramElement} {e : ProgramElement} {k : AsmErrorKind}
    (h : encodeElement map (labelOffsets 0 (a ++ e :: b)) e = .error k) :
    ∃ errors, assembleWith map (a ++ e :: b) = .error errors ∧ ⟨a.length, k⟩ ∈ errors := by
  have hmem : ⟨a.length, k⟩ ∈
      (encodeElements map (labelOffsets 0 (a ++ e :: b)) 0 (a ++ e :: b)).1 := by
    rw [encodeElements_append, encodeElements, h]
    simp
  rw [assembleWith]
  rcases hall : encodeElements map (labelOffsets 0 (a ++ e :: b)) 0 (a ++ e :: b) with
    ⟨errors, bytes⟩
  rw [hall] at hmem
  cases errors with
  | nil => cases hmem
  | cons x xs => exact ⟨_, rfl, hmem⟩

/-- Each element of an assembled program stands at the total length of those before it. -/
theorem exists_bytes_of_assembleWith {a b : List ProgramElement} {e : ProgramElement}
    {bytes : List Byte} (h : assembleWith map (a ++ e :: b) = .ok bytes) : ∃ pre code post,
      bytes = pre ++ code ++ post ∧ pre.length = (a.map ProgramElement.length).sum ∧
        encodeElement map (labelOffsets 0 (a ++ e :: b)) e = .ok code := by
  rw [assembleWith_eq_ok_iff, encodeElements_append, Prod.mk.injEq, List.append_eq_nil_iff] at h
  obtain ⟨⟨ha, hb⟩, rfl⟩ := h
  rw [encodeElements] at hb ⊢
  cases he : encodeElement map (labelOffsets 0 (a ++ e :: b)) e with
  | error k => simp [he] at hb
  | ok code => exact ⟨_, code, _, (List.append_assoc ..).symm, encodeElements_length ha, rfl⟩

end

/-! ## The disassembler (R101) -/

theorem length_le_length_flatMap_encodeWith (map : OpcodeMap) (is : List Instr) :
    is.length ≤ (is.flatMap fun i => encodeWith map i.toRaw).length := by
  induction is with
  | nil => exact Nat.le_refl 0
  | cons i is ih =>
    rw [List.flatMap_cons, List.length_append, List.length_cons, length_encodeWith]
    omega

theorem disassembleFrom_encodeWith {map : OpcodeMap} (hinj : ∀ o o', map o = map o' → o = o')
    (is : List Instr) (pre : List Byte) {fuel : Nat} (hfuel : is.length ≤ fuel) :
    disassembleFrom map (pre ++ is.flatMap fun i => encodeWith map i.toRaw) fuel pre.length =
      .ok is := by
  induction is generalizing pre fuel with
  | nil => unfold disassembleFrom; simp
  | cons i is ih =>
    obtain ⟨fuel, rfl⟩ := Nat.exists_eq_add_of_lt hfuel
    have hcons : pre ++ (i :: is).flatMap (fun i => encodeWith map i.toRaw) =
      pre ++ encodeWith map i.toRaw ++ is.flatMap fun i => encodeWith map i.toRaw := by simp
    have hmore : pre.length ≠ (pre ++ encodeWith map i.toRaw ++
        is.flatMap fun i => encodeWith map i.toRaw).length := by
      simp only [List.length_append, length_encodeWith]
      omega
    rw [hcons, disassembleFrom, if_neg hmore]
    simp only [decodeAtWith_encodeWith hinj]
    rw [← List.length_append, ih _ (by omega)]
    rfl

/-! ## Label references -/

/-- An instruction of an assembled program with a label reference. -/
theorem label_reference_decodes {map : OpcodeMap} (hinj : ∀ o o', map o = map o' → o = o')
    {bytes : List Byte} {op : Op} {operands : List AsmOperand} {name : String}
    {before after : List ProgramElement}
    (h : assembleWith map (before ++ .instr op operands :: after) = .ok bytes)
    (hmem : .label name ∈ operands) : ∃ before' after' rest i,
      before ++ .instr op operands :: after = before' ++ .label name :: after' ∧
      operands = .label name :: rest.map AsmOperand.ofOperand ∧
      Instr.ofRaw ⟨op, .imm (BitVec.ofNat 64 (before'.map ProgramElement.length).sum) :: rest⟩ =
        some i ∧
      decodeAtWith map bytes (before.map ProgramElement.length).sum = .ok (i, i.length) := by
  obtain ⟨pre, _, post, rfl, hpre, hcode⟩ := exists_bytes_of_assembleWith h
  obtain ⟨hfits, i, rfl, hres, rfl⟩ := encodeElement_instr_eq_ok_iff.mp hcode
  obtain ⟨rest, rfl⟩ := operands_of_label_mem hfits hmem
  obtain ⟨v, ws, hlabel, hrest, hi⟩ := resolveAll_cons_eq_ok_iff.mp hres
  rw [resolveAll_ofOperand] at hrest
  cases hrest
  obtain ⟨q, hq, rfl⟩ := resolve_label_eq_ok hlabel
  obtain ⟨before', after', hes, rfl⟩ := exists_label_of_mem_labelOffsets hq
  refine ⟨before', after', rest, i, hes, rfl, ?_, ?_⟩
  · rw [Nat.zero_add] at hi
    rw [← hi]
    exact i.ofRaw_toRaw
  · rw [← hpre, decodeAtWith_encodeWith hinj, length_encodeWith]
    rfl

/-! ## The statements about the assembler (spec/30_encoding.md) -/

/-- Settles O12: an element without labels encodes as its instruction, and the disassembler meets
the encodings one after another. -/
theorem disassembleOfAssemble : Obligations.DisassembleOfAssemble := fun map hinj is =>
  ⟨assembleWith_eq_ok_iff.mpr (encodeElements_ofInstr 0 is),
    disassembleFrom_encodeWith hinj is [] (length_le_length_flatMap_encodeWith map is)⟩

/-- Settles O13: an assembled element stands at the total length of those before it, a repeated name
has two definitions among the label offsets, and an undefined one has none. -/
theorem labelsResolveToOffsets : Obligations.LabelsResolveToOffsets := by
  refine fun map => ⟨fun es bytes h => ⟨?_, ?_⟩, fun a b c name => ?_,
    fun a b op operands name hmem hdef => ?_⟩
  · have hall := assembleWith_eq_ok_iff.mp h
    simpa [hall] using encodeElements_length (congrArg Prod.fst hall)
  · rintro hinj op operands name before after rfl hmem
    exact label_reference_decodes hinj h hmem
  · rw [List.append_assoc, List.cons_append]
    refine assembleWith_eq_error (encodeElement_duplicate ?_)
    simp only [labelOffsets_append, labelOffsets, List.filter_append, List.filter_cons_of_pos,
      beq_self_eq_true, List.length_append, List.length_cons]
    omega
  · have hnone (q : Nat) : (name, q) ∉ labelOffsets 0 (a ++ .instr op operands :: b) := by
      intro hq
      obtain ⟨before, after, hes, -⟩ := exists_label_of_mem_labelOffsets hq
      have hin : ProgramElement.label name ∈ a ++ .instr op operands :: b :=
        hes ▸ List.mem_append_right before List.mem_cons_self
      obtain ha | hb := List.mem_append.mp hin
      · exact hdef (List.mem_append_left b ha)
      · exact hdef (List.mem_append_right a ((List.mem_cons.mp hb).resolve_left nofun))
    obtain ⟨errors, herrors, herror⟩ :=
      assembleWith_eq_error (map := map) (encodeElement_undefined hmem hnone)
    exact ⟨errors, herrors, fun hfits => by rwa [if_pos hfits] at herror⟩

end Sys2Proof.Machine

/-! SUPPORT. Instructions whose whole effect is one register write, said once: what they leave is
`WritesReg`, and two of them with the same slots and operands differ in the written value only. The
statements about addition and subtraction (spec/40_arithmetic.md), and that the suffix of these and of
multiplication (spec/43_muldiv.md R150) changes no result, are read off this. -/

namespace Sys2Proof.Machine

section
variable {i j : Instr} {s : State} {d : Reg}

/-! ## One register write -/

/-- A register in a `D` slot is neither `$S_B` nor `$S_E` once the common faults are past. -/
theorem NoCommonFault.ne_stack (h : NoCommonFault i s) (hd : d ∈ destRegs i) :
    d ≠ .stackBase ∧ d ≠ .stackEnd := by
  obtain ⟨-, hbase, hend, -⟩ := h
  exact ⟨fun hdb => hbase (hdb ▸ hd), fun hde => hend (hde ▸ hd)⟩

theorem exec_writesReg (v : State → Word)
    (hexec : exec i s = execute i s fun t => .ok (t.writeReg d (v t)))
    (hd : d ∈ destRegs i) (h : NoCommonFault i s) :
    ∃ t, exec i s = .next t ∧ WritesReg i s t d (v (s.advance i.length)) := by
  obtain ⟨hbase, hend⟩ := h.ne_stack hd
  exact ⟨_, hexec.trans (execute_of_ok h rfl), writesReg_writeReg hbase hend⟩

/-- The t-forms: the value is made of two source operands. -/
theorem exec_writesReg_sources (f : Word → Word → Word) {a b : Operand}
    (hexec : exec i s = execute i s fun t => .ok (t.writeReg d (f (t.value a) (t.value b))))
    (hd : destRegs i = [d]) (h : NoCommonFault i s) :
    ∃ t, exec i s = .next t ∧ WritesReg i s t d (f (opAt i s a) (opAt i s b)) := by
  rw [← value_advance_eq a, ← value_advance_eq b]
  exact exec_writesReg (fun t => f (t.value a) (t.value b)) hexec (by simp [hd]) h

/-- The i-forms: the value is made of the destination and a source operand. -/
theorem exec_writesReg_inPlace (f : Word → Word → Word) {b : Operand}
    (hexec : exec i s = execute i s fun t => .ok (t.writeReg d (f (t.readReg d) (t.value b))))
    (hd : destRegs i = [d]) (h : NoCommonFault i s) :
    ∃ t, exec i s = .next t ∧ WritesReg i s t d (f (regAt i s d) (opAt i s b)) := by
  rw [← readReg_advance_eq d, ← value_advance_eq b]
  exact exec_writesReg (fun t => f (t.readReg d) (t.value b)) hexec (by simp [hd]) h

/-! ## Instructions with the same slots and operands -/

/-- Two instructions with the same operands in slots of the same kinds, both in place or neither. -/
structure SameSlots (i j : Instr) : Prop where
  operands : i.operands = j.operands
  schema : i.op.schema = j.op.schema
  inPlace : i.op.inPlace = j.op.inPlace

namespace SameSlots

theorem length_eq (h : SameSlots i j) : i.length = j.length := by
  rw [Instr.length, Instr.length, h.operands]

/-- The common faults look at an instruction's slots and operands, not at its mnemonic. -/
theorem commonFault_eq (h : SameSlots i j) : commonFault i s = commonFault j s := by
  have hslots : operandSlots i = operandSlots j := by
    rw [operandSlots, operandSlots, h.operands, h.schema]
  have hreads : readRegs i = readRegs j := by rw [readRegs, readRegs, hslots, h.inPlace]
  simp only [commonFault, uninitRead, hslots, hreads, h.length_eq]

theorem execute_eq (h : SameSlots i j) (effect : State → Except FaultKind State) :
    execute i s effect = execute j s effect := by
  simp only [execute, h.commonFault_eq, h.length_eq]

theorem exec_eq_of_sources (h : SameSlots i j) {f g : Word → Word → Word} {a b : Operand}
    (hfg : f = g)
    (hi : exec i s = execute i s fun t => .ok (t.writeReg d (f (t.value a) (t.value b))))
    (hj : exec j s = execute j s fun t => .ok (t.writeReg d (g (t.value a) (t.value b)))) :
    exec i s = exec j s := by
  rw [hi, hj, hfg, h.execute_eq]

theorem exec_eq_of_inPlace (h : SameSlots i j) {f g : Word → Word → Word} {b : Operand}
    (hfg : f = g)
    (hi : exec i s = execute i s fun t => .ok (t.writeReg d (f (t.readReg d) (t.value b))))
    (hj : exec j s = execute j s fun t => .ok (t.writeReg d (g (t.readReg d) (t.value b)))) :
    exec i s = exec j s := by
  rw [hi, hj, hfg, h.execute_eq]

end SameSlots

end

/-! ## Both readings of a pattern are the pattern modulo `2^64` -/

section
variable (a b : Word)

theorem wrap_s : wrap a.s = a := BitVec.ofInt_toInt

theorem wrap_u : wrap a.u = a := by simp

theorem wrap_add (m n : Int) : wrap (m + n) = wrap m + wrap n := BitVec.ofInt_add m n

theorem wrap_mul (m n : Int) : wrap (m * n) = wrap m * wrap n := BitVec.ofInt_mul m n

theorem wrap_sub (m n : Int) : wrap (m - n) = wrap m - wrap n := by
  rw [Int.sub_eq_add_neg, wrap_add, wrap, wrap, BitVec.ofInt_neg, BitVec.sub_eq_add_neg]

theorem addSigned_eq_add : addSigned a b = a + b := by
  rw [addSigned, wrap_add, wrap_s, wrap_s]

theorem addUnsigned_eq_add : addUnsigned a b = a + b := by
  rw [addUnsigned, wrap_add, wrap_u, wrap_u]

theorem subSigned_eq_sub : subSigned a b = a - b := by rw [subSigned, wrap_sub, wrap_s, wrap_s]

theorem subUnsigned_eq_sub : subUnsigned a b = a - b := by
  rw [subUnsigned, wrap_sub, wrap_u, wrap_u]

theorem mulSigned_eq_mul : mulSigned a b = a * b := by
  rw [mulSigned, wrap_mul, wrap_s, wrap_s]

theorem mulUnsigned_eq_mul : mulUnsigned a b = a * b := by
  rw [mulUnsigned, wrap_mul, wrap_u, wrap_u]

end

/-! ## The statements about addition and subtraction (spec/40_arithmetic.md) -/

/-- Settles O32: each form is one register write of its sum. -/
theorem addForms : Obligations.AddForms :=
  ⟨⟨rfl, rfl, rfl, rfl⟩,
    fun _ _ _ => exec_takesCommonFaults _, fun _ _ _ => exec_takesCommonFaults _,
    fun _ _ => exec_takesCommonFaults _, fun _ _ => exec_takesCommonFaults _,
    fun _ _ _ _ => exec_writesReg_sources addSigned rfl rfl,
    fun _ _ _ _ => exec_writesReg_sources addUnsigned rfl rfl,
    fun _ _ _ => exec_writesReg_inPlace addSigned rfl rfl,
    fun _ _ _ => exec_writesReg_inPlace addUnsigned rfl rfl⟩

/-- Settles O33: each form is one register write of its difference. -/
theorem subtractForms : Obligations.SubtractForms :=
  ⟨⟨rfl, rfl, rfl, rfl⟩,
    fun _ _ _ => exec_takesCommonFaults _, fun _ _ _ => exec_takesCommonFaults _,
    fun _ _ => exec_takesCommonFaults _, fun _ _ => exec_takesCommonFaults _,
    fun _ _ _ _ => exec_writesReg_sources subSigned rfl rfl,
    fun _ _ _ _ => exec_writesReg_sources subUnsigned rfl rfl,
    fun _ _ _ => exec_writesReg_inPlace subSigned rfl rfl,
    fun _ _ _ => exec_writesReg_inPlace subUnsigned rfl rfl⟩

/-- Settles O34: both readings wrap to the modular result, and the two instructions of a pair
have the same slots and operands. -/
theorem signednessChangesNoWrappedResult : Obligations.SignednessChangesNoWrappedResult := by
  have hadd : addSigned = addUnsigned := by
    funext a b; rw [addSigned_eq_add, addUnsigned_eq_add]
  have hsub : subSigned = subUnsigned := by
    funext a b; rw [subSigned_eq_sub, subUnsigned_eq_sub]
  have hmul : mulSigned = mulUnsigned := by
    funext a b; rw [mulSigned_eq_mul, mulUnsigned_eq_mul]
  refine ⟨fun a b => ⟨addSigned_eq_add a b, addUnsigned_eq_add a b, subSigned_eq_sub a b,
    subUnsigned_eq_sub a b, mulSigned_eq_mul a b, mulUnsigned_eq_mul a b⟩, fun d a b s => ?_⟩
  exact ⟨SameSlots.exec_eq_of_sources ⟨rfl, rfl, rfl⟩ hadd rfl rfl,
    SameSlots.exec_eq_of_sources ⟨rfl, rfl, rfl⟩ hsub rfl rfl,
    SameSlots.exec_eq_of_sources ⟨rfl, rfl, rfl⟩ hmul rfl rfl,
    SameSlots.exec_eq_of_inPlace ⟨rfl, rfl, rfl⟩ hadd rfl rfl,
    SameSlots.exec_eq_of_inPlace ⟨rfl, rfl, rfl⟩ hsub rfl rfl,
    SameSlots.exec_eq_of_inPlace ⟨rfl, rfl, rfl⟩ hmul rfl rfl⟩

end Sys2Proof.Machine

/-! SUPPORT. The integer formulas of the three shifts (spec/41_shift.md R130 to R136), a product or
a floor quotient by a power of two, are the shifts of the bit vector. The statements about the shift
instructions are read off this and the rules for one register write. -/

namespace Sys2Proof.Machine

/-! ## A power of two as a shift of the pattern -/

section
variable (a b : Word)

theorem shiftLeft_eq_hShiftLeft : shiftLeft a b = a <<< (b.toNat % 64) := by
  have hnat : a.u * 2 ^ shiftAmount b = ((a.toNat <<< shiftAmount b : Nat) : Int) := by
    rw [Nat.shiftLeft_eq]; push_cast; rfl
  rw [shiftLeft, wrap, hnat, BitVec.ofInt_natCast]
  rfl

theorem shiftRightLogical_eq_hShiftRight :
    shiftRightLogical a b = a >>> (b.toNat % 64) := by
  have hnat : a.u / 2 ^ shiftAmount b = ((a >>> shiftAmount b).toNat : Int) := by
    rw [BitVec.toNat_ushiftRight, Nat.shiftRight_eq_div_pow]; push_cast; rfl
  rw [shiftRightLogical, hnat]
  exact wrap_u _

/-- The divisor is positive, so the floor quotient is the one that an arithmetic shift takes. -/
theorem shiftRightArith_eq_sshiftRight :
    shiftRightArith a b = a.sshiftRight (b.toNat % 64) := by
  have hint : a.s.fdiv (2 ^ shiftAmount b) = a.s >>> shiftAmount b := by
    rw [Int.fdiv_eq_ediv_of_nonneg _ (by positivity), Int.shiftRight_eq_div_pow]; push_cast; rfl
  rw [shiftRightArith, hint]
  rfl

end

/-! ## The statements about the shifts (spec/41_shift.md) -/

/-- Settles O35: each form is one register write of the left shift. -/
theorem shiftLeftForms : Obligations.ShiftLeftForms := by
  simp only [Obligations.ShiftLeftForms, ← shiftLeft_eq_hShiftLeft]
  exact ⟨⟨rfl, rfl⟩, fun _ _ _ => exec_takesCommonFaults _, fun _ _ => exec_takesCommonFaults _,
    fun _ _ _ _ => exec_writesReg_sources shiftLeft rfl rfl,
    fun _ _ _ => exec_writesReg_inPlace shiftLeft rfl rfl⟩

/-- Settles O36: each form is one register write of the logical right shift. -/
theorem shiftRightLogicalForms : Obligations.ShiftRightLogicalForms := by
  simp only [Obligations.ShiftRightLogicalForms, ← shiftRightLogical_eq_hShiftRight]
  exact ⟨⟨rfl, rfl⟩, fun _ _ _ => exec_takesCommonFaults _, fun _ _ => exec_takesCommonFaults _,
    fun _ _ _ _ => exec_writesReg_sources shiftRightLogical rfl rfl,
    fun _ _ _ => exec_writesReg_inPlace shiftRightLogical rfl rfl⟩

/-- Settles O37: each form is one register write of the arithmetic right shift. -/
theorem shiftRightArithmeticForms : Obligations.ShiftRightArithmeticForms := by
  simp only [Obligations.ShiftRightArithmeticForms, ← shiftRightArith_eq_sshiftRight]
  exact ⟨⟨rfl, rfl⟩, fun _ _ _ => exec_takesCommonFaults _, fun _ _ => exec_takesCommonFaults _,
    fun _ _ _ _ => exec_writesReg_sources shiftRightArith rfl rfl,
    fun _ _ _ => exec_writesReg_inPlace shiftRightArith rfl rfl⟩

end Sys2Proof.Machine

/-! SUPPORT. Bit logic (spec/42_bitlogic.md R140 to R148): the two-operand forms are the register writes
of the addition's t-forms and i-forms, and the two forms of not are one register write of one source,
which `noi` takes from its destination. -/

namespace Sys2Proof.Machine

/-! ## One register write of one source -/

/-- The value is made of one source operand. -/
theorem exec_writesReg_source {i : Instr} {s : State} {d : Reg} (f : Word → Word) {a : Operand}
    (hexec : exec i s = execute i s fun t => .ok (t.writeReg d (f (t.value a))))
    (hd : destRegs i = [d]) (h : NoCommonFault i s) :
    ∃ t, exec i s = .next t ∧ WritesReg i s t d (f (opAt i s a)) := by
  rw [← value_advance_eq a]
  exact exec_writesReg (fun t => f (t.value a)) hexec (by simp [hd]) h

/-! ## The statements about bit logic (spec/42_bitlogic.md) -/

/-- Settles O38: each form is one register write of its bitwise result. -/
theorem bitLogicForms : Obligations.BitLogicForms :=
  ⟨⟨rfl, rfl, rfl, rfl, rfl, rfl⟩,
    fun _ _ _ => exec_takesCommonFaults _, fun _ _ _ => exec_takesCommonFaults _,
    fun _ _ _ => exec_takesCommonFaults _, fun _ _ => exec_takesCommonFaults _,
    fun _ _ => exec_takesCommonFaults _, fun _ _ => exec_takesCommonFaults _,
    fun _ _ _ _ => exec_writesReg_sources (· &&& ·) rfl rfl,
    fun _ _ _ _ => exec_writesReg_sources (· ||| ·) rfl rfl,
    fun _ _ _ _ => exec_writesReg_sources (· ^^^ ·) rfl rfl,
    fun _ _ _ => exec_writesReg_inPlace (· &&& ·) rfl rfl,
    fun _ _ _ => exec_writesReg_inPlace (· ||| ·) rfl rfl,
    fun _ _ _ => exec_writesReg_inPlace (· ^^^ ·) rfl rfl⟩

/-- Settles O39: both forms write the complement of one source, and the source of `noi` is the
register it writes. -/
theorem notForms : Obligations.NotForms :=
  ⟨⟨rfl, rfl⟩, fun _ _ => exec_takesCommonFaults _, fun _ => exec_takesCommonFaults _,
    fun _ _ _ => exec_writesReg_source (~~~·) rfl rfl,
    fun d _ => exec_writesReg_source (~~~·) (a := .reg d) rfl rfl⟩

end Sys2Proof.Machine

/-! SUPPORT. Multiplication and division (spec/43_muldiv.md). A product is one register write. Either
division takes a fault of its own or writes two registers, and what it writes are the quotient and the
remainder of R151. -/

namespace Sys2Proof.Machine

/-! ## Two register writes -/

/-- `t` is `s` after the instruction wrote `q` to `dq`, then `r` to `dr`, and went on: with `dq = dr`
the second write stands, a write to `$Z` is discarded, a write to `$I` is a jump. -/
def WritesDivision (i : Instr) (s t : State) (dq dr : Reg) (q r : Word) : Prop :=
  (dr ≠ .zero → t.readReg dr = r ∧ t.defined dr = true) ∧
    (dq ≠ .zero → t.defined dq = true ∧ (dq ≠ dr → t.readReg dq = q)) ∧
    t.readReg .zero = 0 ∧ RegsKept [dq, dr, .instruction] s t ∧
    (dq ≠ .instruction → dr ≠ .instruction → t.pc = npc i s) ∧ MemKept s t ∧ RunKept s t

section
variable {i : Instr} {s t : State} {dq dr : Reg} {q r : Word}

theorem WritesReg.writesDivision (h : WritesReg i s t dq q) (hb : dr ≠ .stackBase)
    (he : dr ≠ .stackEnd) : WritesDivision i s (t.writeReg dr r) dq dr q r := by
  obtain ⟨hdq, -, hregs, hpc, ⟨hmem, -⟩, hrun⟩ := h
  refine ⟨fun hz => ⟨State.readReg_writeReg_self t dr r hz hb he, ?_⟩,
    fun hz => ⟨?_, fun hne => ?_⟩, rfl, fun p hp => ?_, fun hq hr => ?_, memKept_of_eq ?_, ?_⟩
  · simp [State.defined_writeReg]
  · simp [State.defined_writeReg, (hdq hz).2]
  · rw [State.readReg_writeReg_of_ne t dr dq r hne, (hdq hz).1]
  · obtain ⟨hpq, hpr, hpi⟩ : p ≠ dq ∧ p ≠ dr ∧ p ≠ .instruction := by simpa using hp
    obtain ⟨hread, hdef⟩ := hregs p (by simp [hpq, hpi])
    exact ⟨(State.readReg_writeReg_of_ne t dr p r hpr).trans hread,
      by simp [State.defined_writeReg, hpr, hdef]⟩
  · rw [State.writeReg_pc, if_neg hr, hpc hq]
  · rw [State.writeReg_mem, hmem]
  · simpa [RunKept, ParamsKept] using hrun

/-! ## One division -/

section
variable {divide : Word → Word → Except FaultKind (Word × Word)} {n m : Operand}
  (hexec : exec i s = execute i s fun t =>
    (divide (t.value n) (t.value m)).map fun qr => t.writeDivision dq dr qr)
include hexec

theorem exec_writesDivision (hd : destRegs i = [dq, dr]) (h : NoCommonFault i s)
    (hdiv : divide (opAt i s n) (opAt i s m) = .ok (q, r)) :
    ∃ t, exec i s = .next t ∧ WritesDivision i s t dq dr q r := by
  obtain ⟨hqb, hqe⟩ := h.ne_stack (d := dq) (by simp [hd])
  obtain ⟨hrb, hre⟩ := h.ne_stack (d := dr) (by simp [hd])
  refine ⟨_, hexec.trans (execute_of_ok h ?_), (writesReg_writeReg hqb hqe).writesDivision hrb hre⟩
  rw [value_advance_eq, value_advance_eq, hdiv]
  rfl

theorem exec_divisionFault {k : FaultKind} (h : NoCommonFault i s)
    (hdiv : divide (opAt i s n) (opAt i s m) = .error k) :
    exec i s = .next (faultedAs s k) := by
  refine hexec.trans (execute_of_error h ?_)
  rw [value_advance_eq, value_advance_eq, hdiv]
  rfl

end

end

/-! ## What each division answers (R151) -/

section
variable {n m : Word}

theorem divSigned_eq_ok (hm : m.s ≠ 0) (ho : ¬(n.s = -2 ^ 63 ∧ m.s = -1)) :
    divSigned n m = .ok (wrap (n.s.tdiv m.s), wrap (n.s.tmod m.s)) := by
  rw [divSigned, if_neg hm, if_neg ho, Int.tmod_def, Int.mul_comm m.s]

theorem divSigned_of_zero (hm : m.s = 0) : divSigned n m = .error .divideByZero := if_pos hm

theorem divSigned_of_overflow (hn : n.s = -2 ^ 63) (hm : m.s = -1) :
    divSigned n m = .error .divideOverflow := by
  rw [divSigned, if_neg (by omega), if_pos ⟨hn, hm⟩]

theorem divUnsigned_eq_ok (hm : m.u ≠ 0) :
    divUnsigned n m = .ok (wrap (n.u / m.u), wrap (n.u % m.u)) := if_neg hm

theorem divUnsigned_of_zero (hm : m.u = 0) : divUnsigned n m = .error .divideByZero := if_pos hm

end

/-! ## The truncated remainder -/

theorem sign_tmod_of_ne_zero {x y : Int} (h : x.tmod y ≠ 0) : (x.tmod y).sign = x.sign := by
  rw [Int.sign_tmod, if_neg fun hdvd => h (Int.tmod_eq_zero_of_dvd hdvd)]

theorem abs_tmod_lt_abs (x : Int) {y : Int} (hy : y ≠ 0) : |x.tmod y| < |y| := by
  have hlt : (x.tmod y).natAbs < y.natAbs := by
    rw [Int.natAbs_tmod]; exact Nat.mod_lt _ (Int.natAbs_pos.mpr hy)
  rw [Int.abs_eq_natAbs, Int.abs_eq_natAbs]
  exact_mod_cast hlt

/-! ## The statements about multiplication and division (spec/43_muldiv.md) -/

/-- Settles O40: each form is one register write of its product. -/
theorem multiplyForms : Obligations.MultiplyForms :=
  ⟨⟨rfl, rfl, rfl, rfl⟩,
    fun _ _ _ => exec_takesCommonFaults _, fun _ _ _ => exec_takesCommonFaults _,
    fun _ _ => exec_takesCommonFaults _, fun _ _ => exec_takesCommonFaults _,
    fun _ _ _ _ => exec_writesReg_sources mulSigned rfl rfl,
    fun _ _ _ _ => exec_writesReg_sources mulUnsigned rfl rfl,
    fun _ _ _ => exec_writesReg_inPlace mulSigned rfl rfl,
    fun _ _ _ => exec_writesReg_inPlace mulUnsigned rfl rfl⟩

/-- Settles O41: the quotient truncated toward zero and its remainder are the integers asked for, and
the two faults are the two divisions that have no such quotient. -/
theorem signedDivision : Obligations.SignedDivision := by
  refine ⟨rfl, fun _ _ _ _ => exec_takesCommonFaults _, fun dq dr n m s h hm ho => ?_,
    fun _ _ _ _ _ h hm => exec_divisionFault rfl h (divSigned_of_zero hm),
    fun _ _ _ _ _ h hn hm => exec_divisionFault rfl h (divSigned_of_overflow hn hm)⟩
  obtain ⟨t, hexec, hwrites⟩ := exec_writesDivision rfl rfl h (divSigned_eq_ok hm ho)
  exact ⟨t, _, _, hexec, (Int.tdiv_mul_add_tmod _ _).symm, abs_tmod_lt_abs _ hm,
    sign_tmod_of_ne_zero, hwrites⟩

/-- Settles O42: `u(m)` is positive, so the integer quotient and remainder are the ones asked for. -/
theorem unsignedDivision : Obligations.UnsignedDivision := by
  refine ⟨rfl, fun _ _ _ _ => exec_takesCommonFaults _, fun dq dr n m s h hm => ?_,
    fun _ _ _ _ _ h hm => exec_divisionFault rfl h (divUnsigned_of_zero hm)⟩
  have hpos : 0 < (opAt (.divtu_e dq dr n m) s m).u := lt_of_le_of_ne (Int.natCast_nonneg _) hm.symm
  obtain ⟨t, hexec, hwrites⟩ := exec_writesDivision rfl rfl h (divUnsigned_eq_ok hm)
  exact ⟨t, _, _, hexec, (Int.ediv_mul_add_emod _ _).symm, Int.emod_nonneg _ hm,
    Int.emod_lt_of_pos _ hpos, hwrites⟩

end Sys2Proof.Machine

/-! SUPPORT. Control flow (spec/44_control.md R160 to R174). Every jump is one transfer, and the jumps of
one statement differ in the relation they decide. `cal` and `ret` are a transfer joined to a push or to a
pop; what those two leave of a state is said here for any instruction that pushes or pops once. -/

namespace Sys2Proof.Machine

section
variable {i : Instr} {s t : State} {m : Memory}

/-! ## The effects of the unconditional transfers -/

theorem exec_jmp (target : Word) :
    exec (.jmp target) s = execute (.jmp target) s fun t => .ok (t.jumpTo target) := rfl

theorem exec_cal (target : Word) :
    exec (.cal target) s = execute (.cal target) s fun t =>
      (t.mem.push t.pc).map fun mem => (t.withMem mem).jumpTo target := rfl

theorem exec_ret (v : Operand) :
    exec (.ret v) s = execute (.ret v) s fun t =>
      t.mem.pop.map fun (ra, mem) => ((t.withMem mem).writeReg .ret (t.value v)).jumpTo ra := rfl

/-- The mode byte follows the three bytes of the identifier (R90). -/
theorem encode_modeByte (i : Instr) :
    (encode i)[3]? = some (modeEncode (i.operands.map Operand.isImm)) := rfl

/-- One immediate, as a target always is, sets bit 7 alone (R75). -/
theorem encode_modeByte_of_imm (h : i.operands.map Operand.isImm = [true]) :
    (encode i)[3]? = some 0x80 := by
  rw [encode_modeByte, h]
  decide

/-! ## Transfers -/

/-- The target is computed on the state whose `pc` is `npc`. -/
theorem exec_transfers (target : State → Word)
    (hexec : exec i s = execute i s fun t => .ok (t.jumpTo (target t))) (h : NoCommonFault i s) :
    ∃ t, exec i s = .next t ∧ Transfers s t (target (s.advance i.length)) :=
  ⟨_, hexec.trans (execute_of_ok h rfl), transfers_jumpTo _⟩

/-- A conditional transfer that is not taken goes on where the `pc` already is. -/
theorem State.jumpIf_eq_jumpTo (rel : Relation) (target a b : Word) :
    s.jumpIf rel target a b = s.jumpTo (if rel.holds a b then target else s.pc) := by
  unfold State.jumpIf
  split <;> rfl

/-- A conditional jump whose relation decides `p` is one transfer, to the target or to `npc` (R161). -/
theorem exec_transfersIf {rel : Relation} {target : Word} {a b : Operand} {p : Prop} [Decidable p]
    (hrel : rel.holds (opAt i s a) (opAt i s b) = true ↔ p)
    (hexec : exec i s = execute i s fun t => .ok (t.jumpIf rel target (t.value a) (t.value b)))
    (h : NoCommonFault i s) :
    ∃ t, exec i s = .next t ∧ Transfers s t (if p then target else npc i s) := by
  simp only [State.jumpIf_eq_jumpTo] at hexec
  have htransfers := exec_transfers
    (fun t => if rel.holds (t.value a) (t.value b) then target else t.pc) hexec h
  simpa only [value_advance_eq, advance_pc_eq, hrel] using htransfers

/-! ## What the relations decide (R161) -/

section
variable {a b : Word}

theorem Relation.holds_eq : Relation.holds .eq a b = true ↔ a = b := decide_eq_true_iff

theorem Relation.holds_ne : Relation.holds .ne a b = true ↔ a ≠ b := decide_eq_true_iff

theorem Relation.holds_gts : Relation.holds .gts a b = true ↔ a.toInt > b.toInt := decide_eq_true_iff

theorem Relation.holds_ges : Relation.holds .ges a b = true ↔ a.toInt ≥ b.toInt := decide_eq_true_iff

theorem Relation.holds_lts : Relation.holds .lts a b = true ↔ a.toInt < b.toInt := decide_eq_true_iff

theorem Relation.holds_les : Relation.holds .les a b = true ↔ a.toInt ≤ b.toInt := decide_eq_true_iff

theorem Relation.holds_gtu : Relation.holds .gtu a b = true ↔ a.toNat > b.toNat :=
  decide_eq_true_iff.trans Int.ofNat_lt

theorem Relation.holds_geu : Relation.holds .geu a b = true ↔ a.toNat ≥ b.toNat :=
  decide_eq_true_iff.trans Int.ofNat_le

theorem Relation.holds_ltu : Relation.holds .ltu a b = true ↔ a.toNat < b.toNat :=
  decide_eq_true_iff.trans Int.ofNat_lt

theorem Relation.holds_leu : Relation.holds .leu a b = true ↔ a.toNat ≤ b.toNat :=
  decide_eq_true_iff.trans Int.ofNat_le

end

/-! ## What another stack keeps -/

theorem regsKept_withMem_advance (n : Nat) (hstart : m.start = s.mem.start) :
    RegsKept [.stackEnd, .instruction] s ((s.advance n).withMem m) := by
  refine fun r hr => ⟨?_, rfl⟩
  obtain ⟨hend, hpc⟩ : r ≠ .stackEnd ∧ r ≠ .instruction := by simpa using hr
  by_cases hbase : r = .stackBase
  · rw [hbase]; exact hstart
  · rw [State.readReg_withMem _ _ _ hbase hend, State.readReg_advance _ _ _ hpc]

theorem regsKept_jumpTo {changed : List Reg} (h : RegsKept changed s t) (hi : .instruction ∈ changed)
    (a : Word) : RegsKept changed s (t.jumpTo a) := by
  intro r hr
  obtain ⟨hread, hdef⟩ := h r hr
  have hpc : r ≠ .instruction := fun hri => hr (hri ▸ hi)
  exact ⟨(State.readReg_jumpTo _ _ _ hpc).trans hread, hdef⟩

theorem regsKept_writeReg {changed : List Reg} (h : RegsKept changed s t) (d : Reg) (v : Word) :
    RegsKept (d :: changed) s (t.writeReg d v) := by
  intro r hr
  obtain ⟨hd, hr⟩ : r ≠ d ∧ r ∉ changed := by simpa using hr
  obtain ⟨hread, hdef⟩ := h r hr
  exact ⟨(State.readReg_writeReg_of_ne _ _ _ _ hd).trans hread,
    by simp [State.defined_writeReg, hd, hdef]⟩

/-- The bytes of a state are those of its stack. -/
theorem byteAt_of_mem_eq (h : t.mem = m) (a : Word) : byteAt t a = (m.readByte a).toOption := by
  rw [byteAt, h]

/-! ## One push -/

/-- `t` is `s` after `v` was pushed: the bytes of `v` stand at the new stack end, and but for the stack
end and the `pc` nothing else changed. -/
def PushesWord (s t : State) (v : Word) : Prop :=
  RegsKept [.stackEnd, .instruction] s t ∧
    t.mem.words = v :: s.mem.words ∧ t.mem.stackEnd = s.mem.stackEnd - 8 ∧
    (∀ j < 8, ∀ a : Word, a.toNat = t.mem.stackEnd.toNat + j → byteAt t a = some (byteOf v j)) ∧
    (∀ a, ¬ InBytes t.mem.stackEnd 8 a → byteAt t a = byteAt s a) ∧ RunKept s t

theorem pushesWord_of_push {v : Word} (hm : s.mem.wf) (hp : s.mem.push v = .ok m) (n : Nat)
    (a : Word) : PushesWord s (((s.advance n).withMem m).jumpTo a) v := by
  have hbyte (c : Word) : byteAt (((s.advance n).withMem m).jumpTo a) c = (m.readByte c).toOption :=
    byteAt_of_mem_eq rfl c
  have hm' := Memory.wf_push hm hp
  obtain ⟨-, hpushed⟩ := Memory.push_eq_ok hp
  have hstart : m.start = s.mem.start := by rw [hpushed]
  have hcapacity : m.capacity = s.mem.capacity := by rw [hpushed]
  refine ⟨regsKept_jumpTo (regsKept_withMem_advance n hstart) (by simp) a, by simp [hpushed],
    by simp [hpushed], fun j hj c hc => ?_, fun c hc => ?_,
    rfl, rfl, rfl, rfl, rfl, hstart, hcapacity, rfl⟩
  · rw [hbyte, (Memory.locates_push hp hj hc).readByte hm', wordByte_eq_byteOf]
    rfl
  · rw [hbyte, Memory.readByte_push_of_not_inBytes hm hp hc, byteAt]

/-! ## One pop -/

/-- `t` is `s` after a pop to the words `ws` and a write to `d`: the bytes of the popped word are no
longer contained, and but for `d`, the stack end and the `pc` nothing else changed. -/
def PopsWord (s t : State) (d : Reg) (ws : List Word) : Prop :=
  RegsKept [d, .stackEnd, .instruction] s t ∧
    t.mem.words = ws ∧ t.mem.stackEnd = s.mem.stackEnd + 8 ∧
    (∀ a, byteAt t a = if InBytes s.mem.stackEnd 8 a then none else byteAt s a) ∧ RunKept s t

theorem popsWord_of_pop {w : Word} (hm : s.mem.wf) (hp : s.mem.pop = .ok (w, m)) (n : Nat) (d : Reg)
    (v : Word) : PopsWord s (((s.advance n).withMem m).writeReg d v) d m.words := by
  obtain ⟨-, hpopped⟩ := Memory.pop_eq_ok hp
  have hstart : m.start = s.mem.start := by rw [hpopped]
  have hcapacity : m.capacity = s.mem.capacity := by rw [hpopped]
  have hend : m.stackEnd = s.mem.stackEnd + 8 := by rw [hpopped]
  refine ⟨regsKept_writeReg (regsKept_withMem_advance n hstart) d v, by simp, by simp [hend],
    fun a => ?_, by simp [RunKept, ParamsKept, hstart, hcapacity]⟩
  rw [byteAt_of_mem_eq (State.writeReg_mem _ d v), State.withMem_mem]
  split
  case isTrue ha => rw [Memory.readByte_pop_of_inBytes hm hp ha]; rfl
  case isFalse ha => rw [Memory.readByte_pop_of_not_inBytes hm hp ha, byteAt]

theorem PopsWord.jumpTo {d : Reg} {ws : List Word} (h : PopsWord s t d ws) (a : Word) :
    PopsWord s (t.jumpTo a) d ws := by
  obtain ⟨hregs, hrest⟩ := h
  exact ⟨regsKept_jumpTo hregs (by simp) a, hrest⟩

end

/-! ## The statements about control flow (spec/44_control.md) -/

/-- Settles O43: a jump is one transfer, to its own offset it is the identity, and at PLEN there is
nothing to decode. -/
theorem unconditionalJump : Obligations.UnconditionalJump := by
  have hjmp (target : Word) (s : State) (h : NoCommonFault (.jmp target) s) :=
    exec_transfers (fun _ => target) rfl h
  refine ⟨rfl, fun _ => exec_takesCommonFaults _, hjmp, fun _ => encode_modeByte_of_imm rfl,
    fun s h => (exec_jmp s.pc).trans (execute_of_ok h rfl), fun target s t hs h hlen hexec => ?_⟩
  obtain ⟨t', hexec', hpc, -, -, hstatus, -, -, hprogram, -⟩ := hjmp target s h
  obtain rfl : t' = t := Host.Outcome.next.inj (hexec'.symm.trans hexec)
  refine step_of_fetch_eq_error (hstatus.trans hs) (decodeAtWith_of_length_le _ ?_)
  rw [hprogram, hpc, hlen]

/-- Settles O44: each jump is one conditional transfer, on the relation of its mnemonic. -/
theorem equalityAndSignedJumps : Obligations.EqualityAndSignedJumps :=
  ⟨⟨rfl, rfl, rfl, rfl, rfl, rfl⟩,
    fun _ _ _ => exec_takesCommonFaults _, fun _ _ _ => exec_takesCommonFaults _,
    fun _ _ _ => exec_takesCommonFaults _, fun _ _ _ => exec_takesCommonFaults _,
    fun _ _ _ => exec_takesCommonFaults _, fun _ _ _ => exec_takesCommonFaults _,
    fun _ _ _ _ => exec_transfersIf Relation.holds_eq rfl,
    fun _ _ _ _ => exec_transfersIf Relation.holds_ne rfl,
    fun _ _ _ _ => exec_transfersIf Relation.holds_gts rfl,
    fun _ _ _ _ => exec_transfersIf Relation.holds_ges rfl,
    fun _ _ _ _ => exec_transfersIf Relation.holds_lts rfl,
    fun _ _ _ _ => exec_transfersIf Relation.holds_les rfl⟩

/-- Settles O45: each jump is one conditional transfer, on the unsigned relation of its mnemonic. -/
theorem unsignedJumps : Obligations.UnsignedJumps :=
  ⟨⟨rfl, rfl, rfl, rfl⟩,
    fun _ _ _ => exec_takesCommonFaults _, fun _ _ _ => exec_takesCommonFaults _,
    fun _ _ _ => exec_takesCommonFaults _, fun _ _ _ => exec_takesCommonFaults _,
    fun _ _ _ _ => exec_transfersIf Relation.holds_gtu rfl,
    fun _ _ _ _ => exec_transfersIf Relation.holds_geu rfl,
    fun _ _ _ _ => exec_transfersIf Relation.holds_ltu rfl,
    fun _ _ _ _ => exec_transfersIf Relation.holds_leu rfl⟩

/-- Settles O46: with room the effect is one push of `npc` and a transfer, and a full stack is the
effect's own fault. -/
theorem callPushesTheReturnAddress : Obligations.CallPushesTheReturnAddress := by
  refine ⟨⟨rfl, fun _ => encode_modeByte_of_imm rfl⟩, fun _ => exec_takesCommonFaults _,
    fun target s h hm hroom => ?_,
    fun target s h hfull => (exec_cal target).trans <| execute_of_error h ?_⟩
  · have hp := Memory.push_of_room (v := npc (.cal target) s) hroom
    refine ⟨_, (exec_cal target).trans (execute_of_ok h ?_), rfl,
      pushesWord_of_push hm hp (Instr.cal target).length target⟩
    rw [State.advance_mem, advance_pc_eq, hp]
    rfl
  · rw [State.advance_mem, Memory.push_of_full hfull]
    rfl

/-- Settles O47: with a word the effect is one pop, a write to `$R` and a transfer, and an empty stack
is the effect's own fault. -/
theorem returnPopsTheReturnAddress : Obligations.ReturnPopsTheReturnAddress := by
  refine ⟨rfl, fun _ => exec_takesCommonFaults _, fun v s w ws h hm hw => ?_,
    fun v s h hnil => (exec_ret v).trans <| execute_of_error h ?_⟩
  · have hp := Memory.pop_of_cons hw
    refine ⟨_, (exec_ret v).trans (execute_of_ok h ?_), rfl, rfl, rfl,
      (popsWord_of_pop hm hp (Instr.ret v).length .ret (opAt (.ret v) s v)).jumpTo w⟩
    rw [State.advance_mem, value_advance_eq, hp]
    rfl
  · rw [State.advance_mem, Memory.pop_of_nil hnil]
    rfl

end Sys2Proof.Machine

/-! SUPPORT. Memory operations (spec/45_memory_ops.md R180 to R191). `mov` is the register write of one
source. Every other meaning makes one memory operation that can fault and commits what it makes of the
answer; the plain and the offset form of a load or a store differ in the address they compute. -/

namespace Sys2Proof.Machine

/-- Registers alone clear every bit of the mode byte (R75, R78). -/
theorem modeEncodeFrom_replicate_false (slot n : Nat) :
    modeEncodeFrom slot (List.replicate n false) = 0 := by
  induction n generalizing slot with
  | zero => rfl
  | succ n ih => simp [List.replicate_succ, modeEncodeFrom, modeBit, ih]

theorem encode_modeByte_of_regs {i : Instr} (n : Nat)
    (h : i.operands.map Operand.isImm = List.replicate n false) :
    (encode i)[3]? = some 0x00 := by
  rw [encode_modeByte, h, modeEncode, modeEncodeFrom_replicate_false]

/-! ## Bytes of a value -/

theorem lowByte_eq_byteOf (v : Word) : lowByte v = byteOf v 0 := by
  apply BitVec.eq_of_toNat_eq
  simp [lowByte, byteOf]

theorem zeroExtend_wordByte (w : Word) (j : Nat) :
    zeroExtend (wordByte w j) = BitVec.ofNat 64 (w.toNat / 256 ^ j % 256) := by
  apply BitVec.eq_of_toNat_eq
  simp [zeroExtend, wordByte_eq_byteOf, byteOf]

/-! ## What an access answers -/

section
variable {m : Memory} {a : Word}

theorem Memory.readWord_of_aligned (hm : m.wf) (ha : m.contains a = true)
    (h0 : m.byteOffset a = 0) :
    ∃ w, m.words[m.wordIndex a]? = some w ∧ m.readWord a = .ok w := by
  obtain ⟨k, w, h⟩ := exists_locates_aligned hm ha h0
  exact ⟨w, h.wordIndex ▸ h.word, h.readWord hm⟩

theorem Memory.readByte_of_contains (hm : m.wf) (ha : m.contains a = true) :
    ∃ w, m.words[m.wordIndex a]? = some w ∧
      m.readByte a = .ok (wordByte w (m.byteOffset a)) := by
  obtain ⟨k, j, w, h⟩ := exists_locates hm ha
  exact ⟨w, h.wordIndex ▸ h.word, h.byteOffset.symm ▸ h.readByte hm⟩

/-- The faults of a word access at `a` (spec/20_memory.md R55, R57): contained first, then aligned. -/
def Memory.WordFaults {α : Type} (m : Memory) (a : Word) (x : Except FaultKind α) : Prop :=
  (m.contains a = false → x = .error (.memoryOutOfBounds a)) ∧
    (m.wf → m.contains a = true → m.byteOffset a ≠ 0 → x = .error (.misalignedWordAccess a))

theorem Memory.wordFaults_readWord (m : Memory) (a : Word) : m.WordFaults a (m.readWord a) := by
  refine ⟨readWord_of_not_contains, fun hm ha h0 => ?_⟩
  obtain ⟨k, j, w, h⟩ := exists_locates hm ha
  rw [h.readWord hm, if_neg (h.byteOffset ▸ h0)]

theorem Memory.wordFaults_writeWord (m : Memory) (a v : Word) :
    m.WordFaults a (m.writeWord a v) := by
  refine ⟨fun ha => writeWord_of_not_contains ha v, fun hm ha h0 => ?_⟩
  obtain ⟨-, -, hmisaligned, -⟩ := memoryWrites m a hm
  exact hmisaligned ha h0 v

end

/-! ## One operation that can fault -/

/-- The instruction takes the faults of a word access at `a`. -/
def TakesWordFaults (i : Instr) (s : State) (a : Word) : Prop :=
  (s.mem.contains a = false → exec i s = .next (faultedAs s (.memoryOutOfBounds a))) ∧
    (s.mem.wf → s.mem.contains a = true → s.mem.byteOffset a ≠ 0 →
      exec i s = .next (faultedAs s (.misalignedWordAccess a)))

section
variable {i : Instr} {s : State} {α : Type} {op : State → Except FaultKind α}
  {commit : State → α → State}
  (hexec : exec i s = execute i s fun t => (op t).map (commit t)) (h : NoCommonFault i s)
include hexec h

theorem exec_of_op_ok {x : α} (hop : op (s.advance i.length) = .ok x) :
    exec i s = .next (commit (s.advance i.length) x) :=
  hexec.trans (execute_of_ok h (by rw [hop]; rfl))

theorem exec_of_op_error {k : FaultKind} (hop : op (s.advance i.length) = .error k) :
    exec i s = .next (faultedAs s k) :=
  hexec.trans (execute_of_error h (by rw [hop]; rfl))

theorem exec_wordFaults {a : Word} (hop : s.mem.WordFaults a (op (s.advance i.length))) :
    TakesWordFaults i s a := by
  obtain ⟨hout, hmisaligned⟩ := hop
  exact ⟨fun ha => exec_of_op_error hexec h (hout ha),
    fun hm ha h0 => exec_of_op_error hexec h (hmisaligned hm ha h0)⟩

end

/-! ## Loads

`addr` is the address as the meaning computes it, on the state whose `pc` is `npc`; `a` is that address
in the terms of the statements. -/

/-- The address of an offset access as its meaning computes it (R180). -/
def State.offsetAddress (t : State) (base : Reg) (off : Operand) : Word :=
  Machine.offsetAddress (t.readReg base) (t.value off)

theorem offsetAddress_advance_eq {i : Instr} {s : State} (base : Reg) (off : Operand) :
    (s.advance i.length).offsetAddress base off = offsetAt i s base off := by
  rw [State.offsetAddress, readReg_advance_eq, value_advance_eq, offsetAt]

section
variable {i : Instr} {s : State} {d : Reg} {a : Word} (addr : State → Word)
  (haddr : addr (s.advance i.length) = a)
include haddr

section
variable (hexec : exec i s = execute i s fun t =>
    (t.mem.readWord (addr t)).map fun w => t.writeReg d w)
  (h : NoCommonFault i s)
include hexec h

theorem exec_loadsWord (hd : destRegs i = [d]) (hm : s.mem.wf) (ha : s.mem.contains a = true)
    (h0 : s.mem.byteOffset a = 0) :
    ∃ t w, s.mem.words[s.mem.wordIndex a]? = some w ∧ exec i s = .next t ∧ WritesReg i s t d w := by
  obtain ⟨hb, he⟩ := h.ne_stack (d := d) (by simp [hd])
  obtain ⟨w, hw, hread⟩ := Memory.readWord_of_aligned hm ha h0
  exact ⟨_, w, hw, exec_of_op_ok hexec h (by rw [haddr]; exact hread), writesReg_writeReg hb he⟩

theorem exec_loadWord_faults : TakesWordFaults i s a :=
  exec_wordFaults hexec h (by rw [haddr]; exact s.mem.wordFaults_readWord a)

end

section
variable (hexec : exec i s = execute i s fun t =>
    (t.mem.readByte (addr t)).map fun b => t.writeReg d (zeroExtend b))
  (h : NoCommonFault i s)
include hexec h

theorem exec_loadsByte (hd : destRegs i = [d]) (hm : s.mem.wf) (ha : s.mem.contains a = true) :
    ∃ t w, s.mem.words[s.mem.wordIndex a]? = some w ∧ exec i s = .next t ∧
      WritesReg i s t d (BitVec.ofNat 64 (w.toNat / 256 ^ s.mem.byteOffset a % 256)) := by
  obtain ⟨hb, he⟩ := h.ne_stack (d := d) (by simp [hd])
  obtain ⟨w, hw, hread⟩ := Memory.readByte_of_contains hm ha
  refine ⟨_, w, hw, exec_of_op_ok hexec h (by rw [haddr]; exact hread), ?_⟩
  rw [zeroExtend_wordByte]
  exact writesReg_writeReg hb he

theorem exec_loadByte_outside (ha : s.mem.contains a = false) :
    exec i s = .next (faultedAs s (.memoryOutOfBounds a)) :=
  exec_of_op_error hexec h (by rw [haddr]; exact Memory.readByte_of_not_contains ha)

end

end

/-! ## Stores -/

/-- `t` is `s` after the instruction stored `v` in the eight bytes from `a` on and went on; nothing else
changed. -/
def StoresWord (i : Instr) (s t : State) (a v : Word) : Prop :=
  t.pc = npc i s ∧ RegsKept [.instruction] s t ∧
    t.mem = { s.mem with words := s.mem.words.set (s.mem.wordIndex a) v } ∧
    (∀ j < 8, ∀ c : Word, c.toNat = a.toNat + j → byteAt t c = some (byteOf v j)) ∧
    (∀ c, ¬ InBytes a 8 c → byteAt t c = byteAt s c) ∧ RunKept s t

/-- `t` is `s` after the instruction stored `b` in the byte at `a` and went on; nothing else changed. -/
def StoresByte (i : Instr) (s t : State) (a : Word) (b : Byte) : Prop :=
  t.pc = npc i s ∧ RegsKept [.instruction] s t ∧ t.mem.words.length = s.mem.words.length ∧
    byteAt t a = some b ∧ (∀ c, c ≠ a → byteAt t c = byteAt s c) ∧ RunKept s t

section
variable {i : Instr} {s : State} {m : Memory} {a : Word}

/-- A stack with the same two ends changes no register but the `pc`. -/
theorem regsKept_withMem_of_ends (n : Nat) (hstart : m.start = s.mem.start)
    (hend : m.stackEnd = s.mem.stackEnd) : RegsKept [.instruction] s ((s.advance n).withMem m) := by
  intro r hr
  by_cases hre : r = .stackEnd
  · rw [hre]; exact ⟨hend, rfl⟩
  · exact regsKept_withMem_advance n hstart r (by simpa [hre] using hr)

theorem storesWord_of_writeWord {v : Word} (hm : s.mem.wf) (ha : s.mem.contains a = true)
    (h0 : s.mem.byteOffset a = 0) :
    ∃ m, s.mem.writeWord a v = .ok m ∧ StoresWord i s ((s.advance i.length).withMem m) a v := by
  obtain ⟨-, hwrites, -⟩ := memoryWrites s.mem a hm
  obtain ⟨m, hwrite, hmem, -, hbytes, hframe⟩ := hwrites ha h0 v
  have hstart : m.start = s.mem.start := by rw [hmem]
  have hend : m.stackEnd = s.mem.stackEnd := by rw [hmem]
  have hcapacity : m.capacity = s.mem.capacity := by rw [hmem]
  refine ⟨m, hwrite, rfl, regsKept_withMem_of_ends _ hstart hend, hmem, fun j hj c hc => ?_,
    fun c hc => ?_, rfl, rfl, rfl, rfl, rfl, hstart, hcapacity, rfl⟩
  · rw [byteAt_of_mem_eq rfl, State.withMem_mem, hbytes j hj c hc]; rfl
  · rw [byteAt_of_mem_eq rfl, State.withMem_mem, hframe c hc, byteAt]

theorem storesByte_of_writeByte {b : Byte} (hm : s.mem.wf) (ha : s.mem.contains a = true) :
    ∃ m, s.mem.writeByte a b = .ok m ∧ StoresByte i s ((s.advance i.length).withMem m) a b := by
  obtain ⟨hwrites, -⟩ := memoryWrites s.mem a hm
  obtain ⟨m, hwrite, hstart, hend, hlength, hcapacity, hbyte, hframe⟩ := hwrites ha b
  refine ⟨m, hwrite, rfl, regsKept_withMem_of_ends _ hstart hend, hlength, ?_,
    fun c hc => ?_, rfl, rfl, rfl, rfl, rfl, hstart, hcapacity, rfl⟩
  · rw [byteAt_of_mem_eq rfl, State.withMem_mem, hbyte]; rfl
  · rw [byteAt_of_mem_eq rfl, State.withMem_mem, hframe c hc, byteAt]

variable {v : Operand} (addr : State → Word) (haddr : addr (s.advance i.length) = a)
include haddr

section
variable (hexec : exec i s = execute i s fun t =>
    (t.mem.writeWord (addr t) (t.value v)).map fun mem => t.withMem mem)
  (h : NoCommonFault i s)
include hexec h

theorem exec_storesWord (hm : s.mem.wf) (ha : s.mem.contains a = true)
    (h0 : s.mem.byteOffset a = 0) :
    ∃ t, exec i s = .next t ∧ StoresWord i s t a (opAt i s v) := by
  obtain ⟨m, hwrite, hstores⟩ := storesWord_of_writeWord hm ha h0
  exact ⟨_, exec_of_op_ok hexec h (by rw [haddr, value_advance_eq]; exact hwrite), hstores⟩

theorem exec_storeWord_faults : TakesWordFaults i s a :=
  exec_wordFaults hexec h (by rw [haddr]; exact s.mem.wordFaults_writeWord a _)

end

section
variable (hexec : exec i s = execute i s fun t =>
    (t.mem.writeByte (addr t) (lowByte (t.value v))).map fun mem => t.withMem mem)
  (h : NoCommonFault i s)
include hexec h

theorem exec_storesByte (hm : s.mem.wf) (ha : s.mem.contains a = true) :
    ∃ t, exec i s = .next t ∧ StoresByte i s t a (byteOf (opAt i s v) 0) := by
  obtain ⟨m, hwrite, hstores⟩ := storesByte_of_writeByte hm ha
  refine ⟨_, exec_of_op_ok hexec h ?_, hstores⟩
  rw [haddr, value_advance_eq, lowByte_eq_byteOf]
  exact hwrite

theorem exec_storeByte_outside (ha : s.mem.contains a = false) :
    exec i s = .next (faultedAs s (.memoryOutOfBounds a)) :=
  exec_of_op_error hexec h (by rw [haddr]; exact Memory.writeByte_of_not_contains ha _)

end

end

/-! ## The effects of push and pop -/

theorem exec_push {s : State} (v : Operand) :
    exec (.push v) s = execute (.push v) s fun t =>
      (t.mem.push (t.value v)).map fun mem => t.withMem mem := rfl

theorem exec_pop {s : State} (d : Reg) :
    exec (.pop d) s = execute (.pop d) s fun t =>
      t.mem.pop.map fun (w, mem) => (t.withMem mem).writeReg d w := rfl

/-! ## The statements about memory operations (spec/45_memory_ops.md) -/

/-- Settles O48: `mov` is one register write of its one source. -/
theorem moveCopies : Obligations.MoveCopies :=
  ⟨rfl, fun _ _ => exec_takesCommonFaults _, fun _ _ _ => exec_writesReg_source id rfl rfl,
    fun _ _ => ⟨rfl, rfl⟩⟩

/-- Settles O49: both forms are one word read and one register write of its answer. -/
theorem wordLoads : Obligations.WordLoads :=
  ⟨⟨rfl, rfl, fun _ _ => encode_modeByte_of_regs 2 rfl⟩,
    fun _ _ => exec_takesCommonFaults _, fun _ _ _ => exec_takesCommonFaults _,
    fun _ base _ h => exec_loadsWord (·.readReg base) (readReg_advance_eq base) rfl h rfl,
    fun _ base _ => exec_loadWord_faults (·.readReg base) (readReg_advance_eq base) rfl,
    fun _ base off _ h => exec_loadsWord (·.offsetAddress base off)
      (offsetAddress_advance_eq base off) rfl h rfl,
    fun _ base off _ => exec_loadWord_faults (·.offsetAddress base off)
      (offsetAddress_advance_eq base off) rfl⟩

/-- Settles O50: both forms are one byte read and one register write of its answer, zero-extended. -/
theorem byteLoads : Obligations.ByteLoads :=
  ⟨⟨rfl, rfl, fun _ _ => encode_modeByte_of_regs 2 rfl⟩,
    fun _ _ => exec_takesCommonFaults _, fun _ _ _ => exec_takesCommonFaults _,
    fun _ base _ h => exec_loadsByte (·.readReg base) (readReg_advance_eq base) rfl h rfl,
    fun _ base _ => exec_loadByte_outside (·.readReg base) (readReg_advance_eq base) rfl,
    fun _ base off _ h => exec_loadsByte (·.offsetAddress base off)
      (offsetAddress_advance_eq base off) rfl h rfl,
    fun _ base off _ => exec_loadByte_outside
      (·.offsetAddress base off) (offsetAddress_advance_eq base off) rfl⟩

/-- Settles O51: both forms commit the stack of one word write. -/
theorem wordStores : Obligations.WordStores :=
  ⟨⟨rfl, rfl⟩,
    fun _ _ => exec_takesCommonFaults _, fun _ _ _ => exec_takesCommonFaults _,
    fun _ base _ => exec_storesWord (·.readReg base) (readReg_advance_eq base) rfl,
    fun _ base _ => exec_storeWord_faults (·.readReg base) (readReg_advance_eq base) rfl,
    fun _ base off _ => exec_storesWord (·.offsetAddress base off)
      (offsetAddress_advance_eq base off) rfl,
    fun _ base off _ => exec_storeWord_faults
      (·.offsetAddress base off) (offsetAddress_advance_eq base off) rfl⟩

/-- Settles O52: both forms commit the stack of one byte write. -/
theorem byteStores : Obligations.ByteStores :=
  ⟨⟨rfl, rfl⟩,
    fun _ _ => exec_takesCommonFaults _, fun _ _ _ => exec_takesCommonFaults _,
    fun _ base _ => exec_storesByte (·.readReg base) (readReg_advance_eq base) rfl,
    fun _ base _ => exec_storeByte_outside (·.readReg base) (readReg_advance_eq base) rfl,
    fun _ base off _ => exec_storesByte (·.offsetAddress base off)
      (offsetAddress_advance_eq base off) rfl,
    fun _ base off _ => exec_storeByte_outside
      (·.offsetAddress base off) (offsetAddress_advance_eq base off) rfl⟩

/-- Settles O53: with room the effect is the push that `cal` makes, with a transfer to where the `pc`
already is, and a full stack is the effect's own fault. -/
theorem pushInstruction : Obligations.PushInstruction := by
  refine ⟨rfl, fun _ => exec_takesCommonFaults _, fun v s h hm hroom => ?_,
    fun v s h hfull => exec_of_op_error (exec_push v) h (Memory.push_of_full hfull)⟩
  have hp := Memory.push_of_room (v := opAt (.push v) s v) hroom
  exact ⟨_, exec_of_op_ok (exec_push v) h (by rw [value_advance_eq]; exact hp), rfl,
    pushesWord_of_push hm hp (Instr.push v).length (npc (.push v) s)⟩

/-- Settles O54: with a word the effect is one pop and a write of the popped word, and an empty stack is
the effect's own fault. -/
theorem popInstruction : Obligations.PopInstruction := by
  refine ⟨⟨rfl, fun _ => encode_modeByte_of_regs 1 rfl⟩, fun _ => exec_takesCommonFaults _,
    fun d s w ws h hm hw => ?_,
    fun d s h hnil => exec_of_op_error (exec_pop d) h (Memory.pop_of_nil hnil)⟩
  obtain ⟨hb, he⟩ := h.ne_stack (d := d) (List.mem_singleton.mpr rfl)
  have hp := Memory.pop_of_cons hw
  obtain ⟨hregs, hrest⟩ := popsWord_of_pop hm hp (Instr.pop d).length d w
  refine ⟨_, exec_of_op_ok (exec_pop d) h hp, fun hz => ⟨?_, ?_⟩, hregs, fun hi => ?_, hrest⟩
  · exact State.readReg_writeReg_self _ _ _ hz hb he
  · simp [State.defined_writeReg]
  · rw [State.writeReg_pc, if_neg hi]; rfl

end Sys2Proof.Machine

/-! SUPPORT. The miscellaneous instructions (spec/46_misc.md R200 to R205). Each makes one effect, said
below as an equation of `exec`. Three of them have no operands, so that they decode under every mode
byte. -/

namespace Sys2Proof.Machine

/-! ## Decoding without operands -/

/-- No operand uses a bit of the mode byte, so that any is accepted (R78). -/
theorem decodeAt_of_operands_eq_nil {i : Instr} {b0 b1 b2 : Byte} (hops : i.operands = [])
    (hid : opcodeMap i.op = identDecode b0 b1 b2) (mode : Byte) :
    decodeAt [b0, b1, b2, mode] 0 = .ok (i, 4) := by
  have hlookup : opcodeMap.lookup (identDecode b0 b1 b2) = some i.op :=
    hid ▸ lookup_opcodeMap i.op
  refine decodeAtWith_eq_ok_iff.mpr ⟨by rw [Instr.length, hops]; rfl, [], ?_⟩
  exact decodeBytesWith_eq_ok_iff.mpr
    ⟨b0, b1, b2, mode, hlookup, by rw [hops]; exact announces_nil mode 0, by rw [hops]; rfl⟩

section
variable {s : State}

/-! ## The effects of the miscellaneous instructions -/

theorem exec_halt : exec .halt s = execute .halt s fun _ => .ok (s.terminate .halted) := rfl

theorem exec_exit (v : Operand) :
    exec (.exit v) s = execute (.exit v) s fun t => .ok (s.terminate (.exited (t.value v).s)) := rfl

theorem exec_print (v : Operand) :
    exec (.print v) s = execute (.print v) s fun t => .ok (t.emit (lowByte (t.value v))) := rfl

theorem exec_read (d : Reg) :
    exec (.read d) s = execute (.read d) s fun t =>
      t.takeInput.map fun (b, u) => u.writeReg d (zeroExtend b) := rfl

theorem exec_dump : exec .dump s = execute .dump s fun _ => .error .unimplemented := rfl

theorem exec_nop : exec .nop s = execute .nop s fun t => .ok t := rfl

/-! ## One input byte -/

theorem State.takeInput_of_cons {b : Byte} {bs : List Byte} (h : s.input = b :: bs) :
    s.takeInput = .ok (b, { s with input := bs }) := by
  simp [State.takeInput, h]

theorem State.takeInput_of_nil (h : s.input = []) : s.takeInput = .error .inputExhausted := by
  simp [State.takeInput, h]

theorem zeroExtend_eq_ofNat (b : Byte) : zeroExtend b = BitVec.ofNat 64 b.toNat := by
  apply BitVec.eq_of_toNat_eq
  simp [zeroExtend]

/-- With a byte left, `read` is one register write on the state whose input is the rest. -/
theorem exec_read_writesReg {d : Reg} {b : Byte} {bs : List Byte} (h : NoCommonFault (.read d) s)
    (hin : s.input = b :: bs) : ∃ t, exec (.read d) s = .next t ∧
      WritesReg (.read d) { s with input := bs } t d (BitVec.ofNat 64 b.toNat) := by
  obtain ⟨hb, he⟩ := h.ne_stack (d := d) (List.mem_singleton.mpr rfl)
  have htake : (s.advance (Instr.read d).length).takeInput = .ok (b, _) :=
    State.takeInput_of_cons hin
  refine ⟨_, exec_of_op_ok (exec_read d) h htake, ?_⟩
  rw [← zeroExtend_eq_ofNat]
  exact writesReg_writeReg hb he

end

/-! ## The statements about the miscellaneous instructions (spec/46_misc.md) -/

/-- Settles O57: the register write that `read` makes keeps all but the input already taken, and the end
of input is the effect's own fault. -/
theorem readTakesOneByte : Obligations.ReadTakesOneByte := by
  refine ⟨rfl, fun _ => exec_takesCommonFaults _, fun d s b bs h hin => ?_, fun d s h hnil =>
    exec_of_op_error (exec_read d) h (State.takeInput_of_nil hnil)⟩
  obtain ⟨t, hexec, hd, -, hregs, hpc, hmem, hstatus, hinput, houtput, hparams⟩ :=
    exec_read_writesReg h hin
  exact ⟨t, hexec, hinput, hd, hregs, hpc, hmem, houtput, hstatus, hparams⟩

/-- Settles O55: the effect is the state before the instruction with its status ended, and an ended
state has no step. -/
theorem haltAndExitEndTheRun : Obligations.HaltAndExitEndTheRun := by
  refine ⟨⟨rfl, rfl⟩, exec_takesCommonFaults _, fun _ => exec_takesCommonFaults _,
    fun s h => exec_halt.trans (execute_of_ok h rfl), fun v s h => ?_,
    decodeAt_of_operands_eq_nil rfl rfl, fun s t hended => ?_⟩
  · rw [← value_advance_eq]
    exact (exec_exit v).trans (execute_of_ok h rfl)
  · have hs : s.status ≠ .running := by
      obtain hs | ⟨code, hs⟩ := hended <;> rw [hs] <;> nofun
    rw [step_of_not_running hs]
    nofun

/-- Settles O56: the effect is one emit on the state whose `pc` is `npc`. -/
theorem printAppendsTheLowByte : Obligations.PrintAppendsTheLowByte := by
  refine ⟨rfl, fun _ => exec_takesCommonFaults _, fun v s h => ?_⟩
  rw [← value_advance_eq, ← lowByte_eq_byteOf]
  exact (exec_print v).trans (execute_of_ok h rfl)

/-- Settles O58: `nop` keeps the state whose `pc` is `npc`, `dump` is the effect's own fault, and the
disassembler meets `dump` where its encoding stands. -/
theorem nopAdvancesAndDumpFaults : Obligations.NopAdvancesAndDumpFaults := by
  obtain ⟨hinj, -⟩ := opcodeMapIsUnambiguous
  obtain ⟨-, hdump⟩ := disassembleOfAssemble opcodeMap hinj [.dump]
  exact ⟨⟨rfl, rfl⟩, exec_takesCommonFaults _, exec_takesCommonFaults _,
    fun s h => exec_nop.trans (execute_of_ok h rfl),
    fun s h => exec_dump.trans (execute_of_error h rfl), hdump,
    fun mode => ⟨decodeAt_of_operands_eq_nil rfl rfl mode,
      decodeAt_of_operands_eq_nil rfl rfl mode⟩⟩

end Sys2Proof.Machine

/-! SUPPORT. Faults (spec/60_exceptions.md R212). A step takes a fault in one of two places, at the fetch
or in the instruction it runs, and either place answers `takeFault` of the state before the step. -/

namespace Sys2Proof.Machine

/-! ## One step that ends in a fault -/

/-- A step that ends in a fault has taken it: a decode fault is taken at the fetch, and no effect that an
instruction commits is a fault. -/
theorem step_eq_takeFault {s t : State} {k : FaultKind} (h : step s = .next t)
    (hk : t.status = .faulted k) : t = s.takeFault k := by
  obtain ⟨hs, ⟨k', -, rfl⟩ | ⟨i, n, -, hexec⟩⟩ := step_eq_next h
  · cases hk; rfl
  · exact (exec_eq_takeFault hs hexec hk).1

/-! ## The statement about faults (spec/60_exceptions.md) -/

/-- Settles O31: `faultedAs` of the statement is what `takeFault` leaves. -/
theorem faultsArePrecise : Obligations.FaultsArePrecise :=
  fun _ _ _ => step_eq_takeFault

end Sys2Proof.Machine
